-- ==== Sys2Proof/Word.lean ====
section
/-! DEFINITION. Word.lean: the machine's word types. -/

namespace Sys2Proof

/-- A general register, an address, an instruction word: 32 bits (10_state.md R20, R22, R23). -/
abbrev Word := BitVec 32

/-- The smallest addressable unit of both address spaces (20_memory.md R60). -/
abbrev Byte := BitVec 8

/-- A timer value (10_state.md R37) or a translation list entry (20_memory.md R73): 64 bits. -/
abbrev DWord := BitVec 64

end Sys2Proof
end

