-- ==== Sys2Proof/Syntax.lean ====
section
/-! DEFINITION. Syntax.lean: the instructions, one constructor for each row of
spec/opcode_table.json. The operands of a virtual instruction are implicit in R0-R3 and R29
(30_encoding.md R132), so only the two rows with an immediate have a field. -/

namespace Sys2Proof

inductive Instr where
  /-- `trap1(#0)`, 46_environment.md R260. -/
  | vmversion
  /-- `trap1(#1)`, 40_event_management.md R153. -/
  | vmrte
  /-- `trap1(#2)`, 40_event_management.md R150. -/
  | vmsetvec
  /-- `trap1(#3)`, 41_interrupt_management.md R183. -/
  | vmsetie
  /-- `trap1(#4)`, 41_interrupt_management.md R182. -/
  | vmgetie
  /-- `trap1(#5)`, 41_interrupt_management.md R170. -/
  | vmintop
  /-- `trap1(#10)`, 44_memory_management.md R231. -/
  | vmclrmap
  /-- `trap1(#11)`, 44_memory_management.md R230. -/
  | vmnewmap
  /-- `trap1(#13)`, 43_cache_control.md R220. -/
  | vmcache
  /-- `trap1(#14)`, 45_processor_management.md R240. -/
  | vmgettime
  /-- `trap1(#15)`, 45_processor_management.md R241. -/
  | vmsettime
  /-- `trap1(#16)`, 45_processor_management.md R242. -/
  | vmwait
  /-- `trap1(#17)`, 45_processor_management.md R243. -/
  | vmyield
  /-- `trap1(#18)`, 45_processor_management.md R244. -/
  | vmstart
  /-- `trap1(#19)`, 45_processor_management.md R245. -/
  | vmstop
  /-- `trap1(#20)`, 45_processor_management.md R246. -/
  | vmvpid
  /-- `trap1(#21)`, 40_event_management.md R152. -/
  | vmsetregs
  /-- `trap1(#22)`, 40_event_management.md R151. -/
  | vmgetregs
  /-- `trap1` with a number no instruction is assigned to, 30_encoding.md R127. -/
  | trap1Reserved (imm : BitVec 8)
  /-- `trap0(#imm)`, 42_trap0_and_base_isa.md R200. -/
  | trap0 (imm : BitVec 8)
  deriving DecidableEq, Repr

end Sys2Proof
end

