-- ==== Sys2Proof/WellFormed.lean ====
section
/-! DEFINITION. WellFormed.lean: which instructions are well formed. The only check an `Instr` needs is
that a reserved `trap1` carries a number that no instruction is assigned to (30_encoding.md R127). -/

namespace Sys2Proof

/-- 30_encoding.md R127: the reserved `trap1` numbers are 6, 7, 8, 9, 12 and 23 to 255. -/
abbrev reservedTrap1 (imm : BitVec 8) : Prop :=
  imm = 6 ∨ imm = 7 ∨ imm = 8 ∨ imm = 9 ∨ imm = 12 ∨ 23 ≤ imm.toNat

/-- The instruction is one the encoding tables give a word to. -/
def Instr.wf : Instr → Bool
  | .trap1Reserved imm => decide (reservedTrap1 imm)
  | .vmversion => true
  | .vmrte => true
  | .vmsetvec => true
  | .vmsetie => true
  | .vmgetie => true
  | .vmintop => true
  | .vmclrmap => true
  | .vmnewmap => true
  | .vmcache => true
  | .vmgettime => true
  | .vmsettime => true
  | .vmwait => true
  | .vmyield => true
  | .vmstart => true
  | .vmstop => true
  | .vmvpid => true
  | .vmsetregs => true
  | .vmgetregs => true
  | .trap0 _ => true

end Sys2Proof
end

