-- ==== Sys2Proof/Decode.lean ====
section
/-! DEFINITION. Decode.lean: bytes to instruction and instruction to word (30_encoding.md). The decoder
reads the fields of rule R120-R122 once; which word is a well-formed packet (its Parse field, R125) is
a separate question, `soloParse`, that the packet step asks after decoding. -/

namespace Sys2Proof

/-- The word whose bytes, lowest address first, are given: the lowest address holds bits 7:0
(20_memory.md R63). -/
def wordOfBytes (b0 b1 b2 b3 : Byte) : Word := b3 ++ b2 ++ b1 ++ b0

/-- The four bytes of a word, lowest address first (20_memory.md R63). -/
def bytesOfWord (w : Word) : List Byte :=
  [w.extractLsb' 0 8, w.extractLsb' 8 8, w.extractLsb' 16 8, w.extractLsb' 24 8]

/-- 30_encoding.md R121: `imm8 = word[12:8] : word[4:2]`. -/
def imm8Of (w : Word) : BitVec 8 := w.extractLsb' 8 5 ++ w.extractLsb' 2 3

/-- 30_encoding.md R120: bits 31:23 are `010101001`. -/
def isTrap1 (w : Word) : Bool := w.extractLsb' 23 9 == 0b010101001#9

/-- 30_encoding.md R131: bits 31:22 are `0101010000` (PRESUMED by the spec, log entry 15). -/
def isTrap0 (w : Word) : Bool := w.extractLsb' 22 10 == 0b0101010000#10

/-- The Parse field, bits 15:14 (30_encoding.md R120). -/
def parseOf (w : Word) : BitVec 2 := w.extractLsb' 14 2

/-- 30_encoding.md R125: a solo instruction is a word with Parse = `11` (log entry 12). -/
def soloParse (w : Word) : Bool := parseOf w == 3#2

/-- 30_encoding.md R122: the map of `trap1` numbers. -/
def trap1Instr (imm : BitVec 8) : Instr :=
  match imm.toNat with
  | 0 => .vmversion
  | 1 => .vmrte
  | 2 => .vmsetvec
  | 3 => .vmsetie
  | 4 => .vmgetie
  | 5 => .vmintop
  | 10 => .vmclrmap
  | 11 => .vmnewmap
  | 13 => .vmcache
  | 14 => .vmgettime
  | 15 => .vmsettime
  | 16 => .vmwait
  | 17 => .vmyield
  | 18 => .vmstart
  | 19 => .vmstop
  | 20 => .vmvpid
  | 21 => .vmsetregs
  | 22 => .vmgetregs
  | _ => .trap1Reserved imm

/-- Why bytes are not an instruction of this model. -/
inductive DecodeError where
  /-- Fewer than the four bytes of an instruction word were given. -/
  | truncated
  /-- The word belongs to the base instruction set, a parameter of the spec (00_scope.md R5, R8;
  42_trap0_and_base_isa.md R201 step 3). -/
  | baseInstruction (w : Word)
  deriving DecidableEq, Repr

/-- 42_trap0_and_base_isa.md R201 step 3: a `trap1` word, a `trap0` word, or the base instruction set's.
Bits 22:16, 13, 7:5 and 1:0 of a `trap1` word are ignored (30_encoding.md R126). -/
def decodeWord (w : Word) : Except DecodeError Instr :=
  if isTrap1 w then .ok (trap1Instr (imm8Of w))
  else if isTrap0 w then .ok (.trap0 (imm8Of w))
  else .error (.baseInstruction w)

/-- Decode the instruction at the head of a list of bytes, lowest address first, and return the rest.
Total: every list of bytes is an instruction or is rejected by name. -/
def decode (bytes : List Byte) : Except DecodeError (Instr × List Byte) :=
  match bytes with
  | b0 :: b1 :: b2 :: b3 :: rest =>
    match decodeWord (wordOfBytes b0 b1 b2 b3) with
    | .ok i => .ok (i, rest)
    | .error e => .error e
  | _ => .error .truncated

/-- The canonical word of a `trap1` number: don't-care bits 0, Parse = `11` (30_encoding.md R122). -/
def trap1Word (imm : BitVec 8) : Word :=
  0b010101001#9 ++ 0#7 ++ 3#2 ++ 0#1 ++ imm.extractLsb' 3 5 ++ 0#3 ++ imm.extractLsb' 0 3 ++ 0#2

/-- The canonical word of a `trap0` (30_encoding.md R131). -/
def trap0Word (imm : BitVec 8) : Word :=
  0b0101010000#10 ++ 0#6 ++ 3#2 ++ 0#1 ++ imm.extractLsb' 3 5 ++ 0#3 ++ imm.extractLsb' 0 3 ++ 0#2

/-- The canonical word of an instruction (30_encoding.md R122, R130, R131). -/
def encode : Instr → Word
  | .vmversion => trap1Word 0
  | .vmrte => trap1Word 1
  | .vmsetvec => trap1Word 2
  | .vmsetie => trap1Word 3
  | .vmgetie => trap1Word 4
  | .vmintop => trap1Word 5
  | .vmclrmap => trap1Word 10
  | .vmnewmap => trap1Word 11
  | .vmcache => trap1Word 13
  | .vmgettime => trap1Word 14
  | .vmsettime => trap1Word 15
  | .vmwait => trap1Word 16
  | .vmyield => trap1Word 17
  | .vmstart => trap1Word 18
  | .vmstop => trap1Word 19
  | .vmvpid => trap1Word 20
  | .vmsetregs => trap1Word 21
  | .vmgetregs => trap1Word 22
  | .trap1Reserved imm => trap1Word imm
  | .trap0 imm => trap0Word imm

/-- The instruction word that a table word of `nbits` bits stands for: bits from `nbits` on are 0. -/
def tableWord (nbits w : Nat) : Word := BitVec.ofNat 32 (w % 2 ^ nbits)

/-- A table word as it is placed in memory. The table's `match` words stand "before the parse bits are
added" (30_encoding.md R121, R122: `canonical = match | 0xC000`), so a `trap1` or `trap0` word with Parse
bits 00 gets Parse = 11, the mark of a one-word packet; every other word is placed as it is
(log entry 13). -/
def placedWord (nbits w : Nat) : Word :=
  let v := tableWord nbits w
  if (isTrap1 v || isTrap0 v) && parseOf v == 0#2 then v ||| 0xC000#32 else v

/-- The instruction the decoder reads from the bits `w`, numbered as spec/opcode_table.json numbers them:
the word is laid out in memory, lowest byte first, and given to `decode`. -/
def decodeTableWord (nbits w : Nat) : Option Instr :=
  match decode (bytesOfWord (tableWord nbits w)) with
  | .ok (i, _) => some i
  | .error _ => none

end Sys2Proof
end

