-- ==== Sys2Proof/Config.lean ====
section
/-! DEFINITION. Config.lean: what the spec leaves to the implementation: the free values it writes `undef`
and `draw` (93_implementation_defined.md section 1; assumption log entry 6), the initial contents of memory
(entry 8), the record of implementation parameters (00_scope.md R7; entry 3) and the base instruction set
`BaseISA` (00_scope.md R8; entry 14). -/

namespace Sys2Proof

/-- The free 32-bit value number `n`: an `undef` register (93_implementation_defined.md section 1). -/
opaque Config.undefWord : Nat → BitVec 32

/-- The free 64-bit value number `n`: the unstated timer of a new processor (10_state.md R44). -/
opaque Config.undefLong : Nat → BitVec 64

/-- The free bit set number `n`: the unstated local enables of a new processor (10_state.md R44). -/
opaque Config.undefBits : Nat → Nat

/-- The free value number `n` of a new processor's base-architecture state (10_state.md R43, R44). -/
opaque Config.undefBase : Nat → List (BitVec 32)

/-- What the byte of logical memory at an address holds before anything is stored there: any value, per
byte, the same at every read (10_state.md R44, 93_implementation_defined.md U2; entry 8). -/
opaque Config.initialByte : Nat → Byte

/-- The environment's free choice number `n`, reduced to the size of the set it draws from
(93_implementation_defined.md section 1, `draw(S)`). -/
opaque Config.draw : Nat → Nat

/-- The implementation parameters of 00_scope.md R7 that a step consults. They are fixed for a run
(10_state.md R41); a statement about every state is a statement about every choice of them. -/
structure Params where
  /-- `MAX_VP`. -/
  maxVp : Nat
  /-- `NUM_INT`. -/
  numInt : Nat
  /-- `LM_OK`: the accessible logical ranges, each a base and a size in bytes. -/
  lmRanges : List (Nat × Nat)
  /-- `0 ∈ MAP_TYPES`: linear lists are implemented. -/
  mapList : Bool
  /-- `1 ∈ MAP_TYPES`: page tables are implemented. -/
  mapTables : Bool
  /-- `VALIDATE_AT_NEWMAP`. -/
  validate : Bool
  /-- Bits 30:0 of `NEWMAP_ERR`; bit 31 is 1. -/
  newmapErrLow : BitVec 31
  /-- `MC_RESUME`. -/
  mcResume : Bool
  /-- `TIMER_SCOPE` is `vp`. -/
  timerPerVp : Bool
  /-- The members of `VERSIONS` besides `0x0000_0700`. -/
  otherVersions : List Word
  /-- The first 4 KB page number of the segment the program image is loaded into (20_memory.md R68). -/
  segPage : Nat
  /-- Its size in 4 KB pages. -/
  segPages : Nat
  /-- The user bit of the initial map (20_memory.md R68). -/
  initU : Bool
  /-- The cache attribute of the initial map (20_memory.md R68). -/
  initC : BitVec 4
  /-- `BaseISA` judges a `trap1` or `trap0` word that is no packet by itself; where it does not, the outcome is
  the expected one, 0x15 (30_encoding.md R125, 93_implementation_defined.md U31; entry 12). -/
  baseJudges : Bool
  deriving DecidableEq, Repr

/-! ### `BaseISA` (00_scope.md R8, 42_trap0_and_base_isa.md R201 step 4) -/

/-- The width of a data access (20_memory.md R65): 1, 2, 4 or 8 bytes. -/
inductive AccessSize where
  | b1
  | b2
  | b4
  | b8
  deriving DecidableEq, Repr

/-- The exceptions a base packet may request when it is decoded, before any access (60_exceptions.md R283:
decode and privilege come before the accesses). A base packet requests an exception only by itself
(00_scope.md R8, 42_trap0_and_base_isa.md R203, R204); `MemRead`, `MemWrite` and `Fetch` raise their own. The
order of 0x01 and 0x28 among the others is `BaseISA`'s (R283), so they stand here and in `BaseFault`. -/
inductive BaseReject where
  | preciseBus
  | invalidPacket
  | privilege
  | misalignedPc
  | cacheConflict
  | registerCollision
  deriving DecidableEq, Repr

/-- The exceptions a base packet may request among its accesses (60_exceptions.md R283). -/
inductive BaseFault where
  | preciseBus
  | misalignedLoad (va : Word)
  | misalignedStore (va : Word)
  | cacheConflict
  deriving DecidableEq, Repr

/-- The user-level cache instructions (42_trap0_and_base_isa.md R202). -/
inductive BaseCacheOp where
  | dcfetch
  | dccleana
  | dccleaninva
  | dcinva
  | icinva
  deriving DecidableEq, Repr

/-- What a base packet sees when it starts: the words of the packet, the processor's `pc` and general
registers, and its other base-architecture state (42_trap0_and_base_isa.md R201 step 4). The mode is not among
them: no instruction reads `UM` directly (10_state.md R29, R42). -/
structure BaseView where
  words : List Word
  pc : Word
  regs : Vector Word 32
  other : List Word

/-- What a decoded base packet does: one request after the other, each with what follows it, which may depend
on the value the request returns. -/
inductive BaseProg where
  /-- The packet is complete; the next one is at `target`. -/
  | finish (target : Word)
  /-- The packet raises this exception, at this place among its accesses. -/
  | raises (c : BaseFault)
  /-- `R[rd] <- v`. -/
  | setReg (rd : Fin 32) (v : Word) (k : BaseProg)
  /-- The other base-architecture state becomes `v`. -/
  | setOther (v : List Word) (k : BaseProg)
  /-- `MemRead`: the bytes read, as an unsigned quantity. -/
  | load (va : Word) (size : AccessSize) (k : DWord → BaseProg)
  /-- `MemWrite`. -/
  | store (va : Word) (size : AccessSize) (v : DWord) (k : BaseProg)
  /-- A user-level cache instruction over the `n` bytes at `va`. -/
  | cache (op : BaseCacheOp) (va : Word) (n : Nat) (k : BaseProg)
  /-- A value that the base architecture leaves open. -/
  | draw (k : Word → BaseProg)
  deriving Inhabited

/-- A base packet (42_trap0_and_base_isa.md R201 step 4) in the order of 60_exceptions.md R283: fetches and
decode with its privilege check first, the accesses after them. -/
inductive BasePacket where
  /-- `Fetch`: one more instruction word. -/
  | fetch (va : Word) (k : Word → BasePacket)
  /-- Decode rejects the packet with this exception. -/
  | rejects (c : BaseReject)
  /-- The packet is decoded and does this. -/
  | runs (prog : BaseProg)
  deriving Inhabited

/-- The step function of the base Hexagon user-level architecture, of which no source says anything: a
parameter without a definition, so that what is proved holds for every base instruction set (00_scope.md R5,
R8; entry 14). -/
opaque Config.baseIsa : BaseView → BasePacket

end Sys2Proof
end

