-- ==== Sys2Proof/Machine/State.lean ====
section
/-! DEFINITION. Machine/State.lean: the state of a virtual machine as plain data (10_state.md), the
reasons a step can stop, and the state right after reset. -/

namespace Sys2Proof.Machine

/-- Logical memory `LM` (10_state.md R38): the bytes that were stored or loaded, as (logical address, byte)
pairs. An address that is not listed still has its initial content, the free value `Config.initialByte`
(10_state.md R44, 93_implementation_defined.md U2; log entry 8). -/
abbrev Memory := List Host.Cell

/-- The canonical form of memory: addresses strictly rising, each a 32-bit logical address. No entry can be
known to equal the initial content of its address, which is a free value (log entry 8). -/
abbrev Memory.wf (m : Memory) : Prop :=
  (m.map Prod.fst).Pairwise (· < ·) ∧ ∀ c ∈ m, c.1 < 2 ^ 32

/-- `RUN` (10_state.md R34). -/
inductive RunState where
  | running
  | waiting
  | stopped
  deriving DecidableEq, Repr

/-- `MAP` (10_state.md R31): the initial map, or a table type with its logical base address. -/
inductive MapSel where
  | initial
  | linear (base : Word)
  | tables (base : Word)
  deriving DecidableEq, Repr

/-- A page size code, 0 (4 KB) to 6 (16 MB) (20_memory.md R74). -/
abbrev SizeCode := Fin 7

/-- A translation of one virtual page (20_memory.md R71): its size, the logical address of its first
byte, the permissions, the cache attribute and the trusted bit. -/
structure Xlat where
  size : SizeCode
  page : Word
  x : Bool
  w : Bool
  r : Bool
  u : Bool
  c : BitVec 4
  t : Bool
  deriving DecidableEq, Repr

/-- What a completed walk answers (20_memory.md R72, R77). -/
inductive Lookup where
  | hit (t : Xlat)
  | noTranslation
  | invalid
  deriving DecidableEq, Repr

/-- A member of `TC` (10_state.md R32): the virtual page a walk was made for, and its answer. -/
structure Cached where
  vpage : Word
  size : SizeCode
  answer : Lookup
  deriving DecidableEq, Repr

/-- An overwritten byte that an instruction fetch may still return (20_memory.md R94): its logical
address, the content it had (`none`: the initial content), whether the data caches have been
cleaned since, and the processors whose instruction fetches no longer see it. -/
structure StaleByte where
  la : Nat
  old : Option Byte
  cleaned : Bool
  synced : List Word
  deriving DecidableEq, Repr

/-- The machine check causes of Table 7-2 (60_exceptions.md R279). Reserved codes are never produced. -/
inductive McCause where
  /-- 0x00 -/
  | shutdown
  /-- 0x01 -/
  | badGuestSp
  /-- 0x03 -/
  | badMapping
  /-- 0x20 -/
  | dataAbort
  /-- 0x30 -/
  | nmi
  deriving DecidableEq, Repr

/-- The general exception causes of Table 7-1 (60_exceptions.md R276). A cause whose GBADVA column names
an address carries that address; for every other cause GBADVA is undefined. Reserved codes are never
produced. -/
inductive GeneralCause where
  /-- 0x01 -/
  | preciseBus
  /-- 0x11 -/
  | executeProtection
  /-- 0x14 -/
  | userFetch
  /-- 0x15 -/
  | invalidPacket
  /-- 0x1B -/
  | privilege
  /-- 0x1C -/
  | misalignedPc
  /-- 0x20 -/
  | misalignedLoad (va : Word)
  /-- 0x21 -/
  | misalignedStore (va : Word)
  /-- 0x22 -/
  | loadProtection (va : Word)
  /-- 0x23 -/
  | storeProtection (va : Word)
  /-- 0x24 -/
  | loadUser (va : Word)
  /-- 0x25 -/
  | storeUser (va : Word)
  /-- 0x28 -/
  | cacheConflict
  /-- 0x29 -/
  | registerCollision
  deriving DecidableEq, Repr

/-- An event (60_exceptions.md R270, R271). -/
inductive Event where
  | machineCheck (c : McCause)
  | general (c : GeneralCause)
  | trap0 (imm : BitVec 8)
  | interrupt (n : Nat)
  deriving DecidableEq, Repr

/-- An action of the environment between packets (60_exceptions.md R280), or its choice of the processor
that executes the next packet (`run`). A processor is named by its VPID. An action that is not enabled
changes nothing. Log entry 7. -/
inductive Action where
  /-- The processor executes its next packet. -/
  | run (p : Word)
  /-- `Arrive(n)`. -/
  | arrive (n : Nat)
  /-- `Deliver(p, Next_p)`. -/
  | deliver (p : Word)
  /-- `Wake(p)`. -/
  | wake (p : Word)
  /-- `MachineCheck(p, c)`. -/
  | machineCheck (p : Word) (c : McCause)
  /-- `Tick`: the timer (of `p`, when timers are per processor) advances by `d`. -/
  | tick (p : Word) (d : DWord)
  /-- `DropTC(p)`: the `k`-th member of `p`'s `TC` is dropped. -/
  | dropCached (p : Word) (k : Nat)
  /-- `p`'s `TC` gains the result of a walk for `va` (20_memory.md R70). -/
  | fillCached (p : Word) (va : Word)
  /-- A walk for `va` is begun on behalf of `p`: it reads the structures as they are now
  (44_memory_management.md R231). -/
  | beginWalk (p : Word) (va : Word)
  /-- The `k`-th walk begun on behalf of `p` is finished: its result joins `p`'s `TC`. -/
  | finishWalk (p : Word) (k : Nat)
  /-- `StopVM()`. -/
  | stopVM
  /-- `DeviceWrite`: another agent writes a byte of `LM`. -/
  | deviceWrite (la : Word) (b : Byte)
  deriving DecidableEq, Repr

/-- A virtual processor (10_state.md). -/
structure VP where
  /-- `VPID` (R34). -/
  vpid : Word
  /-- `RUN` (R34). -/
  run : RunState
  /-- The general registers (R20; 32 of them, log entry 16). -/
  regs : Vector Word 32
  /-- `pc` (R22). -/
  pc : Word
  /-- G0, GELR (R25). -/
  gelr : Word
  /-- G1, GSR (R24). -/
  gsr : Word
  /-- G2, GOSP (R26). -/
  gosp : Word
  /-- G3, GBADVA (R27). -/
  gbadva : Word
  /-- `GEVB`; `none` is `unconfigured` (R28). -/
  gevb : Option Word
  /-- `UM`: true in User mode (R29). -/
  um : Bool
  /-- `IE` (R30). -/
  ie : Bool
  /-- `MAP` (R31). -/
  map : MapSel
  /-- `TC` (R32). -/
  tc : List Cached
  /-- The results of walks that have been begun and not finished, which may still join `TC`
  (44_memory_management.md R231, log entry 10). -/
  walks : List Cached
  /-- `LEN`: bit `i` is `LEN[i]` (R33). -/
  len : Nat
  /-- `MCH` (R46). -/
  mch : Bool
  /-- Ghost: an event or `vmsetregs` has written the event registers (40_event_management.md R153,
  93_implementation_defined.md U40, log entry 5). -/
  recorded : Bool
  /-- The base architecture's other state, in words: no event and no virtual instruction saves, restores or
  changes it (R43, 60_exceptions.md R288, log entry 14). -/
  other : List Word
  /-- The processor's own timer, in use when `TIMER_SCOPE` is `vp` (R37, log entry 24). -/
  timer : DWord
  deriving DecidableEq, Repr

/-- A virtual machine. `self` is the executing virtual processor "`vp`" of the spec's rules
(00_scope.md R11); when its `run` is `stopped` the seat is empty and it is no member of `VPS`
(log entry 27). -/
structure State where
  /-- The implementation parameters (00_scope.md R7), fixed for a run. -/
  params : Params
  /-- The executing processor. -/
  self : VP
  /-- The other live processors (`VPS`, R39). -/
  others : List VP
  /-- `PENDING`: bit `i` is `PENDING[i]` (R35). -/
  pending : Nat
  /-- `GEN`: bit `i` is `GEN[i]` (R36). -/
  gen : Nat
  /-- `TIMER` (R37). -/
  timer : DWord
  /-- `LM` (R38). -/
  lm : Memory
  /-- What instruction fetches may still see of overwritten bytes (R40, 20_memory.md R94). -/
  stale : List StaleByte
  /-- `VER` (R47). -/
  ver : Word
  /-- The environment's coming actions (the model's own field, log entry 7). -/
  agenda : List Action
  /-- The number of free values read so far (the model's own field, log entry 6). -/
  free : Nat
  deriving DecidableEq, Repr

/-- Why a run stops without a next state: the named stuck states. -/
inductive Fault where
  /-- Raised by `step`: no virtual processor is left, "no further step of any kind"
  (45_processor_management.md R245). Safe: the spec has no step either. -/
  | terminated
  /-- Raised by `step`: every live processor waits and nothing can wake one (60_exceptions.md R307), and
  the agenda is empty. Safe: the spec has no step either. -/
  | stuckWaiting
  deriving DecidableEq, Repr

/-- Why an instruction or a run has no meaning in this spec. -/
inductive Refusal where
  /-- Raised by `exec` for an instruction that has no meaning in the model yet. Safe. -/
  | notModelled (mnemonic : String)
  /-- Raised by a reserved `trap1` number in Guest mode (30_encoding.md R127). Safe. -/
  | reservedTrap1Number (imm : BitVec 8)
  /-- Raised by `vmrte` in Guest mode when neither an event nor `vmsetregs` has written the event registers
  (40_event_management.md R153, 93_implementation_defined.md U40). Safe. -/
  | unwrittenEventRegisters
  /-- Raised by a list walk: "Programming an entry with a reserved pattern results in undefined behavior"
  (20_memory.md R74). Safe. -/
  | reservedPageSize
  /-- Raised by a list walk whose links form a cycle with no match (20_memory.md R72). Safe. -/
  | endlessList
  /-- Raised by an access through an entry with `T = 1` (20_memory.md R88). Safe. -/
  | trustedPage
  /-- Raised by an access through a translation with a reserved cache attribute (20_memory.md R86). Safe. -/
  | reservedCacheAttribute (c : BitVec 4)
  /-- Raised by an access to a logical page that a map in use also gives another virtual page, with another
  cache attribute (20_memory.md R87, 70_reset_and_hazards.md R344). Safe. -/
  | cacheAttributeAliases
  /-- Raised by `step` when the machine conforms to another version (46_environment.md R260). Safe. -/
  | otherVersion (v : Word)
  deriving DecidableEq, Repr

/-- A fault or a refusal met inside an operation. -/
inductive Stop where
  | fault (f : Fault)
  | refused (r : Refusal)
  deriving DecidableEq, Repr

/-- The outcome of a meaning and of a step. -/
abbrev Result := Host.Outcome State Fault Refusal

/-- The first virtual processor as the VMM starts it (10_state.md R44, 70_reset_and_hazards.md R330):
`VPID` 0, running, Guest mode, interrupts disabled, `GEVB` unconfigured, the initial map. The registers
that rule R44 leaves undefined, and `LEN`, are 0, and the other base-architecture state is empty (log entries
1, 4, 5, 14). -/
def VP.initial (entry sp : Word) : VP where
  vpid := 0
  run := .running
  regs := (Vector.replicate 32 (0 : Word)).set 29 sp
  pc := entry
  gelr := 0
  gsr := 0
  gosp := 0
  gbadva := 0
  gevb := none
  um := false
  ie := false
  map := .initial
  tc := []
  walks := []
  len := 0
  mch := false
  recorded := false
  other := []
  timer := 0

/-- The state in which the VMM starts a virtual machine with the given parameters, entry point, stack
pointer and program image (10_state.md R44, 70_reset_and_hazards.md R330). -/
def State.initial (params : Params) (entry sp : Word) (image : Memory) : State where
  params := params
  self := VP.initial entry sp
  others := []
  pending := 0
  gen := 0
  timer := 0
  lm := image
  stale := []
  ver := 0x700
  agenda := []
  free := 0

/-- One instance of the implementation parameters, the one spec/95_test_vectors.md part 3 uses where it
names one (log entry 3). -/
def resetParams : Params where
  maxVp := 4
  numInt := 32
  lmRanges := [(0, 0x1000000)]
  mapList := true
  mapTables := true
  validate := false
  newmapErrLow := 0x7FFFFFFF
  mcResume := true
  timerPerVp := false
  otherVersions := []
  segPage := 0
  segPages := 16
  initU := true
  initC := 7
  baseJudges := false

/-- The machine right after reset, with no program image (log entries 2, 3, 13). -/
def State.reset : State := State.initial resetParams 0x1000 0x9000 []

end Sys2Proof.Machine
end

