-- ==== Sys2Proof/Machine/Flags.lean ====
section
/-! DEFINITION. Machine/Flags.lean: the status bits. HVM has no condition codes (10_state.md R42); its two
status bits, `UM` and `IE`, are seen through GSR (R24), `vmgetie` and `vmsetie`. -/

namespace Sys2Proof.Machine

/-- A one-bit status as a register value, exactly 0 or 1 (41_interrupt_management.md R182). -/
def bitWord (b : Bool) : Word := (BitVec.ofBool b).setWidth 32

/-- GSR as event entry writes it (10_state.md R24, 60_exceptions.md R284): UM in bit 31, IE in bit 30, bits
29:16 zero, the cause in bits 15:0. -/
def gsrImage (um ie : Bool) (cause : BitVec 16) : Word :=
  BitVec.ofBool um ++ BitVec.ofBool ie ++ 0#14 ++ cause

/-- `GSR.UM`, bit 31 (10_state.md R24). -/
def gsrUm (gsr : Word) : Bool := gsr.getLsbD 31

/-- `GSR.IE`, bit 30 (10_state.md R24). -/
def gsrIe (gsr : Word) : Bool := gsr.getLsbD 30

/-- `GSR.Cause`, bits 15:0 (10_state.md R24). -/
def gsrCause (gsr : Word) : BitVec 16 := gsr.extractLsb' 0 16

/-- The `vmintop` STATUS word (41_interrupt_management.md R178): bit 0 pending, bit 1 local enable, bit 2
global enable, bits 31:3 zero. -/
def statusWord (pending len gen : Bool) : Word :=
  0#29 ++ BitVec.ofBool gen ++ BitVec.ofBool len ++ BitVec.ofBool pending

end Sys2Proof.Machine
end

