-- ==== Sys2Proof/Machine/Ops.lean ====
section
/-! DEFINITION. Machine/Ops.lean: the named operations over parameters, memory, registers, processors and
free values that every meaning is built from, and event entry and return
(60_exceptions.md R284, 40_event_management.md R153). -/

namespace Sys2Proof.Machine

/-! ### Implementation parameters (00_scope.md R7) -/

/-- `VERSIONS`, which contains `0x0000_0700`. -/
def versions (p : Params) : List Word := 0x700 :: p.otherVersions

/-- `NEWMAP_ERR`, whose bit 31 is 1. -/
def newmapErr (p : Params) : Word := 1#1 ++ p.newmapErrLow

/-- `LM_OK(la)`: the logical address is accessible to this virtual machine. -/
def lmOk (p : Params) (la : Nat) : Bool :=
  p.lmRanges.any fun r => r.1 ≤ la && la < r.1 + r.2

/-- Every byte of the `n` bytes at `la` is accessible. -/
def lmOkRange (p : Params) (la : Word) (n : Nat) : Bool :=
  (List.range n).all fun k => lmOk p (la + BitVec.ofNat 32 k).toNat

/-! ### Logical memory (20_memory.md R62, R63) -/

/-- The byte that was stored at a logical address; `none`: it still has its initial content. -/
def memGet (m : Memory) (a : Nat) : Option Byte :=
  match m with
  | [] => none
  | (b, v) :: rest => if a = b then some v else memGet rest a

/-- The value of a byte content: an initial content is the free value of its address (10_state.md R44, log
entry 8). -/
def byteValue (a : Nat) (o : Option Byte) : Byte := o.getD (Config.initialByte a)

/-- The byte at an accessible logical address (20_memory.md R62). -/
def readByte (m : Memory) (a : Nat) : Byte := byteValue a (memGet m a)

/-- Store a byte at a logical address, keeping the addresses rising. -/
def memSet (m : Memory) (a : Nat) (v : Byte) : Memory :=
  match m with
  | [] => [(a, v)]
  | (b, u) :: rest =>
    if a < b then (a, v) :: (b, u) :: rest
    else if a = b then (a, v) :: rest
    else (b, u) :: memSet rest a v

/-- Give a logical address a content: a byte, or its initial content back. -/
def memPut (m : Memory) (a : Nat) (o : Option Byte) : Memory :=
  match o with
  | some v => memSet m a v
  | none => m.filter fun c => c.1 != a

/-- A quantity from its bytes, the byte at the lowest address first: little-endian
(20_memory.md R63). -/
def leNat : List Byte → Nat
  | [] => 0
  | b :: rest => b.toNat + 256 * leNat rest

/-- The `n` low bytes of a quantity, the lowest first (20_memory.md R63). -/
def leBytes (n : Nat) (v : Nat) : List Byte :=
  (List.range n).map fun k => BitVec.ofNat 8 (v >>> (8 * k))

/-- The addresses of the `n` bytes at `la` (arithmetic modulo 2^32, 00_scope.md R10). -/
def lmAddrs (la : Word) (n : Nat) : List Nat :=
  (List.range n).map fun k => (la + BitVec.ofNat 32 k).toNat

/-- The result of reading logical memory. -/
inductive LmRead where
  /-- The bytes, lowest address first. -/
  | bytes (bs : List Byte)
  /-- A byte is not accessible to this virtual machine (20_memory.md R62, R85). -/
  | inaccessible
  deriving DecidableEq, Repr

/-- `LMRead(la, n)` (20_memory.md R62). -/
def lmRead (p : Params) (m : Memory) (la : Word) (n : Nat) : LmRead :=
  if lmOkRange p la n then .bytes ((lmAddrs la n).map (readByte m)) else .inaccessible

/-- One byte of a store: the byte is written, and the content it had may still be returned by instruction
fetches of every processor until it is superseded (20_memory.md R94). -/
def writeByte (a : Nat) (b : Byte) (s : State) : State :=
  if memGet s.lm a = some b then s
  else
    { s with
      lm := memSet s.lm a b
      stale := { la := a, old := memGet s.lm a, cleaned := false, synced := [] } :: s.stale }

/-- Store bytes at consecutive addresses given as a list. -/
def writeBytes : List (Nat × Byte) → State → State
  | [], s => s
  | (a, b) :: rest, s => writeBytes rest (writeByte a b s)

/-- `LMWrite(la, n, v)` (20_memory.md R62). -/
def lmWrite (la : Word) (n : Nat) (v : Nat) (s : State) : State :=
  writeBytes ((lmAddrs la n).zip (leBytes n v)) s

/-! ### Interrupt bits (10_state.md R33, R35, R36) -/

/-- Bit `i` of an interrupt bit vector. -/
def hasBit (m i : Nat) : Bool := m.testBit i

/-- The bit vector with bit `i` set to `b`. -/
def putBit (m i : Nat) (b : Bool) : Nat := if m.testBit i = b then m else m ^^^ 2 ^ i

/-! ### Free values (93_implementation_defined.md section 1; log entry 6) -/

/-- Read a fresh `undef` word. -/
def freshWord (s : State) : Word × State :=
  (Config.undefWord s.free, { s with free := s.free + 1 })

/-- `draw(S)` for the set of the list's members; the only member of a one-element set needs no choice.
`dflt` is returned for the empty list only. -/
def drawFrom {α : Type} (dflt : α) (l : List α) (s : State) : α × State :=
  match l with
  | [] => (dflt, s)
  | [a] => (a, s)
  | a :: b :: rest =>
    ((a :: b :: rest).getD (Config.draw s.free % (rest.length + 2)) a, { s with free := s.free + 1 })

/-- `FAIL` (41_interrupt_management.md R184): some non-zero 32-bit value. -/
def drawFail (s : State) : Word × State :=
  (BitVec.ofNat 32 (1 + Config.draw s.free % (2 ^ 32 - 1)), { s with free := s.free + 1 })

/-! ### The executing processor (00_scope.md R11) -/

/-- `R[i]` of the executing processor. -/
def getReg (i : Fin 32) (s : State) : Word := s.self.regs[i]

/-- `R[i] <- v` for the executing processor. -/
def setReg (i : Fin 32) (v : Word) (s : State) : State :=
  { s with self := { s.self with regs := s.self.regs.set i v } }

/-- `pc <- t`. -/
def setPc (t : Word) (s : State) : State := { s with self := { s.self with pc := t } }

/-- `next_pc` of a virtual instruction (30_encoding.md R124). -/
def nextPc (s : State) : Word := s.self.pc + 4

/-- `pc <- pc + 4`: a virtual instruction completes (10_state.md R22). -/
def advance (s : State) : State := setPc (nextPc s) s

/-- A completed virtual instruction. -/
def done (s : State) : Result := .next (advance s)

/-! ### Virtual processors (10_state.md R34, R39) -/

/-- `VPS`: the live virtual processors. -/
def live (s : State) : List VP :=
  if s.self.run = .stopped then s.others else s.self :: s.others

/-- Apply an update to every processor of the virtual machine. -/
def mapLive (f : VP → VP) (s : State) : State :=
  { s with self := f s.self, others := s.others.map f }

/-- The executing processor counts among those with identifier `p`. -/
def selfIs (p : Word) (s : State) : Bool := s.self.run != .stopped && s.self.vpid == p

/-- Some live processor has identifier `p`. -/
def liveVpid (p : Word) (s : State) : Bool := (live s).any fun v => v.vpid == p

/-- Put the live processor with identifier `p` into the seat. -/
def focus (p : Word) (s : State) : Option State :=
  if selfIs p s then some s
  else
    match s.others.find? (fun v => v.vpid == p) with
    | none => none
    | some v =>
      let rest := s.others.filter fun q => q.vpid != p
      some { s with self := v, others := if s.self.run = .stopped then rest else s.self :: rest }

/-- Apply an update to the live processor with identifier `p`, if there is one. -/
def onVP (p : Word) (f : VP → VP) (s : State) : State :=
  if selfIs p s then { s with self := f s.self }
  else { s with others := s.others.map fun v => if v.vpid == p then f v else v }

/-- `StopVP()` (45_processor_management.md R245): the executing processor leaves `VPS`; its identifier
becomes free and what its fetches had synchronised is forgotten. -/
def stopVP (s : State) : State :=
  { s with
    self := { s.self with run := .stopped }
    stale := s.stale.map fun e => { e with synced := e.synced.filter (· != s.self.vpid) } }

/-- `StopVM()` (60_exceptions.md R280): every processor stops. -/
def stopVM (s : State) : State :=
  { s with self := { s.self with run := .stopped }, others := [] }

/-! ### Interrupts (41_interrupt_management.md R184) -/

/-- `ValidInt(i)`. -/
def validInt (s : State) (i : Nat) : Bool := i < s.params.numInt

/-- `Eligible(i)` for a processor with local enables `len`: the interrupt is valid, pending, globally and
locally enabled. -/
def eligible (s : State) (len i : Nat) : Bool :=
  validInt s i && hasBit s.pending i && hasBit s.gen i && hasBit len i

/-- The set `{ i | Eligible(i) }` in rising order. -/
def eligibles (s : State) (len : Nat) : List Nat :=
  (List.range s.params.numInt).filter (eligible s len)

/-- `Next()`: the least eligible number. -/
def nextInt (s : State) (len : Nat) : Option Nat :=
  (List.range s.params.numInt).find? (eligible s len)

/-- Taking interrupt `n` from the controller: "cleared from the pending register and automatically
disabled globally" (60_exceptions.md R281). -/
def takeInterrupt (n : Nat) (s : State) : State :=
  { s with pending := putBit s.pending n false, gen := putBit s.gen n false }

/-! ### Events (60_exceptions.md) -/

/-- The event number of Table 5-3 (R270). -/
def eventNumber : Event → Nat
  | .machineCheck _ => 1
  | .general _ => 2
  | .trap0 _ => 5
  | .interrupt _ => 7

/-- The codes of Table 7-2 (R279). -/
def mcCode : McCause → BitVec 16
  | .shutdown => 0x00
  | .badGuestSp => 0x01
  | .badMapping => 0x03
  | .dataAbort => 0x20
  | .nmi => 0x30

/-- The codes of Table 7-1 (R276). -/
def generalCode : GeneralCause → BitVec 16
  | .preciseBus => 0x01
  | .executeProtection => 0x11
  | .userFetch => 0x14
  | .invalidPacket => 0x15
  | .privilege => 0x1B
  | .misalignedPc => 0x1C
  | .misalignedLoad _ => 0x20
  | .misalignedStore _ => 0x21
  | .loadProtection _ => 0x22
  | .storeProtection _ => 0x23
  | .loadUser _ => 0x24
  | .storeUser _ => 0x25
  | .cacheConflict => 0x28
  | .registerCollision => 0x29

/-- `GSR.Cause` of an event (R276, R278, R279, R281). -/
def eventCause : Event → BitVec 16
  | .machineCheck c => mcCode c
  | .general c => generalCode c
  | .trap0 imm => imm.setWidth 16
  | .interrupt n => BitVec.ofNat 16 n

/-- GBADVA of an event: the data address for causes 0x20 to 0x25 of event 2, else undefined (`none`)
(10_state.md R27, Table 7-1). -/
def eventBadva : Event → Option Word
  | .general (.misalignedLoad va) => some va
  | .general (.misalignedStore va) => some va
  | .general (.loadProtection va) => some va
  | .general (.storeProtection va) => some va
  | .general (.loadUser va) => some va
  | .general (.storeUser va) => some va
  | _ => none

/-- The event is a machine check (event 1). -/
def isMachineCheck : Event → Bool
  | .machineCheck _ => true
  | .general _ => false
  | .trap0 _ => false
  | .interrupt _ => false

/-- `VectorAddress(evno)` (R272). -/
def vectorAddress (gevb : Word) (evno : Nat) : Word := gevb + BitVec.ofNat 32 (4 * evno)

/-- The swap of GOSP and R29 (10_state.md R26). -/
def swapSp (v : VP) : VP := { v with regs := v.regs.set 29 v.gosp, gosp := v.regs[29] }

/-- The registers' part of the entry sequence (R284) on a processor whose `GEVB` is `gevb`. -/
def enterEvent (e : Event) (elr gevb badva : Word) (v : VP) : VP :=
  let w := if v.um then swapSp v else v
  { w with
    gelr := elr
    gsr := gsrImage v.um v.ie (eventCause e)
    gbadva := badva
    ie := false
    um := false
    mch := v.mch || isMachineCheck e
    recorded := true
    pc := vectorAddress gevb (eventNumber e) }

/-- `TakeEvent` on the executing processor (R284): the one operation that takes an exception, a trap, a
machine check or an interrupt. With `GEVB` unconfigured the processor, or for a machine check the whole
virtual machine, stops (R286). -/
def takeEvent (e : Event) (elr : Word) (s : State) : State :=
  match s.self.gevb with
  | none => if isMachineCheck e then stopVM s else stopVP s
  | some gevb =>
    match eventBadva e with
    | some va => { s with self := enterEvent e elr gevb va s.self }
    | none =>
      let (bad, s1) := freshWord s
      { s1 with self := enterEvent e elr gevb bad s1.self }

/-- `raise` of an event of the packet at `pc`, other than `trap0`: GELR is the packet's address (R285). -/
def raiseHere (e : Event) (s : State) : State := takeEvent e s.self.pc s

/-- The registers' part of `vmrte` (40_event_management.md R153). -/
def leaveEvent (v : VP) : VP :=
  let w := if gsrUm v.gsr then swapSp v else v
  { w with ie := gsrIe v.gsr, um := gsrUm v.gsr, pc := v.gelr }

/-- Return from an event on the executing processor (40_event_management.md R153, 60_exceptions.md R289). -/
def returnFromEvent (s : State) : State :=
  { s with self := leaveEvent s.self }

/-- `RequireGuest()` before the body of a virtual instruction (60_exceptions.md R300): in User mode the
privilege violation exception is taken and nothing else happens. -/
def requireGuest (s : State) (body : State → Result) : Result :=
  if s.self.um then .next (raiseHere (.general .privilege) s) else body s

/-- A fault or refusal as an outcome. -/
def Stop.result : Stop → Result
  | .fault f => .fault f
  | .refused r => .refused r

end Sys2Proof.Machine
end

