-- ==== Sys2Proof/Machine/Operands.lean ====
section
/-! DEFINITION. Machine/Operands.lean: the operand forms. Virtual instructions take their operands from
R0-R3 (30_encoding.md R132, 10_state.md R21): operation codes in R0 and byte ranges in two registers. -/

namespace Sys2Proof.Machine

/-- -1 as a register value (00_scope.md R9). -/
def minusOne : Word := 0xFFFFFFFF

/-- The operations of `vmintop` (41_interrupt_management.md R170, R181). -/
inductive IntOp where
  | nop
  | globen
  | globdis
  | locen
  | locdis
  | affinity
  | get
  | peek
  | status
  | post
  | clear
  | other
  deriving DecidableEq, Repr

/-- The `vmintop` operation that R0 names (41_interrupt_management.md R170). -/
def intOpOf (r0 : Word) : IntOp :=
  match r0.toNat with
  | 0 => .nop
  | 1 => .globen
  | 2 => .globdis
  | 3 => .locen
  | 4 => .locdis
  | 5 => .affinity
  | 6 => .get
  | 7 => .peek
  | 8 => .status
  | 9 => .post
  | 10 => .clear
  | _ => .other

/-- The operations of `vmcache` (43_cache_control.md R220, R227). -/
inductive CacheOp where
  | ickill
  | dckill
  | l2kill
  | dccleaninva
  | icinva
  | idsync
  | reserved
  deriving DecidableEq, Repr

/-- The `vmcache` operation that R0 names (43_cache_control.md R220). -/
def cacheOpOf (r0 : Word) : CacheOp :=
  match r0.toNat with
  | 0 => .ickill
  | 1 => .dckill
  | 2 => .l2kill
  | 3 => .dccleaninva
  | 4 => .icinva
  | 5 => .idsync
  | _ => .reserved

/-- Page size in bytes: `PageBytes(s) = 4096 << (2*s)` (20_memory.md R74). -/
def pageBytes (z : SizeCode) : Nat := 2 ^ (12 + 2 * z.val)

/-- The first address of the page of size `z` that `a` lies in: bits `31 : 12+2z` of `a`, low bits dropped
(20_memory.md R71, R82). -/
def pageBase (z : SizeCode) (a : Word) : Word := (a >>> (12 + 2 * z.val)) <<< (12 + 2 * z.val)

/-- The offset of `a` in its page of size `z`: `a[11+2z : 0]` (20_memory.md R82). -/
def pageOffset (z : SizeCode) (a : Word) : Word := BitVec.ofNat 32 (a.toNat % pageBytes z)

/-- Some byte of the range of `n` bytes at `a` (modulo 2^32) lies in the page of size `z` at `page`
(44_memory_management.md R231). -/
def rangeMeetsPage (a : Word) (n : Nat) (page : Word) (z : SizeCode) : Bool :=
  let d := (a - page).toNat
  n != 0 && (d < pageBytes z || 2 ^ 32 - d < n)

/-- A part of a byte range that lies in one 4 KB page. -/
structure Chunk where
  va : Word
  len : Nat
  deriving DecidableEq, Repr

/-- Cut the range of `n` bytes at `a` (modulo 2^32) at 4 KB page boundaries; `fuel` bounds the number of
pieces. Permissions are uniform in a 4 KB page, the smallest page (20_memory.md R66, R74). -/
def cutRange : Nat → Word → Nat → List Chunk
  | 0, _, _ => []
  | fuel + 1, a, n =>
    if n = 0 then []
    else
      let k := min n (4096 - a.toNat % 4096)
      { va := a, len := k } :: cutRange fuel (a + BitVec.ofNat 32 k) (n - k)

/-- The pieces of the range of a `vmcache` operation: `R[2]` bytes at `R[1]` (43_cache_control.md R228). -/
def rangeChunks (a : Word) (n : Nat) : List Chunk := cutRange (n / 4096 + 2) a n

/-- The number of bytes of an access (20_memory.md R65). -/
def accessBytes : AccessSize → Nat
  | .b1 => 1
  | .b2 => 2
  | .b4 => 4
  | .b8 => 8

end Sys2Proof.Machine
end

