-- ==== Sys2Proof/Machine/Mmu.lean ====
section
/-! DEFINITION. Machine/Mmu.lean: the virtual MMU and the access primitives Translate, Lookup, ListWalk,
TableWalk, MemRead, MemWrite and Fetch (20_memory.md). -/

namespace Sys2Proof.Machine

/-- The kinds of access of `Translate` (20_memory.md R69). -/
inductive AccessKind where
  | load
  | store
  | fetch
  deriving DecidableEq, Repr

/-- The virtual address lies in the top 16 MB, which the VMM reserves (20_memory.md R61). -/
def reservedVa (va : Word) : Bool := 0xFF000000 ≤ va.toNat

/-- The result of a walk of the translation structures: an answer, an entry at an inaccessible logical
address (20_memory.md R85), or no meaning. -/
inductive Walk where
  | answer (l : Lookup)
  | badLogical
  | stop (st : Stop)
  deriving DecidableEq, Repr

/-- The result of an access: a value, an event the packet raises, or a stop. The state carried is the one
before the access but for the free values read and, in `TC`, what was cached. -/
inductive Access (α : Type) where
  | ok (a : α) (s : State)
  | raise (e : Event) (s : State)
  | stop (st : Stop)

/-- `ProtCode(acc)` with `BadVA(acc, va)` (20_memory.md R69). -/
def protCause (acc : AccessKind) (va : Word) : GeneralCause :=
  match acc with
  | .load => .loadProtection va
  | .store => .storeProtection va
  | .fetch => .executeProtection

/-- `UserCode(acc)` with `BadVA(acc, va)` (20_memory.md R69). -/
def userCause (acc : AccessKind) (va : Word) : GeneralCause :=
  match acc with
  | .load => .loadUser va
  | .store => .storeUser va
  | .fetch => .userFetch

/-! ### Formats (20_memory.md 6.1, 6.2) -/

/-- The page size a 3-bit size code names; `none` for `111` (R74). -/
def sizeCode (z : BitVec 3) : Option SizeCode :=
  if h : z.toNat < 7 then some ⟨z.toNat, h⟩ else none

/-- The fields of a translation list entry (R73): Size 54:52. -/
def listSize (e : DWord) : Option SizeCode := sizeCode (e.extractLsb' 52 3)

/-- The virtual page of a list entry, bits 51:32, as an address (R73). -/
def listVirtual (e : DWord) : Word := e.extractLsb' 32 20 ++ 0#12

/-- The translation a list entry of size `z` gives (R72, R73): X 31, W 30, R 29, U 28, C 27:24, Logical
Page 19:0. -/
def listXlat (z : SizeCode) (e : DWord) : Xlat where
  size := z
  page := pageBase z (e.extractLsb' 0 20 ++ 0#12)
  x := e.getLsbD 31
  w := e.getLsbD 30
  r := e.getLsbD 29
  u := e.getLsbD 28
  c := e.extractLsb' 24 4
  t := false

/-- `Term(e, s, la)` (R77, R81): X 11, W 10, R 9, C 8:6, U 5, T 4, the logical page in the bits the size
needs (R82). -/
def termXlat (z : SizeCode) (e : Word) : Xlat where
  size := z
  page := pageBase z e
  x := e.getLsbD 11
  w := e.getLsbD 10
  r := e.getLsbD 9
  u := e.getLsbD 5
  c := (e.extractLsb' 6 3).setWidth 4
  t := e.getLsbD 4

/-- "If none of the R, W, or X bits are set, the virtual map is considered invalid" (R84). -/
def xlatValid (t : Xlat) : Bool := t.r || t.w || t.x

/-- The logical address a translation sends `va` to (R71, R82). -/
def xlatAddr (t : Xlat) (va : Word) : Word := t.page ||| pageOffset t.size va

/-- A reserved cache attribute: 2, 3 and 8 to 15 (R86). -/
def reservedC (c : BitVec 4) : Bool := c == 2 || c == 3 || 8 ≤ c.toNat

/-! ### Walks -/

/-- The list entry at a logical address (R72); `none` where it is inaccessible (R85). -/
def readEntry (p : Params) (m : Memory) (ptr : Word) : Option DWord :=
  match lmRead p m ptr 8 with
  | .bytes bs => some (BitVec.ofNat 64 (leNat bs))
  | .inaccessible => none

/-- The table entry at a logical address (R77); `none` where it is inaccessible (R85). -/
def readWord (p : Params) (m : Memory) (la : Word) : Option Word :=
  match lmRead p m la 4 with
  | .bytes bs => some (BitVec.ofNat 32 (leNat bs))
  | .inaccessible => none

/-- The kinds of list entry (R72, R73, R75). -/
inductive ListEntry where
  /-- All bits zero. -/
  | terminator
  /-- Bit 63 set: the next entry is at `next`, bits 31:0. -/
  | link (next : Word)
  /-- The reserved size code `111`. -/
  | reserved
  /-- A translation of a page of size `z`. -/
  | page (z : SizeCode)
  deriving DecidableEq, Repr

/-- The kind of an entry (R72). -/
def listEntry (e : DWord) : ListEntry :=
  if e = 0 then .terminator
  else if e.getLsbD 63 then .link (e.extractLsb' 0 32)
  else
    match listSize e with
    | none => .reserved
    | some z => .page z

/-- Why a list goes no further. -/
inductive ListEnd where
  | terminator
  /-- The next entry is at an inaccessible logical address (R85). -/
  | badLogical
  /-- The next entry has the reserved size code (R74). -/
  | reservedSize
  /-- The next entry is one that was examined before: without a match the walk has no end (R72). -/
  | endless
  deriving DecidableEq, Repr

/-- The translation entries of a list in the order in which a walk examines them, and what ends it. -/
inductive Chain where
  | ends (how : ListEnd)
  | entry (z : SizeCode) (e : DWord) (rest : Chain)
  deriving DecidableEq, Repr

/-- The list from the entry at `ptr` on (R72, R75); `seen` are the entries examined before it. There are 2^32
addresses, so `fuel` above that number never runs out. The spec does not say what follows an entry with the
reserved size code: that the list ends there, whatever lies behind it, is the model's choice (DESIGN CHOICE, log
entry 32). -/
def listChain (p : Params) (m : Memory) : Nat → List Word → Word → Chain
  | 0, _, _ => .ends .endless
  | fuel + 1, seen, ptr =>
    if ptr ∈ seen then .ends .endless
    else
      match readEntry p m ptr with
      | none => .ends .badLogical
      | some e =>
        match listEntry e with
        | .terminator => .ends .terminator
        | .link next => listChain p m fuel (ptr :: seen) next
        | .reserved => .ends .reservedSize
        | .page z => .entry z e (listChain p m fuel (ptr :: seen) (ptr + 8))

/-- The list whose first entry is at `base`. -/
def mapList (p : Params) (m : Memory) (base : Word) : Chain := listChain p m (2 ^ 32 + 1) [] base

/-- What a walk that matches no entry finds at the end of the list. -/
def endWalk : ListEnd → Walk
  | .terminator => .answer .noTranslation
  | .badLogical => .badLogical
  | .reservedSize => .stop (.refused .reservedPageSize)
  | .endless => .stop (.refused .endlessList)

/-- `ListWalk` (R72): the first entry that matches gives the translation. -/
def chainWalk (va : Word) : Chain → Walk
  | .ends how => endWalk how
  | .entry z e rest =>
    if pageBase z va = pageBase z (listVirtual e) then .answer (.hit (listXlat z e))
    else chainWalk va rest

/-- What ends a list. -/
def chainEnd : Chain → ListEnd
  | .ends how => how
  | .entry _ _ rest => chainEnd rest

/-- The second level of `TableWalk` (R77, R78): the directory entry `e1` has size code `z`; the L2 table is
at the entry's bits `31 : 12-2z` and the index is `va[21 : 12+2z]`. -/
def tableWalk2 (p : Params) (m : Memory) (e1 : Word) (z : SizeCode) (va : Word) : Walk :=
  let t2 : Word := (e1 >>> (12 - 2 * z.val)) <<< (12 - 2 * z.val)
  let i2 := va.toNat % 2 ^ 22 / pageBytes z
  match readWord p m (t2 + BitVec.ofNat 32 (4 * i2)) with
  | none => .badLogical
  | some e2 => .answer (.hit (termXlat z e2))

/-- The L1 entry for `va` is at `base + 4*va[31:22]` (R77). -/
def tableEntry (p : Params) (m : Memory) (base va : Word) : Option Word :=
  readWord p m (base + BitVec.ofNat 32 (4 * (va.toNat / 2 ^ 22)))

/-- `TableWalk(base, va)` (R77): the S field of the L1 entry says whether it is a directory entry (0 to 4), a
terminal entry (5, 6) or invalid (7). -/
def tableWalk (p : Params) (m : Memory) (base va : Word) : Walk :=
  match tableEntry p m base va with
  | none => .badLogical
  | some e1 =>
    match sizeCode (e1.extractLsb' 0 3) with
    | none => .answer .invalid
    | some z =>
      if 5 ≤ z.val then .answer (.hit (termXlat z e1)) else tableWalk2 p m e1 z va

/-- The initial map (R68): the loaded segment maps 1:1 with R, W and X granted; `U` and `C` are the
VMM's. R68 does not state its page size and gives no choice: that every translation of it is of a 4 KB page is
the model's choice (DESIGN CHOICE, log entry 35). -/
def initialWalk (p : Params) (va : Word) : Walk :=
  if p.segPage ≤ va.toNat / 4096 && va.toNat / 4096 < p.segPage + p.segPages then
    .answer (.hit
      { size := 0, page := pageBase 0 va, x := true, w := true, r := true, u := p.initU,
        c := p.initC, t := false })
  else .answer .noTranslation

/-- `Walk(MAP, va)` (R70). R64 and R93 leave open whether a walk reads a list entry or a page table entry
indivisibly: that it reads each entry, and all its entries, at one instant between packets is the model's choice
(DESIGN CHOICE, log entry 10). -/
def walk (p : Params) (m : Memory) (map : MapSel) (va : Word) : Walk :=
  match map with
  | .initial => initialWalk p va
  | .linear base => chainWalk va (mapList p m base)
  | .tables base => tableWalk p m base va

/-! ### The translations of a whole map -/

/-- The walk found a translation of a virtual page for which `q` holds. -/
def hitMeets (q : Word → Xlat → Bool) (va : Word) : Walk → Bool
  | .answer (.hit t) => q (pageBase t.size va) t
  | .answer .noTranslation => false
  | .answer .invalid => false
  | .badLogical => false
  | .stop _ => false

/-- One address in each page of the initial map, below the reserved range. -/
def initialSamples (p : Params) : List Word :=
  ((List.range p.segPages).map fun i => p.segPage + i).filter (· < 0xFF000) |>.map fun k =>
    BitVec.ofNat 32 (4096 * k)

/-- One address for each entry that a walk of a page table for an address below the reserved range can
reach: R77's 1020 L1 entries, and the L2 entries of each directory entry. -/
def tableSamples (p : Params) (m : Memory) (base : Word) : List Word :=
  (List.range 1020).flatMap fun i =>
    let va : Word := BitVec.ofNat 32 (i * 2 ^ 22)
    match (tableEntry p m base va).bind fun e1 => sizeCode (e1.extractLsb' 0 3) with
    | none => [va]
    | some z =>
      if 5 ≤ z.val then [va]
      else (List.range (2 ^ (10 - 2 * z.val))).map fun j => va + BitVec.ofNat 32 (j * pageBytes z)

/-- An entry of the list `whole` from `c` on gives some address below the reserved range a translation for
which `q` holds: the entry's page has a 4 KB piece that no earlier entry matches. -/
def chainYields (whole : Chain) (q : Word → Xlat → Bool) : Chain → Bool
  | .ends _ => false
  | .entry z e rest =>
    let vp := pageBase z (listVirtual e)
    let t := listXlat z e
    (q vp t && (List.range (2 ^ (2 * z.val))).any fun k =>
        let va := vp + BitVec.ofNat 32 (4096 * k)
        !reservedVa va && chainWalk va whole == .answer (.hit t)) ||
      chainYields whole q rest

/-- By the map, some virtual address below the reserved range has a translation `t` of the virtual page `vp`
with `q vp t`. -/
def mapYields (p : Params) (m : Memory) (map : MapSel) (q : Word → Xlat → Bool) : Bool :=
  match map with
  | .initial => (initialSamples p).any fun va => hitMeets q va (initialWalk p va)
  | .linear base => chainYields (mapList p m base) q (mapList p m base)
  | .tables base => (tableSamples p m base).any fun va => hitMeets q va (tableWalk p m base va)

/-! ### Lookup and Translate -/

/-- The member of `TC` made by a walk for `va` (R70): a translation covers its page, a negative result the
4 KB page of `va`. -/
def cachedOf (va : Word) (l : Lookup) : Cached :=
  match l with
  | .hit t => { vpage := pageBase t.size va, size := t.size, answer := l }
  | .noTranslation => { vpage := pageBase 0 va, size := 0, answer := l }
  | .invalid => { vpage := pageBase 0 va, size := 0, answer := l }

/-- A member of `TC` covers `va` (R70). -/
def covers (va : Word) (c : Cached) : Bool := pageBase c.size va == c.vpage

/-- `Lookup(va)` for the executing processor (R70): a fresh walk or a cached copy, at the environment's
choice where they differ. -/
def lookup (va : Word) (s : State) : Walk × State :=
  let fresh := walk s.params s.lm s.self.map va
  let copies := (s.self.tc.filter (covers va)).map fun c => Walk.answer c.answer
  drawFrom fresh (fresh :: copies).dedup s

/-- Keep a translation result in `TC` (R70). -/
def keepCached (c : Cached) (v : VP) : VP := { v with tc := if c ∈ v.tc then v.tc else c :: v.tc }

/-- `BadLogical(va, acc)` (R85): a machine check 0x03 or the protection violation of the access kind. -/
def badLogical (acc : AccessKind) (va : Word) (s : State) : Event × State :=
  drawFrom (.machineCheck .badMapping)
    [.machineCheck .badMapping, .general (protCause acc va)] s

/-- Two translations send their virtual pages to a common logical page (R87). -/
def sameLogicalPage (a b : Xlat) : Bool :=
  let z := max a.size b.size
  pageBase z a.page == pageBase z b.page

/-- What a translation adds to the addresses of its page. -/
def xlatShift (va : Word) (t : Xlat) : Word := t.page - pageBase t.size va

/-- Translation `t` of the page of `va` and translation `t'` of the page of `va'` are two virtual aliases of one
logical page with different cache attributes (R87). By one map (`sameMap`), two translations that send the
same virtual addresses there are one virtual page. -/
def aliases (va : Word) (t : Xlat) (sameMap : Bool) (va' : Word) (t' : Xlat) : Bool :=
  t'.c != t.c && xlatValid t' && sameLogicalPage t t' &&
    !(sameMap && xlatShift va' t' == xlatShift va t)

/-- A member of `TC` is such an alias. -/
def cachedAliases (va : Word) (t : Xlat) (sameMap : Bool) (c : Cached) : Bool :=
  match c.answer with
  | .hit t' => aliases va t sameMap c.vpage t'
  | .noTranslation => false
  | .invalid => false

/-- The logical page that `t` gives `va` has, in the map or among the cached translations of some live
processor, a virtual alias with another cache attribute (R87, 70_reset_and_hazards.md R344). A cached
translation of an address in the reserved range, which no access ever looks up, counts as well (DESIGN CHOICE,
log entry 21). -/
def aliasConflict (va : Word) (t : Xlat) (s : State) : Bool :=
  (live s).any fun v =>
    let sameMap := v.map == s.self.map
    mapYields s.params s.lm v.map (aliases va t sameMap) || v.tc.any (cachedAliases va t sameMap)

/-- Why an access through a valid translation that grants it has no meaning: a reserved cache attribute
(R86), or aliases with different attributes (R87). -/
def xlatRefusal (va : Word) (t : Xlat) (s : State) : Option Refusal :=
  if reservedC t.c then some (.reservedCacheAttribute t.c)
  else if aliasConflict va t s then some .cacheAttributeAliases
  else none

/-- The permission an access kind needs (R83). -/
def permitted (acc : AccessKind) (t : Xlat) : Bool :=
  match acc with
  | .load => t.r
  | .store => t.w
  | .fetch => t.x

/-- What `Translate` returns (R69). -/
structure Located where
  la : Word
  c : BitVec 4
  deriving DecidableEq, Repr

/-- Steps 3 to 7 of `Translate` (R69) for an access of `n` bytes, on the answer of `Lookup`. An entry with
`T = 1`, a reserved `C` and conflicting aliases have no meaning (R86, R87, R88). -/
def checkAccess (acc : AccessKind) (va : Word) (n : Nat) (l : Lookup) (s : State) : Access Located :=
  match l with
  | .noTranslation => .raise (.general (protCause acc va)) s
  | .invalid => .raise (.general (protCause acc va)) s
  | .hit t =>
    if !xlatValid t then .raise (.general (protCause acc va)) s
    else if t.t then .stop (.refused .trustedPage)
    else if !permitted acc t then .raise (.general (protCause acc va)) s
    else if s.self.um && !t.u then .raise (.general (userCause acc va)) s
    else if !lmOkRange s.params (xlatAddr t va) n then
      let (e, s1) := badLogical acc va s
      .raise e s1
    else
      match xlatRefusal va t s with
      | some r => .stop (.refused r)
      | none => .ok { la := xlatAddr t va, c := t.c } s

/-- `Translate(va, acc)` for an access of `n` bytes by the executing processor (R69). -/
def translate (acc : AccessKind) (va : Word) (n : Nat) (s : State) : Access Located :=
  if reservedVa va then .raise (.general (protCause acc va)) s
  else
    match lookup va s with
    | (.stop st, _) => .stop st
    | (.badLogical, s1) =>
      let (e, s2) := badLogical acc va s1
      .raise e s2
    | (.answer l, s1) =>
      checkAccess acc va n l { s1 with self := keepCached (cachedOf va l) s1.self }

/-! ### Loads, stores and instruction fetches (R66) -/

/-- `MemRead(va, n)` (R66). It never raises 0x01 by itself (60_exceptions.md R277 allows that; DESIGN CHOICE, log
entry 40). -/
def memRead (va : Word) (size : AccessSize) (s : State) : Access Nat :=
  if va.toNat % accessBytes size != 0 then .raise (.general (.misalignedLoad va)) s
  else
    match translate .load va (accessBytes size) s with
    | .raise e s1 => .raise e s1
    | .stop st => .stop st
    | .ok t s1 =>
      match lmRead s1.params s1.lm t.la (accessBytes size) with
      | .bytes bs => .ok (leNat bs) s1
      | .inaccessible =>
        let (e, s2) := badLogical .load va s1
        .raise e s2

/-- `MemWrite(va, n, v)` (R66). It never raises 0x01 by itself (DESIGN CHOICE, log entry 40). -/
def memWrite (va : Word) (size : AccessSize) (v : DWord) (s : State) : Access Unit :=
  if va.toNat % accessBytes size != 0 then .raise (.general (.misalignedStore va)) s
  else
    match translate .store va (accessBytes size) s with
    | .raise e s1 => .raise e s1
    | .stop st => .stop st
    | .ok t s1 => .ok () (lmWrite t.la (accessBytes size) v.toNat s1)

/-- What the executing processor's instruction fetch may return for the byte at logical address `a`
(R94): its present content, or a content that was overwritten and that no instruction-cache
synchronisation of this processor has superseded. -/
def fetchOptions (a : Nat) (s : State) : List (Option Byte) :=
  let old := s.stale.filter fun e => e.la == a && !(e.synced.contains s.self.vpid)
  (memGet s.lm a :: old.map StaleByte.old).dedup

/-- Fetch the bytes at the given logical addresses. -/
def fetchBytes : List Nat → State → List Byte × State
  | [], s => ([], s)
  | a :: rest, s =>
    let (o, s1) := drawFrom none (fetchOptions a s) s
    let (bs, s2) := fetchBytes rest s1
    (byteValue a o :: bs, s2)

/-- `Fetch(va)` (R66): the four bytes of one instruction word, lowest address first. It never raises 0x01 by
itself (DESIGN CHOICE, log entry 40). -/
def fetch (va : Word) (s : State) : Access (List Byte) :=
  if va.toNat % 4 != 0 then .raise (.general .misalignedPc) s
  else
    match translate .fetch va 4 s with
    | .raise e s1 => .raise e s1
    | .stop st => .stop st
    | .ok t s1 =>
      let (bs, s2) := fetchBytes (lmAddrs t.la 4) s1
      .ok bs s2

/-! ### Map validation (44_memory_management.md R230) -/

/-- Every byte of `[lo, hi)` is accessible; `fuel` bounds the number of ranges used. -/
def lmCovers (ranges : List (Nat × Nat)) : Nat → Nat → Nat → Bool
  | 0, lo, hi => decide (hi ≤ lo)
  | fuel + 1, lo, hi =>
    if hi ≤ lo then true
    else
      match ranges.find? fun r => r.1 ≤ lo && lo < r.1 + r.2 with
      | none => false
      | some r => lmCovers ranges fuel (r.1 + r.2) hi

/-- Every byte of `[lo, hi)` has `LM_OK`. -/
def lmOkSpan (p : Params) (lo hi : Nat) : Bool := lmCovers p.lmRanges p.lmRanges.length lo hi

/-- A valid translation maps an inaccessible logical address: some byte of its whole page. -/
def mapsInaccessible (p : Params) (_ : Word) (t : Xlat) : Bool :=
  xlatValid t && !lmOkSpan p t.page.toNat (t.page.toNat + pageBytes t.size)

/-- Some walk of the list for an address below the reserved range ends as `w`. -/
def chainReaches (c : Chain) (w : Walk) : Bool :=
  (List.range 0xFF000).any fun k => chainWalk (BitVec.ofNat 32 (4096 * k)) c == w

/-- `ValidMap(ty, base)` (R230), over every virtual address below `0xFF00_0000`: every entry a walk can reach
is at an accessible logical address, the list is finite, and every valid translation maps only accessible
logical addresses. An entry with the reserved size code yields no translation, and what it makes undefined is the
walk that examines it (20_memory.md R74, 93_implementation_defined.md U4), not this question. R230 does not say
whether a list is finite that runs into such an entry, or into an inaccessible address that no walk reaches,
before any terminator: here it is, and nothing behind that entry or address is looked at (DESIGN CHOICE, log
entry 32). -/
def validMap (p : Params) (m : Memory) (map : MapSel) : Bool :=
  let sound := !mapYields p m map (mapsInaccessible p)
  match map with
  | .initial => sound
  | .tables base => !((tableSamples p m base).any fun va => tableWalk p m base va == .badLogical) && sound
  | .linear base =>
    let c := mapList p m base
    match chainEnd c with
    | .terminator => sound
    | .badLogical => !chainReaches c .badLogical && sound
    | .reservedSize => sound
    | .endless => false

end Sys2Proof.Machine
end

