-- ==== Sys2Proof/Machine/CacheControl.lean ====
section
/-! DEFINITION. Machine/CacheControl.lean: what cache operations do, and vmcache (43_cache_control.md). The
caches themselves are not state; what shows of an operation is its result, its range check, what instruction
fetches may still return (20_memory.md R94; log entry 11), and for the user-level `dcinva` what loads return
(42_trap0_and_base_isa.md R202; log entry 14). -/

namespace Sys2Proof.Machine

/-- What a cache operation finds for one piece of its range (R228). -/
inductive ChunkVerdict where
  /-- The translation grants the operation; the piece's first byte is at this logical address. -/
  | granted (la : Nat)
  /-- There is no translation that grants it. -/
  | offends
  /-- The walk met an entry at an inaccessible logical address (20_memory.md R85). -/
  | badLogical
  | stop (st : Stop)
  deriving DecidableEq, Repr

/-- The check of one piece of a range: below the reserved range, and a translation that meets `ok`. A
translation in use with `T = 1`, a reserved `C` or conflicting aliases has no meaning (20_memory.md R86, R87,
R88). Where one translation both fails `ok` and has a reserved `C` or a conflicting alias, R228 does not say which
counts: the page offends (0x23 for `vmcache`), and only `T = 1` comes before that (DESIGN CHOICE, log entry
20). -/
def checkChunk (ok : Xlat → Bool) (c : Chunk) (s : State) : ChunkVerdict × State :=
  if reservedVa c.va then (.offends, s)
  else
    match lookup c.va s with
    | (.stop st, s1) => (.stop st, s1)
    | (.badLogical, s1) => (.badLogical, s1)
    | (.answer .noTranslation, s1) => (.offends, s1)
    | (.answer .invalid, s1) => (.offends, s1)
    | (.answer (.hit t), s1) =>
      if xlatValid t && t.t then (.stop (.refused .trustedPage), s1)
      else if !ok t then (.offends, s1)
      else
        match xlatRefusal c.va t s1 with
        | some r => (.stop (.refused r), s1)
        | none => (.granted (xlatAddr t c.va).toNat, s1)

/-- The result of the check of a whole range: the granted logical spans (first address, length), the
offending pieces (`true`: an inaccessible table entry), or no meaning. -/
inductive RangeScan where
  | scanned (spans : List (Nat × Nat)) (bad : List (Chunk × Bool)) (s : State)
  | stop (st : Stop)

/-- Check every piece of a range (R228). Where one page of the range offends and another one's translation has no
meaning (T = 1, a reserved `C`, a conflicting alias, an undefined or endless list), R228 does not say whether
0x23 is raised or the run has no meaning: here it is refused, whatever the order of the two pages (DESIGN
CHOICE, log entry 20). -/
def scanRange (ok : Xlat → Bool) : List Chunk → State → RangeScan
  | [], s => .scanned [] [] s
  | c :: rest, s =>
    match checkChunk ok c s with
    | (.stop st, _) => .stop st
    | (v, s1) =>
      match scanRange ok rest s1 with
      | .stop st => .stop st
      | .scanned spans bad s2 =>
        match v with
        | .granted la => .scanned ((la, c.len) :: spans) bad s2
        | .badLogical => .scanned spans ((c, true) :: bad) s2
        | _ => .scanned spans ((c, false) :: bad) s2

/-- The number of offending addresses. -/
def offenders (bad : List (Chunk × Bool)) : Nat := (bad.map fun c => c.1.len).sum

/-- The `k`-th offending address of the pieces. -/
def offenderAt : List (Chunk × Bool) → Nat → Option (Word × Bool)
  | [], _ => none
  | (c, b) :: rest, k =>
    if k < c.len then some (c.va + BitVec.ofNat 32 k, b) else offenderAt rest (k - c.len)

/-- A number below `n`, drawn; no choice is needed for `n ≤ 1`. -/
def drawBelow (n : Nat) (s : State) : Nat × State :=
  if n ≤ 1 then (0, s) else (Config.draw s.free % n, { s with free := s.free + 1 })

/-- `RangeCheck(a, n)` (R228), with `WriteOK` asking for W: raise 0x23 with some offending address, or give the
logical spans of the range. -/
def rangeCheck (a : Word) (n : Nat) (s : State) : Access (List (Nat × Nat)) :=
  match scanRange Xlat.w (rangeChunks a n) s with
  | .stop st => .stop st
  | .scanned spans bad s1 =>
    let (k, s2) := drawBelow (offenders bad) s1
    match offenderAt bad k with
    | none => .ok spans s1
    | some (va, false) => .raise (.general (.storeProtection va)) s2
    | some (va, true) =>
      let (e, s3) := badLogical .store va s2
      .raise e s3

/-- The logical address lies in one of the spans. -/
def inSpans (spans : List (Nat × Nat)) (la : Nat) : Bool :=
  spans.any fun g => g.1 ≤ la && la < g.1 + g.2

/-- The data caches are written back (R222): every overwritten byte has been cleaned. -/
def cleanAll (s : State) : State :=
  { s with stale := s.stale.map fun e => { e with cleaned := true } }

/-- The data caches are written back over the spans (R224). R224 names the lines that hold any byte of the range,
and the line size is not in the source (91_not_in_source.md N6): exactly the bytes of the spans are cleaned
here, not the rest of their lines (DESIGN CHOICE, log entry 11). -/
def cleanSpans (spans : List (Nat × Nat)) (s : State) : State :=
  { s with
    stale := s.stale.map fun e => if inSpans spans e.la then { e with cleaned := true } else e }

/-- Every instruction-cache copy held for this virtual machine is dropped (R221): overwritten contents that
have been cleaned from the data caches can no longer be fetched. -/
def dropIcache (s : State) : State := { s with stale := s.stale.filter fun e => !e.cleaned }

/-- The executing processor's instruction-cache copies over the spans are dropped (R225), those of exactly the bytes
of the spans, not of the rest of their lines (DESIGN CHOICE, log entry 11). -/
def dropIcacheSpans (spans : List (Nat × Nat)) (s : State) : State :=
  { s with
    stale := s.stale.map fun e =>
      if e.cleaned && inSpans spans e.la then { e with synced := s.self.vpid :: e.synced } else e }

/-- The contents that loads may return for a byte whose data-cache line is invalidated: the present one, or,
where the cache had not been cleaned since, one that was overwritten (42_trap0_and_base_isa.md R202,
91_not_in_source.md N6). R202 speaks of stored data and does not say whether a byte that another agent wrote
(`DeviceWrite`) can be lost too: here it can, like a store, until the byte is clean (DESIGN CHOICE, log entry
14). -/
def invalidateOptions (a : Nat) (s : State) : List (Option Byte) :=
  let dirty := s.stale.filter fun e => e.la == a && !e.cleaned
  (memGet s.lm a :: dirty.map StaleByte.old).dedup

/-- Invalidate the data-cache copy of one byte without a clean: the stores to it since it was last clean may be
discarded. A discarded content may still be seen by instruction fetches. -/
def invalidateByte (a : Nat) (s : State) : State :=
  let (o, s1) := drawFrom (memGet s.lm a) (invalidateOptions a s) s
  if o = memGet s.lm a then s1
  else
    { s1 with
      lm := memPut s1.lm a o
      stale := { la := a, old := memGet s.lm a, cleaned := true, synced := [] } :: s1.stale }

/-- The data-cache copies over the spans are invalidated without a clean (42_trap0_and_base_isa.md R202):
nothing in the spans is dirty afterwards. Only a byte with a store that is not yet clean can change. -/
def invalidateSpans (spans : List (Nat × Nat)) (s : State) : State :=
  let dirty := s.stale.filter fun e => !e.cleaned && inSpans spans e.la && lmOk s.params e.la
  cleanSpans spans ((dirty.map StaleByte.la).dedup.foldl (fun s a => invalidateByte a s) s)

/-- A range operation (R224, R225, R226): the check, then the cache work, then `R[0] <- 0`. The rules name virtual
ranges and do not say which logical bytes are reached where a cached translation and the walk send a page to
different logical pages: the work reaches those of the translation that the check used, and no others (DESIGN
CHOICE, log entry 20). -/
def rangeOperation (work : List (Nat × Nat) → State → State) (s : State) : Result :=
  match rangeCheck (getReg 1 s) (getReg 2 s).toNat s with
  | .stop st => st.result
  | .raise e s1 => .next (raiseHere e s1)
  | .ok spans s1 => done (setReg 0 0 (work spans s1))

/-- `vmcache` (R220). -/
def execVmcache (s : State) : Result :=
  requireGuest s fun s =>
    match cacheOpOf (getReg 0 s) with
    | .ickill => done (setReg 0 0 (dropIcache s))
    | .dckill => done (setReg 0 0 (cleanAll s))
    | .l2kill => done (setReg 0 0 s)
    | .dccleaninva => rangeOperation cleanSpans s
    | .icinva => rangeOperation dropIcacheSpans s
    | .idsync => rangeOperation (fun spans s => dropIcacheSpans spans (cleanSpans spans s)) s
    | .reserved =>
      let (v, s1) := drawFrom 0 [0, minusOne] s
      done (setReg 0 v s1)

end Sys2Proof.Machine
end

