-- ==== Sys2Proof/Machine/BaseIsa.lean ====
section
/-! DEFINITION. Machine/BaseIsa.lean: how a base packet meets HVM (42_trap0_and_base_isa.md R201 step 4, R202,
R203, R204, R207). What the packet does is `BaseISA`'s, the parameter `Config.baseIsa` of the spec
(00_scope.md R8; log entry 14): a program of requests, which is run here. -/

namespace Sys2Proof.Machine

/-- The exception with which a base packet is rejected when it is decoded (R203, R204, 60_exceptions.md
R283). -/
def rejectException : BaseReject → GeneralCause
  | .preciseBus => .preciseBus
  | .invalidPacket => .invalidPacket
  | .privilege => .privilege
  | .misalignedPc => .misalignedPc
  | .cacheConflict => .cacheConflict
  | .registerCollision => .registerCollision

/-- The exception a base packet requests among its accesses (R203, 60_exceptions.md R283). -/
def faultException : BaseFault → GeneralCause
  | .preciseBus => .preciseBus
  | .misalignedLoad va => .misalignedLoad va
  | .misalignedStore va => .misalignedStore va
  | .cacheConflict => .cacheConflict

/-- The other base-architecture state becomes `v`. -/
def setOther (v : List Word) (s : State) : State := { s with self := { s.self with other := v } }

/-- The instruction word at `va`, through `Fetch`. -/
def fetchWord (va : Word) (s : State) : Access Word :=
  match fetch va s with
  | .ok (b0 :: b1 :: b2 :: b3 :: _) s1 => .ok (wordOfBytes b0 b1 b2 b3) s1
  | .ok _ s1 => .raise (.general .invalidPacket) s1
  | .raise e s1 => .raise e s1
  | .stop st => .stop st

/-- A `trap1` or `trap0` word met as a non-first word of a packet: for `BaseISA` to judge, by default 0x15
(30_encoding.md R125, U31; log entry 12). That 0x15 is raised at that word, without a fetch of the packet's further
words, which could raise 0x11 or 0x14 first (60_exceptions.md R283), is the model's choice (DESIGN CHOICE, log
entry 12). -/
def laterWord (w : Word) (s : State) : Access Word :=
  if (isTrap1 w || isTrap0 w) && !s.params.baseJudges then .raise (.general .invalidPacket) s
  else .ok w s

/-- One more word of a base packet (R201 step 4, 30_encoding.md R125). -/
def fetchLater (va : Word) (s : State) : Access Word :=
  match fetchWord va s with
  | .ok w s1 => laterWord w s1
  | .raise e s1 => .raise e s1
  | .stop st => .stop st

/-- A word with Parse `01` or `10` is followed by more words of the same packet (30_encoding.md R125). -/
def continues (w : Word) : Bool := parseOf w == 1#2 || parseOf w == 2#2

/-- The words of the packet that follow its word `w`, the next one at `va`; a packet has at most `fuel` more
words. A word that raises ends the gathering: the words behind it are not fetched (DESIGN CHOICE for a trap word,
log entry 12). -/
def laterWords : Nat → Word → Word → State → Access (List Word)
  | 0, _, _, s => .ok [] s
  | fuel + 1, w, va, s =>
    if continues w then
      match fetchLater va s with
      | .raise e s1 => .raise e s1
      | .stop st => .stop st
      | .ok x s1 =>
        match laterWords fuel x (va + 4) s1 with
        | .raise e s2 => .raise e s2
        | .stop st => .stop st
        | .ok xs s2 => .ok (x :: xs) s2
    else .ok [] s

/-- The words of the packet at `pc` whose first word is `w`: at most four (log entry 12). -/
def packetWords (w : Word) (s : State) : Access (List Word) :=
  match laterWords 3 w (s.self.pc + 4) s with
  | .raise e s1 => .raise e s1
  | .stop st => .stop st
  | .ok ws s1 => .ok (w :: ws) s1

/-- The pages a user-level cache instruction reaches: those with a valid translation, in User mode with `U`,
and for `dcinva`, which like a store may change what loads return, with `W` (R202; log entry 14). -/
def cacheGrants (op : BaseCacheOp) (um : Bool) (t : Xlat) : Bool :=
  xlatValid t && (!um || t.u) && (decide (op ≠ .dcinva) || t.w)

/-- The effect of a user-level cache instruction over logical spans (R202, 20_memory.md R94). -/
def cacheEffect (op : BaseCacheOp) (spans : List (Nat × Nat)) (s : State) : State :=
  match op with
  | .dcfetch => s
  | .dccleana => cleanSpans spans s
  | .dccleaninva => cleanSpans spans s
  | .dcinva => invalidateSpans spans s
  | .icinva => dropIcacheSpans spans s

/-- A cache instruction over the `n` bytes at `va` that acts through the translation of its pages: its effect
on the bytes it reaches, and none on the others. -/
def cachePages (op : BaseCacheOp) (va : Word) (n : Nat) (s : State) : Access Unit :=
  match scanRange (cacheGrants op s.self.um) (rangeChunks va n) s with
  | .stop st => .stop st
  | .scanned spans _ s1 => .ok () (cacheEffect op spans s1)

/-- A user-level cache instruction over the `n` bytes at `va` (R202). `dcfetch` is a hint and looks at nothing.
That the others find their bytes through the translation, and that one over a page whose translation the spec
gives no meaning (T = 1, a reserved cache attribute, a conflicting alias, an undefined or endless list) refuses
the run, is the model's choice: R202 says neither (DESIGN CHOICE, log entry 14). -/
def baseCache (op : BaseCacheOp) (va : Word) (n : Nat) (s : State) : Access Unit :=
  match op with
  | .dcfetch => .ok () s
  | .dccleana => cachePages .dccleana va n s
  | .dccleaninva => cachePages .dccleaninva va n s
  | .dcinva => cachePages .dcinva va n s
  | .icinva => cachePages .icinva va n s

/-- Run what a decoded base packet does (R201 step 4), and answer the address of the next packet. -/
def runProg : BaseProg → State → Access Word
  | .finish target, s => .ok target s
  | .raises c, s => .raise (.general (faultException c)) s
  | .setReg rd v k, s => runProg k (setReg rd v s)
  | .setOther v k, s => runProg k (setOther v s)
  | .load va size k, s =>
    match memRead va size s with
    | .ok v s1 => runProg (k (BitVec.ofNat 64 v)) s1
    | .raise e s1 => .raise e s1
    | .stop st => .stop st
  | .store va size v k, s =>
    match memWrite va size v s with
    | .ok _ s1 => runProg k s1
    | .raise e s1 => .raise e s1
    | .stop st => .stop st
  | .cache op va n k, s =>
    match baseCache op va n s with
    | .ok _ s1 => runProg k s1
    | .raise e s1 => .raise e s1
    | .stop st => .stop st
  | .draw k, s =>
    let (v, s1) := freshWord s
    runProg (k v) s1

/-- Run a base packet (R201 step 4): its fetches, its decode, then what it does (60_exceptions.md R283). -/
def runPacket : BasePacket → State → Access Word
  | .fetch va k, s =>
    match fetchLater va s with
    | .ok w s1 => runPacket (k w) s1
    | .raise e s1 => .raise e s1
    | .stop st => .stop st
  | .rejects c, s => .raise (.general (rejectException c)) s
  | .runs prog, s => runProg prog s

/-- The state before the packet, but for the free values read: a packet that raises a general exception has no
other effect (R201). -/
def abandon (before after : State) : State := { before with free := after.free }

/-- The base packet `b` of the executing processor (R201 step 4). An exception has the packet's address in GELR, also
where the packet itself requests 0x1C: there R285 and R276's last sentence name the misaligned target, and
the packet's address, from R201 and R276's pseudocode, is the model's choice (DESIGN CHOICE, log entry 14). A
packet that jumps to a misaligned target just completes, and the fetch of the next packet raises 0x1C with the
target in GELR (R277). -/
def baseProgram (b : BasePacket) (s : State) : Result :=
  match runPacket b s with
  | .ok target s1 => .next (setPc target s1)
  | .raise e s1 => .next (raiseHere e (abandon s s1))
  | .stop st => st.result

/-- What `BaseISA` is shown of the executing processor and the packet (R201 step 4). -/
def baseView (ws : List Word) (s : State) : BaseView where
  words := ws
  pc := s.self.pc
  regs := s.self.regs
  other := s.self.other

/-- One base packet of the executing processor, whose first word is `w` (R201 step 4). -/
def basePacket (w : Word) (s : State) : Result :=
  match packetWords w s with
  | .ok ws s1 => baseProgram (Config.baseIsa (baseView ws s1)) s1
  | .raise e s1 => .next (raiseHere e (abandon s s1))
  | .stop st => st.result

end Sys2Proof.Machine
end

