-- ==== Sys2Proof/Machine/Environment.lean ====
section
/-! DEFINITION. Machine/Environment.lean: vmversion (46_environment.md). -/

namespace Sys2Proof.Machine

/-- `vmversion` (46_environment.md R260): the requested version if the VMM can conform to it, else one it
can conform to. -/
def execVmversion (s : State) : Result :=
  requireGuest s fun s =>
    let req := getReg 0 s
    if req ∈ versions s.params then done (setReg 0 req { s with ver := req })
    else
      let (v, s1) := drawFrom 0x700 (versions s.params) s
      done (setReg 0 v { s1 with ver := v })

end Sys2Proof.Machine
end

