-- ==== Sys2Proof/Machine/EventManagement.lean ====
section
/-! DEFINITION. Machine/EventManagement.lean: vmsetvec, vmgetregs, vmsetregs, vmrte
(40_event_management.md). -/

namespace Sys2Proof.Machine

/-- The table addresses `vmsetvec` accepts: 4-byte aligned, its 8 slots below the reserved range
(40_event_management.md R150; the spec's choice D29, log entry 33). -/
def validVector (a : Word) : Bool := a.toNat % 4 == 0 && a.toNat ≤ 0xFEFFFFE0

/-- `vmsetvec` (40_event_management.md R150). -/
def execVmsetvec (s : State) : Result :=
  requireGuest s fun s =>
    let a := getReg 0 s
    if validVector a then done (setReg 0 0 { s with self := { s.self with gevb := some a } })
    else done (setReg 0 minusOne s)

/-- `vmgetregs` (40_event_management.md R151): `R[0..3] <- G[0..3]`. -/
def execVmgetregs (s : State) : Result :=
  requireGuest s fun s =>
    done (setReg 3 s.self.gbadva (setReg 2 s.self.gosp (setReg 1 s.self.gsr (setReg 0 s.self.gelr s))))

/-- `vmsetregs` (40_event_management.md R152): `G[0..3] <- R[0..3]`. -/
def execVmsetregs (s : State) : Result :=
  requireGuest s fun s =>
    done
      { s with
        self :=
          { s.self with
            gelr := getReg 0 s
            gsr := getReg 1 s
            gosp := getReg 2 s
            gbadva := getReg 3 s
            recorded := true } }

/-- `vmrte` (40_event_management.md R153, R154). On event registers that nothing has written "the model refuses
the run" (R153): "The one case a rule refuses outright" (93_implementation_defined.md section 1, U40; log
entry 5). -/
def execVmrte (s : State) : Result :=
  requireGuest s fun s =>
    if s.self.mch && !s.params.mcResume then .next (stopVM s)
    else if s.self.recorded then .next (returnFromEvent s)
    else .refused .unwrittenEventRegisters

end Sys2Proof.Machine
end

