-- ==== Sys2Proof/Machine/InterruptManagement.lean ====
section
/-! DEFINITION. Machine/InterruptManagement.lean: vmintop with its operations, vmgetie, vmsetie
(41_interrupt_management.md). -/

namespace Sys2Proof.Machine

/-- An operation completes with result `r` in R0. -/
def doneWith (r : Word) (s : State) : Result := done (setReg 0 r s)

/-- An operation fails: `R[0] <- FAIL` and nothing else (R184). -/
def intopFail (s : State) : Result :=
  let (v, s1) := drawFail s
  doneWith v s1

/-- GLOBEN and GLOBDIS (R171, R172): `GEN[i] <- b`. -/
def intopGlobal (i : Nat) (b : Bool) (s : State) : Result :=
  if validInt s i then doneWith 0 { s with gen := putBit s.gen i b } else intopFail s

/-- LOCEN and LOCDIS (R173, R174): `LEN[i] <- b` of the executing processor. -/
def intopLocal (i : Nat) (b : Bool) (s : State) : Result :=
  if validInt s i then
    doneWith 0 { s with self := { s.self with len := putBit s.self.len i b } }
  else intopFail s

/-- AFFINITY (R175): `LEN[i]` is set for the processor `q` and cleared for every other. -/
def intopAffinity (i : Nat) (q : Word) (s : State) : Result :=
  if validInt s i && liveVpid q s then
    doneWith 0 (mapLive (fun v => { v with len := putBit v.len i (v.vpid == q) }) s)
  else intopFail s

/-- GET (R176): take the next interrupt; where `R[1]` names another one, which of the two is taken is a
draw between the readings (a) (`true`) and (b) (`false`). -/
def intopGet (i : Nat) (s : State) : Result :=
  match nextInt s s.self.len with
  | none => doneWith minusOne s
  | some n =>
    if i = n then doneWith 0 (takeInterrupt n s)
    else
      let (asNamed, s1) := drawFrom true [true, false] s
      if asNamed then
        if eligible s1 s1.self.len i then doneWith 0 (takeInterrupt i s1) else doneWith minusOne s1
      else doneWith 0 (takeInterrupt n s1)

/-- PEEK (R177): the next interrupt's number, or -1. -/
def intopPeek (s : State) : Result :=
  match nextInt s s.self.len with
  | none => doneWith minusOne s
  | some n => doneWith (BitVec.ofNat 32 n) s

/-- STATUS (R178). -/
def intopStatus (i : Nat) (s : State) : Result :=
  if validInt s i then
    doneWith (statusWord (hasBit s.pending i) (hasBit s.self.len i) (hasBit s.gen i)) s
  else doneWith minusOne s

/-- POST and CLEAR (R179, R180): `PENDING[i] <- b`. -/
def intopPending (i : Nat) (b : Bool) (s : State) : Result :=
  if validInt s i then doneWith 0 { s with pending := putBit s.pending i b } else intopFail s

/-- `vmintop` (R170): the operation is named by R0, the interrupt by R1, AFFINITY's processor by R2. -/
def execVmintop (s : State) : Result :=
  requireGuest s fun s =>
    let i := (getReg 1 s).toNat
    match intOpOf (getReg 0 s) with
    | .nop => doneWith 0 s
    | .globen => intopGlobal i true s
    | .globdis => intopGlobal i false s
    | .locen => intopLocal i true s
    | .locdis => intopLocal i false s
    | .affinity => intopAffinity i (getReg 2 s) s
    | .get => intopGet i s
    | .peek => intopPeek s
    | .status => intopStatus i s
    | .post => intopPending i true s
    | .clear => intopPending i false s
    | .other => intopFail s

/-- `vmgetie` (R182): `R[0] <- IE`, exactly 0 or 1. -/
def execVmgetie (s : State) : Result :=
  requireGuest s fun s => doneWith (bitWord s.self.ie) s

/-- `vmsetie` (R183): `IE <- R[0][0]`, `R[0] <-` the old state. -/
def execVmsetie (s : State) : Result :=
  requireGuest s fun s =>
    doneWith (bitWord s.self.ie)
      { s with self := { s.self with ie := (getReg 0 s).getLsbD 0 } }

end Sys2Proof.Machine
end

