-- ==== Sys2Proof/Machine/MemoryManagement.lean ====
section
/-! DEFINITION. Machine/MemoryManagement.lean: vmnewmap and vmclrmap (44_memory_management.md). -/

namespace Sys2Proof.Machine

/-- The map that `vmnewmap`'s operands name, if the type is one the VMM implements and the base is aligned
(R230). -/
def selectMap (p : Params) (base ty : Word) : Option MapSel :=
  if ty = 0 then if p.mapList && base.toNat % 8 == 0 then some (.linear base) else none
  else if ty = 1 then if p.mapTables && base.toNat % 4 == 0 then some (.tables base) else none
  else none

/-- `vmnewmap` fails: `R[0] <- NEWMAP_ERR`, the map unchanged (R230). -/
def newmapFail (s : State) : Result := done (setReg 0 (newmapErr s.params) s)

/-- `vmnewmap` succeeds: the map is switched, the cached translations and the walks begun for them are
discarded, `R[0] <- 0` (R230). -/
def newmapSwitch (map : MapSel) (s : State) : Result :=
  done (setReg 0 0 { s with self := { s.self with map := map, tc := [], walks := [] } })

/-- `vmnewmap` (R230). -/
def execVmnewmap (s : State) : Result :=
  requireGuest s fun s =>
    match selectMap s.params (getReg 0 s) (getReg 1 s) with
    | none => newmapFail s
    | some map =>
      if s.params.validate && !validMap s.params s.lm map then newmapFail s else newmapSwitch map s

/-- The members that no byte of the range lies in the page of (R231). -/
def outsideRange (a : Word) (n : Nat) (l : List Cached) : List Cached :=
  l.filter fun c => !rangeMeetsPage a n c.vpage c.size

/-- A processor's `TC` without the translations of the range (R231). -/
def purge (a : Word) (n : Nat) (v : VP) : VP := { v with tc := outsideRange a n v.tc }

/-- The executing processor has finished its own walks over the range when it completes the purge. -/
def purgeWalks (a : Word) (n : Nat) (v : VP) : VP := { v with walks := outsideRange a n v.walks }

/-- `vmclrmap` (R231): the range is purged from every processor's `TC`. A walk that another processor has begun
may still be finished and insert what it read before. -/
def execVmclrmap (s : State) : Result :=
  requireGuest s fun s =>
    let a := getReg 0 s
    let n := (getReg 1 s).toNat
    let s1 := mapLive (purge a n) s
    done (setReg 0 0 { s1 with self := purgeWalks a n s1.self })

end Sys2Proof.Machine
end

