-- ==== Sys2Proof/Machine/ProcessorManagement.lean ====
section
/-! DEFINITION. Machine/ProcessorManagement.lean: vmgettime, vmsettime, vmwait, vmyield, vmstart, vmstop,
vmvpid (45_processor_management.md). -/

namespace Sys2Proof.Machine

/-- The timer the executing processor reads: the machine's, or its own when `TIMER_SCOPE` is `vp`
(10_state.md R37; log entry 24). -/
def getTimer (s : State) : DWord := if s.params.timerPerVp then s.self.timer else s.timer

/-- `TIMER <- t` for the executing processor. -/
def setTimer (t : DWord) (s : State) : State :=
  if s.params.timerPerVp then { s with self := { s.self with timer := t } } else { s with timer := t }

/-- `vmgettime` (R240): the two halves of one sample of the timer. -/
def execVmgettime (s : State) : Result :=
  requireGuest s fun s =>
    let t := getTimer s
    done (setReg 1 (t.extractLsb' 32 32) (setReg 0 (t.extractLsb' 0 32) s))

/-- `vmsettime` (R241): `TIMER <- R[1] : R[0]`. -/
def execVmsettime (s : State) : Result :=
  requireGuest s fun s => done (setTimer (getReg 1 s ++ getReg 0 s) s)

/-- `vmwait` (R242): the processor waits; `wake` is the action that ends the wait. -/
def execVmwait (s : State) : Result :=
  requireGuest s fun s => .next { s with self := { s.self with run := .waiting } }

/-- `Wake` of the executing processor (R242): with an eligible interrupt, it runs again with the number of
some eligible interrupt in R0; with `IE = 1` the least eligible interrupt is taken in the same step. -/
def wake (s : State) : State :=
  match eligibles s s.self.len with
  | [] => s
  | n :: rest =>
    let (pick, s1) := drawFrom n (n :: rest) s
    let s2 := setReg 0 (BitVec.ofNat 32 pick) { s1 with self := { s1.self with run := .running } }
    if s2.self.ie then takeEvent (.interrupt n) (nextPc s2) (takeInterrupt n s2) else advance s2

/-- `vmyield` (R243): no architectural effect. -/
def execVmyield (s : State) : Result :=
  requireGuest s fun s => done s

/-- The identifiers no live processor has (R244). -/
def freeVpids (s : State) : List Nat :=
  (List.range s.params.maxVp).filter fun k => !(live s).any fun v => v.vpid.toNat == k

/-- The number of free values a new processor's registers take. -/
def newVpFree : Nat := 36

/-- The processor `vmstart` creates (R244): identifier `k`, `pc` and R29 from the creator's R0 and R1, its
map, everything else undefined or unconfigured. The undefined registers are free values. -/
def newVp (k : Word) (s : State) : VP where
  vpid := k
  run := .running
  regs := Vector.ofFn fun i : Fin 32 =>
    if i = 29 then getReg 1 s else Config.undefWord (s.free + i.val)
  pc := getReg 0 s
  gelr := Config.undefWord (s.free + 32)
  gsr := Config.undefWord (s.free + 33)
  gosp := Config.undefWord (s.free + 34)
  gbadva := Config.undefWord (s.free + 35)
  gevb := none
  um := false
  ie := false
  map := s.self.map
  tc := []
  walks := []
  len := Config.undefBits s.free % 2 ^ s.params.numInt
  mch := false
  recorded := false
  other := Config.undefBase s.free
  timer := Config.undefLong s.free

/-- `vmstart` (R244). -/
def execVmstart (s : State) : Result :=
  requireGuest s fun s =>
    match freeVpids s with
    | [] => done (setReg 0 minusOne s)
    | k :: rest =>
      let (id, s1) := drawFrom k (k :: rest) s
      let v := newVp (BitVec.ofNat 32 id) s1
      done (setReg 0 (BitVec.ofNat 32 id)
        { s1 with others := s1.others ++ [v], free := s1.free + newVpFree })

/-- `vmstop` (R245). -/
def execVmstop (s : State) : Result :=
  requireGuest s fun s => .next (stopVP s)

/-- `vmvpid` (R246). -/
def execVmvpid (s : State) : Result :=
  requireGuest s fun s => done (setReg 0 s.self.vpid s)

end Sys2Proof.Machine
end

