-- ==== Sys2Proof/Machine/Trap.lean ====
section
/-! DEFINITION. Machine/Trap.lean: trap0 (42_trap0_and_base_isa.md R200) and the reserved trap1 numbers
(30_encoding.md R127). -/

namespace Sys2Proof.Machine

/-- `trap0(#imm)` (42_trap0_and_base_isa.md R200): event 5 in either mode, GELR the next packet. -/
def execTrap0 (imm : BitVec 8) (s : State) : Result :=
  .next (takeEvent (.trap0 imm) (nextPc s) s)

/-- `trap1` with a reserved number (30_encoding.md R127): the privilege violation in User mode; no meaning
in Guest mode. -/
def execTrap1Reserved (imm : BitVec 8) (s : State) : Result :=
  requireGuest s fun _ => .refused (.reservedTrap1Number imm)

end Sys2Proof.Machine
end

