-- ==== Sys2Proof/Machine/Dispatch.lean ====
section
/-! DEFINITION. Machine/Dispatch.lean: the meaning of each instruction, one direct call an arm. -/

namespace Sys2Proof.Machine

def exec (i : Instr) (s : State) : Host.Outcome State Fault Refusal :=
  match i with
  | .vmversion => Sys2Proof.Machine.execVmversion s
  | .vmrte => Sys2Proof.Machine.execVmrte s
  | .vmsetvec => Sys2Proof.Machine.execVmsetvec s
  | .vmsetie => Sys2Proof.Machine.execVmsetie s
  | .vmgetie => Sys2Proof.Machine.execVmgetie s
  | .vmintop => Sys2Proof.Machine.execVmintop s
  | .vmclrmap => Sys2Proof.Machine.execVmclrmap s
  | .vmnewmap => Sys2Proof.Machine.execVmnewmap s
  | .vmcache => Sys2Proof.Machine.execVmcache s
  | .vmgettime => Sys2Proof.Machine.execVmgettime s
  | .vmsettime => Sys2Proof.Machine.execVmsettime s
  | .vmwait => Sys2Proof.Machine.execVmwait s
  | .vmyield => Sys2Proof.Machine.execVmyield s
  | .vmstart => Sys2Proof.Machine.execVmstart s
  | .vmstop => Sys2Proof.Machine.execVmstop s
  | .vmvpid => Sys2Proof.Machine.execVmvpid s
  | .vmsetregs => Sys2Proof.Machine.execVmsetregs s
  | .vmgetregs => Sys2Proof.Machine.execVmgetregs s
  | .trap1Reserved imm => Sys2Proof.Machine.execTrap1Reserved imm s
  | .trap0 imm => Sys2Proof.Machine.execTrap0 imm s

end Sys2Proof.Machine
end

