-- ==== Sys2Proof/Machine/Actions.lean ====
section
/-! DEFINITION. Machine/Actions.lean: one packet of a processor (42_trap0_and_base_isa.md R201) and the
actions of the environment (60_exceptions.md R280). -/

namespace Sys2Proof.Machine

/-- Execute the decoded packet: an instruction of this model runs if its word is a packet by itself; a word
with another Parse field is for `BaseISA` to judge where it does, and raises 0x15 otherwise (30_encoding.md
R125, U31; log entry 12), at once, without a fetch of further words that the field announces (DESIGN CHOICE, log
entry 12); a base instruction is `BaseISA`'s. -/
def runWord (bytes : List Byte) (s : State) : Result :=
  match decode bytes with
  | .ok (i, _) =>
    match bytes with
    | b0 :: b1 :: b2 :: b3 :: _ =>
      let w := wordOfBytes b0 b1 b2 b3
      if soloParse w then exec i s
      else if s.params.baseJudges then basePacket w s
      else .next (raiseHere (.general .invalidPacket) s)
    | _ => .next (raiseHere (.general .invalidPacket) s)
  | .error (.baseInstruction w) => basePacket w s
  | .error .truncated => .next (raiseHere (.general .invalidPacket) s)

/-- The executing processor executes one packet (42_trap0_and_base_isa.md R201 steps 2 to 4). -/
def packet (s : State) : Result :=
  match fetch s.self.pc s with
  | .stop st => st.result
  | .raise e s1 => .next (raiseHere e s1)
  | .ok bytes s1 => runWord bytes s1

/-- The interrupt that `Deliver` would take on the executing processor, when the action is enabled
(60_exceptions.md R281). -/
def deliverable (s : State) : Option Nat :=
  if s.self.run = .running && s.self.ie then nextInt s s.self.len else none

/-- The body of `Deliver`, and of `raise Interrupt(n)`, on the executing processor (60_exceptions.md
R281). -/
def deliver (n : Nat) (s : State) : State :=
  takeEvent (.interrupt n) s.self.pc (takeInterrupt n s)

/-- `Wake` is enabled for the executing processor (45_processor_management.md R242). -/
def wakeable (s : State) : Bool := s.self.run == .waiting && (nextInt s s.self.len).isSome

/-- The machine checks the environment delivers by itself (60_exceptions.md R279, R280): all causes but
0x03, which an access provokes. -/
def environmentCheck : McCause → Bool
  | .shutdown => true
  | .badGuestSp => true
  | .badMapping => false
  | .dataAbort => true
  | .nmi => true

/-- A machine check on the executing processor, running or waiting (60_exceptions.md R279). -/
def machineCheck (c : McCause) (s : State) : State :=
  takeEvent (.machineCheck c) s.self.pc { s with self := { s.self with run := .running } }

/-- `Tick` (60_exceptions.md R280): the timer, or processor `p`'s when timers are per processor, advances
by `d` modulo 2^64. -/
def tick (p : Word) (d : DWord) (s : State) : State :=
  if s.params.timerPerVp then onVP p (fun v => { v with timer := v.timer + d }) s
  else { s with timer := s.timer + d }

/-- `p`'s `TC` gains the result of a walk for `va` (20_memory.md R70). No rule says whether it can gain one for an
address in the reserved range, which no access looks up (R61, R69): here it can, by this action or a begun walk,
over the entries that the walk's arithmetic gives for it (DESIGN CHOICE, log entry 10). -/
def fillCached (p : Word) (va : Word) (s : State) : State :=
  onVP p (fun v =>
    match walk s.params s.lm v.map va with
    | .answer l => keepCached (cachedOf va l) v
    | .badLogical => v
    | .stop _ => v) s

/-- A walk for `va` is begun on behalf of `p`, over the structures as they are now; one that answers nothing
(20_memory.md R85) is not kept (44_memory_management.md R231). Addresses in the reserved range as in `fillCached`
(DESIGN CHOICE, log entry 10). -/
def beginWalk (p : Word) (va : Word) (s : State) : State :=
  onVP p (fun v =>
    match walk s.params s.lm v.map va with
    | .answer l => { v with walks := cachedOf va l :: v.walks }
    | .badLogical => v
    | .stop _ => v) s

/-- The `k`-th walk begun on behalf of a processor is finished (44_memory_management.md R231). -/
def endWalkOf (k : Nat) (v : VP) : VP :=
  match v.walks[k]? with
  | none => v
  | some c => keepCached c { v with walks := v.walks.eraseIdx k }

/-- One action (60_exceptions.md R280). An action that is not enabled changes nothing. -/
def act (a : Action) (s : State) : Result :=
  match a with
  | .run p =>
    match focus p s with
    | none => .next s
    | some s1 => if s1.self.run = .running then packet s1 else .next s
  | .arrive n => if validInt s n then .next { s with pending := putBit s.pending n true } else .next s
  | .deliver p =>
    match focus p s with
    | none => .next s
    | some s1 =>
      match deliverable s1 with
      | none => .next s
      | some n => .next (deliver n s1)
  | .wake p =>
    match focus p s with
    | none => .next s
    | some s1 => if wakeable s1 then .next (wake s1) else .next s
  | .machineCheck p c =>
    match focus p s with
    | none => .next s
    | some s1 => if environmentCheck c then .next (machineCheck c s1) else .next s
  | .tick p d => .next (tick p d s)
  | .dropCached p k => .next (onVP p (fun v => { v with tc := v.tc.eraseIdx k }) s)
  | .fillCached p va => .next (fillCached p va s)
  | .beginWalk p va => .next (beginWalk p va s)
  | .finishWalk p k => .next (onVP p (endWalkOf k) s)
  | .stopVM => .next (stopVM s)
  | .deviceWrite la b => if lmOk s.params la.toNat then .next (writeByte la.toNat b s) else .next s

/-- A live processor can make a step by itself: it runs, or it waits and an eligible interrupt is
pending. -/
def canStep (s : State) (v : VP) : Bool :=
  match v.run with
  | .running => true
  | .waiting => (nextInt s v.len).isSome
  | .stopped => false

/-- The action when the agenda is empty (log entry 7): the first processor that can step, the executing one
first, executes its next packet or wakes. -/
def defaultAction (s : State) : Option Action :=
  ((live s).find? (canStep s)).map fun v =>
    if v.run = .running then .run v.vpid else .wake v.vpid

/-- One step of the virtual machine: the next action of the agenda, or the default one. A machine with no
processor left has terminated; one that conforms to another version has no meaning here
(46_environment.md R260). -/
def machineStep (s : State) : Result :=
  if (live s).isEmpty then .fault .terminated
  else if s.ver ≠ 0x700 then .refused (.otherVersion s.ver)
  else
    match s.agenda with
    | a :: rest => act a { s with agenda := rest }
    | [] =>
      match defaultAction s with
      | some a => act a s
      | none => .fault .stuckWaiting

/-! ### Placing an instruction where the next step fetches it -/

/-- The logical address of the executing processor's next packet in its map. -/
def fetchSlot (s : State) : Option Word :=
  match walk s.params s.lm s.self.map s.self.pc with
  | .answer (.hit t) => some (xlatAddr t s.self.pc)
  | _ => none

/-- Store the bytes of an instruction from outside the machine: the loader leaves nothing stale. -/
def placeBytes (la : Word) (bytes : List Byte) (m : Memory) : Memory :=
  ((lmAddrs la bytes.length).zip bytes).foldl (fun m c => memSet m c.1 c.2) m

/-- `s` with an instruction word stored at the executing processor's next packet, nothing stale there, no
cached translation of the executing processor, the processor running and no action of the environment
before it (log entry 13). Where the map has no page for `pc`, nothing is stored. -/
def placeFetchWord (s : State) (w : Word) : State :=
  match fetchSlot s with
  | none => s
  | some la =>
    { s with
      lm := placeBytes la (bytesOfWord w) s.lm
      stale := s.stale.filter fun e => !(lmAddrs la 4).contains e.la
      agenda := []
      self := { s.self with run := .running, tc := [] } }

end Sys2Proof.Machine
end

