-- ==== Sys2Proof/Machine/Step.lean ====
section
/-! DEFINITION. Machine/Step.lean: the step of the machine, and the host's way to place an instruction. -/

namespace Sys2Proof.Machine

/-- One step (42_trap0_and_base_isa.md R201, 60_exceptions.md R280): see `machineStep`. -/
def step (s : State) : Host.Outcome State Fault Refusal := machineStep s

/-- The state whose very next step fetches and runs the table word `w` of `nbits` bits
(log entry 13): see `placeFetchWord`, `placedWord`. -/
def State.withFetchWord (s : State) (nbits w : Nat) : State := placeFetchWord s (placedWord nbits w)

end Sys2Proof.Machine
end

