-- ==== Sys2Proof/Safety.lean ====
section
/-! DEFINITION. Safety.lean: the terms that statements use: what two states agree on, and the invariant of
the machine. -/

namespace Sys2Proof.Machine

/-- The parts of the state that a frame names one by one. The model's own counter of free values is not
among them. -/
inductive Part where
  | reg (i : Fin 32)
  | pc
  | gelr
  | gsr
  | gosp
  | gbadva
  | gevb
  | um
  | ie
  | map
  | tc
  | walks
  | len
  | mch
  | recorded
  | other
  | run
  | vpid
  | ownTimer
  | others
  | pending
  | gen
  | timer
  | memory
  | stale
  | ver
  | params
  | agenda
  deriving DecidableEq, Repr

/-- The two states agree on a part; memory is compared byte by byte, at every address. -/
def sameAt (s t : State) : Part → Prop
  | .reg i => getReg i t = getReg i s
  | .pc => t.self.pc = s.self.pc
  | .gelr => t.self.gelr = s.self.gelr
  | .gsr => t.self.gsr = s.self.gsr
  | .gosp => t.self.gosp = s.self.gosp
  | .gbadva => t.self.gbadva = s.self.gbadva
  | .gevb => t.self.gevb = s.self.gevb
  | .um => t.self.um = s.self.um
  | .ie => t.self.ie = s.self.ie
  | .map => t.self.map = s.self.map
  | .tc => t.self.tc = s.self.tc
  | .walks => t.self.walks = s.self.walks
  | .len => t.self.len = s.self.len
  | .mch => t.self.mch = s.self.mch
  | .recorded => t.self.recorded = s.self.recorded
  | .other => t.self.other = s.self.other
  | .run => t.self.run = s.self.run
  | .vpid => t.self.vpid = s.self.vpid
  | .ownTimer => t.self.timer = s.self.timer
  | .others => t.others = s.others
  | .pending => t.pending = s.pending
  | .gen => t.gen = s.gen
  | .timer => t.timer = s.timer
  | .memory => ∀ a, memGet t.lm a = memGet s.lm a
  | .stale => t.stale = s.stale
  | .ver => t.ver = s.ver
  | .params => t.params = s.params
  | .agenda => t.agenda = s.agenda

/-- `t` agrees with `s` on every part but those listed: the frame of an instruction. -/
def OnlyChanges (parts : List Part) (s t : State) : Prop :=
  ∀ p, p ∉ parts → sameAt s t p

/-- The constraints of 00_scope.md R7 on the implementation parameters. -/
def paramsOk (p : Params) : Bool :=
  1 ≤ p.maxVp && p.maxVp ≤ 2 ^ 32 - 1 && 1 ≤ p.numInt && p.numInt ≤ 2 ^ 16 &&
    (p.mapList || p.mapTables) && p.lmRanges.all (fun r => r.1 + r.2 ≤ 2 ^ 32) &&
    p.segPage + p.segPages ≤ 2 ^ 20

/-- A cached answer is of a whole virtual page, and a translation in it is of that page's size and sends it to
an aligned logical page (10_state.md R32, 20_memory.md R71). -/
def CachedOk (c : Cached) : Prop :=
  pageBase c.size c.vpage = c.vpage ∧
    ∀ x, c.answer = .hit x → c.size = x.size ∧ pageBase x.size x.page = x.page

/-- What holds of every processor: its identifier is below `MAX_VP` (10_state.md R34), only valid
interrupts are locally enabled (R33), a registered vector table is one `vmsetvec` accepts
(40_event_management.md R150), cached translations and those of unfinished walks are of whole pages (R32),
and it waits only in Guest mode (45_processor_management.md R242, 60_exceptions.md R300). -/
def VpOk (p : Params) (v : VP) : Prop :=
  v.vpid.toNat < p.maxVp ∧ v.len < 2 ^ p.numInt ∧
    (∀ g, v.gevb = some g → validVector g = true) ∧
    (∀ c ∈ v.tc, CachedOk c) ∧ (∀ c ∈ v.walks, CachedOk c) ∧
    (v.run = .waiting → v.um = false)

/-- The invariant of the machine: the parameters meet their constraints, memory is in canonical form and
lies in accessible addresses, the live processors have distinct identifiers (10_state.md R34, R39), none of
the others is stopped, every processor is well formed, and only valid interrupts are pending or enabled. -/
def MachineInv (s : State) : Prop :=
  paramsOk s.params = true ∧ Memory.wf s.lm ∧ (∀ c ∈ s.lm, lmOk s.params c.1 = true) ∧
    ((live s).map VP.vpid).Nodup ∧ (∀ v ∈ s.others, v.run ≠ .stopped) ∧
    (∀ v ∈ s.self :: s.others, VpOk s.params v) ∧
    s.pending < 2 ^ s.params.numInt ∧ s.gen < 2 ^ s.params.numInt

/-- Every member of the executing processor's `TC` that covers `va` answers as a walk does (20_memory.md R70).
A `TC` in which nothing is stale is like that. -/
def CacheAgrees (s : State) (va : Word) : Prop :=
  ∀ c ∈ s.self.tc, covers va c = true → walk s.params s.lm s.self.map va = .answer c.answer

/-- The access kind has its permission (20_memory.md R83): R for a load, W for a store, X for a fetch. -/
def Permits (acc : AccessKind) (x : Xlat) : Prop :=
  (acc = .load → x.r = true) ∧ (acc = .store → x.w = true) ∧ (acc = .fetch → x.x = true)

/-- `t'` is a translation of the page of `va'` in use by processor `v`: by its map, or among its cached ones
(20_memory.md R87). -/
def InUse (s : State) (v : VP) (va' : Word) (t' : Xlat) : Prop :=
  (va'.toNat < 0xFF000000 ∧ walk s.params s.lm v.map va' = .answer (.hit t')) ∨
    ∃ c ∈ v.tc, c.vpage = va' ∧ c.answer = .hit t'

/-- No valid translation in use by a live processor sends a virtual page to the logical page of translation
`x` of `va` with another cache attribute (20_memory.md R87, 70_reset_and_hazards.md R344), the same virtual
page by the same map apart (the model's choice, log entry 21). -/
def NoAlias (s : State) (va : Word) (x : Xlat) : Prop :=
  ∀ v ∈ live s, ∀ va' t', InUse s v va' t' → (t'.r = true ∨ t'.w = true ∨ t'.x = true) →
    x.page.toNat / pageBytes (max x.size t'.size) = t'.page.toNat / pageBytes (max x.size t'.size) →
    t'.c = x.c ∨ (v.map = s.self.map ∧ t'.page - pageBase t'.size va' = x.page - pageBase x.size va)

/-- A walk gives `va` the translation `x`, which has a meaning for an access: below the reserved range, not
trusted, a defined cache attribute, no conflicting alias (20_memory.md R61, R86, R87, R88). -/
def Usable (s : State) (va : Word) (x : Xlat) : Prop :=
  va.toNat < 0xFF000000 ∧ walk s.params s.lm s.self.map va = .answer (.hit x) ∧ x.t = false ∧
    x.c.toNat ∈ [0, 1, 4, 5, 6, 7] ∧ NoAlias s va x

/-- An access of `n` bytes at `va` is granted, with translation `x` (20_memory.md R69): no cached answer
differs from the walk, the walk gives a usable translation with the permission, in User mode with U, and the
bytes are accessible. -/
def Granted (s : State) (acc : AccessKind) (va : Word) (n : Nat) (x : Xlat) : Prop :=
  CacheAgrees s va ∧ Usable s va x ∧ Permits acc x ∧ (s.self.um = true → x.u = true) ∧
    lmOkRange s.params (xlatAddr x va) n = true

/-- `WriteOK(v)` (43_cache_control.md R228): below the reserved range, and the walk gives a usable translation
with write permission. -/
def WriteOK (s : State) (va : Word) : Prop := ∃ x, Usable s va x ∧ x.w = true

/-- `WriteOK(v)` is false (43_cache_control.md R228), and the spec says so: the reserved range, no
translation, an invalid one, or an untrusted one without write permission. -/
def NotWritable (s : State) (va : Word) : Prop :=
  0xFF000000 ≤ va.toNat ∨
    walk s.params s.lm s.self.map va = .answer .noTranslation ∨
    walk s.params s.lm s.self.map va = .answer .invalid ∨
    ∃ t, walk s.params s.lm s.self.map va = .answer (.hit t) ∧ t.w = false ∧ t.t = false

/-- `ListWalk(base, va)` as 20_memory.md R72 writes it, a loop over the entries from `ptr`, cut off after
`fuel` of them. -/
def listWalk (p : Params) (m : Memory) (va : Word) : Nat → Word → Walk
  | 0, _ => .stop (.refused .endlessList)
  | fuel + 1, ptr =>
    match readEntry p m ptr with
    | none => .badLogical
    | some e =>
      if e = 0 then .answer .noTranslation
      else if e.getLsbD 63 then listWalk p m va fuel (e.extractLsb' 0 32)
      else
        match listSize e with
        | none => .stop (.refused .reservedPageSize)
        | some z =>
          if pageBase z va = pageBase z (listVirtual e) then .answer (.hit (listXlat z e))
          else listWalk p m va fuel (ptr + 8)

/-- The entry that comes after the one at `ptr` in a list, whatever it matches; `none` where the list goes no
further (20_memory.md R72, R75), which it does at an entry with the reserved size code and at an inaccessible
address by the model's choice (log entry 32). -/
def listNext (p : Params) (m : Memory) (ptr : Word) : Option Word :=
  match readEntry p m ptr with
  | none => none
  | some e =>
    if e = 0 then none
    else if e.getLsbD 63 then some (e.extractLsb' 0 32)
    else if (e.extractLsb' 52 3).toNat = 7 then none
    else some (ptr + 8)

/-- The entry `n` places after the one at `base`, if the list gets there. -/
def listPlace (p : Params) (m : Memory) (base : Word) : Nat → Option Word
  | 0 => some base
  | n + 1 => (listPlace p m base n).bind (listNext p m)

/-- "The list is finite" (44_memory_management.md R230). -/
def ListFinite (p : Params) (m : Memory) (base : Word) : Prop := ∃ n, listPlace p m base n = none

/-- The fields of a table entry `e` of size code `z` (20_memory.md R77, R81, R82). -/
def PteFields (z : SizeCode) (e : Word) (x : Xlat) : Prop :=
  x.size = z ∧ x.page.toNat = e.toNat / 2 ^ (12 + 2 * z.val) * 2 ^ (12 + 2 * z.val) ∧
    x.x = e.getLsbD 11 ∧ x.w = e.getLsbD 10 ∧ x.r = e.getLsbD 9 ∧
    x.c.toNat = e.toNat / 2 ^ 6 % 8 ∧ x.u = e.getLsbD 5 ∧ x.t = e.getLsbD 4

/-- The set `A` of logical addresses holds every page that User mode may write (60_exceptions.md R301): by the
map over any memory that differs from the present one only in `A`, and by the cached translations. -/
def HoldsUserPages (s : State) (A : Nat → Prop) : Prop :=
  (∀ m, (∀ a, ¬A a → memGet m a = memGet s.lm a) → ∀ va x, va.toNat < 0xFF000000 →
    walk s.params m s.self.map va = .answer (.hit x) → x.u = true → x.w = true →
    ∀ k, k < pageBytes x.size → A (x.page.toNat + k)) ∧
  ∀ c ∈ s.self.tc, ∀ x, c.answer = .hit x → x.u = true → x.w = true →
    ∀ k, k < pageBytes x.size → A (x.page.toNat + k)

/-- The operands of a `vmnewmap` name map `map`: a type the VMM implements and an aligned base
(44_memory_management.md R230). -/
def NewmapSelects (s : State) (map : MapSel) : Prop :=
  (getReg 1 s = 0#32 ∧ s.params.mapList = true ∧ (getReg 0 s).toNat % 8 = 0 ∧
      map = .linear (getReg 0 s)) ∨
    (getReg 1 s = 1#32 ∧ s.params.mapTables = true ∧ (getReg 0 s).toNat % 4 = 0 ∧
      map = .tables (getReg 0 s))

/-- The address of byte `k` of a range (modulo 2^32, 00_scope.md R10). -/
def byteAt (a : Word) (k : Nat) : Word := a + BitVec.ofNat 32 k

/-- The `trap1` rows of 30_encoding.md R122 with their `match` words, written out from its table. -/
def trap1Rows : List (Instr × Word) :=
  [(.vmversion, 0x54800000), (.vmrte, 0x54800004), (.vmsetvec, 0x54800008), (.vmsetie, 0x5480000C),
    (.vmgetie, 0x54800010), (.vmintop, 0x54800014), (.vmclrmap, 0x54800108), (.vmnewmap, 0x5480010C),
    (.vmcache, 0x54800114), (.vmgettime, 0x54800118), (.vmsettime, 0x5480011C), (.vmwait, 0x54800200),
    (.vmyield, 0x54800204), (.vmstart, 0x54800208), (.vmstop, 0x5480020C), (.vmvpid, 0x54800210),
    (.vmsetregs, 0x54800214), (.vmgetregs, 0x54800218)]

/-- The event registers' part of an entry from the processor `v` for event `e` with link `elr` and vector
base `g`, as 60_exceptions.md R284 lists it; GBADVA is stated apart. -/
def EnteredEvent (e : Event) (elr g : Word) (v w : VP) : Prop :=
  w.gelr = elr ∧
    (gsrUm w.gsr = v.um ∧ gsrIe w.gsr = v.ie ∧ gsrCause w.gsr = eventCause e ∧
      ∀ k, 16 ≤ k → k < 30 → w.gsr.getLsbD k = false) ∧
    (v.um = true → w.regs[29] = v.gosp ∧ w.gosp = v.regs[29]) ∧
    (v.um = false → w.regs[29] = v.regs[29] ∧ w.gosp = v.gosp) ∧
    (∀ i : Fin 32, i ≠ 29 → w.regs[i] = v.regs[i]) ∧
    w.ie = false ∧ w.um = false ∧ (w.mch = (v.mch || isMachineCheck e)) ∧ w.recorded = true ∧
    w.pc = g + BitVec.ofNat 32 (4 * eventNumber e)

/-- The parts that taking an event with a registered vector base may change (60_exceptions.md R284,
R288). -/
def entryParts : List Part :=
  [.reg 29, .pc, .gelr, .gsr, .gosp, .gbadva, .um, .ie, .mch, .recorded]

end Sys2Proof.Machine
end

