-- ==== Sys2Proof/Certificates/Slice0/Obligations.lean ====
section
/-! DEFINITION. Certificates/Slice0/Obligations.lean: the statements for the provers. Each docstring names
the rules of spec/ behind the statement; "entry n" is notes/assumptions/n.md. `OnlyChanges parts s t` is the
frame: every register, status bit, event register, map, timer, interrupt bit and every byte of memory not
listed is unchanged. -/

open Sys2Proof Sys2Proof.Machine

/-! ### Encoding (30_encoding.md) -/

/-- Decoding the canonical word of a well-formed instruction, followed by any bytes, gives that instruction
and those bytes; the word is a packet by itself. 30_encoding.md R121, R122, R127, R130, R131; the `trap0`
word is PRESUMED (entry 15) and Parse = 11 is the spec's choice D5 (entry 12). -/
def Obligations.DecodeOfEncodeIsTheInstruction : Prop :=
  ∀ (i : Instr) (rest : List Byte), i.wf = true →
    decode (bytesOfWord (encode i) ++ rest) = .ok (i, rest) ∧ soloParse (encode i) = true

/-- Whatever a word decodes to is well formed, and encoding it gives the canonical word: the word with its
don't-care bits 0 and Parse = 11. 30_encoding.md R126, R133 and the spec's choice D5 (entry 12); the
`trap0` half is PRESUMED (entry 15). -/
def Obligations.EncodeOfDecodeIsTheCanonicalWord : Prop :=
  ∀ (w : Word) (i : Instr), decodeWord w = .ok i →
    i.wf = true ∧
    (isTrap1 w = true → encode i = (w &&& 0xFF801F1C#32) ||| 0xC000#32) ∧
    (isTrap1 w = false → encode i = (w &&& 0xFFC01F1C#32) ||| 0xC000#32)

/-- 30_encoding.md R122: a word is the instruction of a row of the `trap1` table exactly when the table's
mask leaves the row's `match`, the canonical word is `match | 0xC000`, and the rest of the numbers is
reserved. -/
def Obligations.Trap1TableRowsMatchUnderTheMask : Prop :=
  (∀ (i : Instr) (m : Word), (i, m) ∈ trap1Rows →
    encode i = m ||| 0xC000#32 ∧
    ∀ w : Word, decodeWord w = .ok i ↔ w &&& 0xFF801F1C#32 = m) ∧
  ∀ (w : Word) (n : BitVec 8), decodeWord w = .ok (.trap1Reserved n) ↔
    w &&& 0xFF800000#32 = 0x54800000#32 ∧ imm8Of w = n ∧
      (n = 6 ∨ n = 7 ∨ n = 8 ∨ n = 9 ∨ n = 12 ∨ 23 ≤ n.toNat)

/-- A few words written out from the spec's encodings decode to the instructions they stand for
(95_test_vectors.md 1.1, 2.1: E1, E2, E3, E4, E7, E8, E10, E11, E12; E10 to E12 rest on entry 15). -/
def Obligations.SampleWordsDecodeAsTheSpecSays : Prop :=
  decodeWord 0x5480C214#32 = .ok .vmsetregs ∧ decodeWord 0x5480C000#32 = .ok .vmversion ∧
  decodeWord 0x54FFFFFF#32 = .ok (.trap1Reserved 255) ∧ decodeWord 0x5480C018#32 = .ok (.trap1Reserved 6) ∧
  decodeWord 0x54BFC014#32 = .ok .vmintop ∧ decodeWord 0x5480C017#32 = .ok .vmintop ∧
  decodeWord 0x5480C10C#32 = .ok .vmnewmap ∧ decodeWord 0x5480C200#32 = .ok .vmwait ∧
  decodeWord 0x5400C014#32 = .ok (.trap0 5) ∧ decodeWord 0x5400DF1C#32 = .ok (.trap0 255) ∧
  decodeWord 0x5500C014#32 = .error (.baseInstruction 0x5500C014#32)

/-- A `trap1` or `trap0` word that is no packet by itself does not run as that instruction, whatever the mode:
with a Parse field other than 11, or as a later word of a packet whose first word is a base word with Parse 01
or 10, it raises 0x15 where `BaseISA` does not judge it, and where `BaseISA` does the packet is a base packet
(30_encoding.md R125, the spec's choice D5; the parameter, the length of a packet and that 0x15 comes at that
word, before any further word is fetched, are the model's, entry 12). -/
def Obligations.WordsWithAnotherParseFieldRaiseInvalidPacket : Prop :=
  (∀ (w : Word) (i : Instr) (s : State), decodeWord w = .ok i → parseOf w ≠ 3#2 →
    (s.params.baseJudges = false →
      runWord (bytesOfWord w) s = .next (raiseHere (.general .invalidPacket) s)) ∧
    (s.params.baseJudges = true → runWord (bytesOfWord w) s = basePacket w s)) ∧
  ∀ (w x : Word) (j : Instr) (g : Word) (s s1 : State), decodeWord w = .error (.baseInstruction w) →
    (parseOf w = 1#2 ∨ parseOf w = 2#2) → decodeWord x = .ok j → s.params.baseJudges = false →
    s.self.gevb = some g → fetch (s.self.pc + 4) s = .ok (bytesOfWord x) s1 →
    ∃ t, runWord (bytesOfWord w) s = .next t ∧
      EnteredEvent (.general .invalidPacket) s.self.pc g s.self t.self ∧ OnlyChanges entryParts s t

/-! ### Privilege and events (60_exceptions.md) -/

/-- 60_exceptions.md R300: in User mode every `trap1` instruction, assigned or reserved, raises general
exception 0x1B at its own address and has no other effect. -/
def Obligations.UserModeVirtualInstructionsRaisePrivilege : Prop :=
  ∀ (i : Instr) (s : State), (∀ imm, i ≠ .trap0 imm) → s.self.um = true →
    exec i s = .next (raiseHere (.general .privilege) s) ∧
    eventNumber (.general .privilege) = 2 ∧ eventCause (.general .privilege) = 0x1B#16 ∧
    ∀ g, s.self.gevb = some g →
      ∃ t, exec i s = .next t ∧ t.self.gelr = s.self.pc ∧ gsrCause t.self.gsr = 0x1B#16 ∧
        OnlyChanges entryParts s t

/-- A reserved `trap1` number takes the privilege violation in User mode and has no meaning in Guest mode:
30_encoding.md R127 (the spec's choice D6, entry 19). -/
def Obligations.ReservedTrap1NumbersTrapOrHaveNoMeaning : Prop :=
  ∀ (imm : BitVec 8) (s : State),
    (s.self.um = false → exec (.trap1Reserved imm) s = .refused (.reservedTrap1Number imm)) ∧
    ∀ g, s.self.um = true → s.self.gevb = some g →
      ∃ t, exec (.trap1Reserved imm) s = .next t ∧
        EnteredEvent (.general .privilege) s.self.pc g s.self t.self ∧ OnlyChanges entryParts s t

/-- The entry sequence of 60_exceptions.md R284 with a registered vector base: the record (GELR; GSR with the
old UM and IE, the cause and zeros; the swap of R29 and GOSP when coming from User mode; GBADVA where it is
defined), Guest mode with interrupts disabled, MCH for a machine check, the vector; and nothing else changes
(R288). The zeros of GSR bits 29:16 are the spec's choice D8 (entry 31). -/
def Obligations.EventEntryWritesTheRecordAndVectors : Prop :=
  ∀ (e : Event) (elr g : Word) (s : State), s.self.gevb = some g →
    EnteredEvent e elr g s.self (takeEvent e elr s).self ∧
    (∀ va, eventBadva e = some va → (takeEvent e elr s).self.gbadva = va) ∧
    OnlyChanges entryParts s (takeEvent e elr s)

/-- The numbers of the events (60_exceptions.md R270) and the codes of the general exceptions (R276 Table 7-1)
and machine checks (R279 Table 7-2). The cause that entry writes to GSR is that code, the immediate of `trap0`
(R278), or the number of the interrupt (R281). Which address GBADVA reports: the data address for general exceptions
0x20 to 0x25, and for no other cause (10_state.md R27). Two general exceptions with one code are of one kind:
the same but for the data address. -/
def Obligations.CausesWithADataAddressAreExactly20To25 : Prop :=
  (∀ c imm n, eventNumber (.machineCheck c) = 1 ∧ (∀ d, eventNumber (.general d) = 2) ∧
    eventNumber (.trap0 imm) = 5 ∧ eventNumber (.interrupt n) = 7) ∧
  (∀ c d imm n, eventCause (.general c) = generalCode c ∧ eventCause (.machineCheck d) = mcCode d ∧
    eventCause (.trap0 imm) = imm.setWidth 16 ∧ eventCause (.interrupt n) = BitVec.ofNat 16 n) ∧
  (∀ e : Event, (∃ va, eventBadva e = some va) ↔
    ∃ c, e = .general c ∧ 0x20 ≤ (generalCode c).toNat ∧ (generalCode c).toNat ≤ 0x25) ∧
  (∀ va : Word,
    generalCode .preciseBus = 0x01 ∧ generalCode .executeProtection = 0x11 ∧
    generalCode .userFetch = 0x14 ∧ generalCode .invalidPacket = 0x15 ∧ generalCode .privilege = 0x1B ∧
    generalCode .misalignedPc = 0x1C ∧ generalCode (.misalignedLoad va) = 0x20 ∧
    generalCode (.misalignedStore va) = 0x21 ∧ generalCode (.loadProtection va) = 0x22 ∧
    generalCode (.storeProtection va) = 0x23 ∧ generalCode (.loadUser va) = 0x24 ∧
    generalCode (.storeUser va) = 0x25 ∧ generalCode .cacheConflict = 0x28 ∧
    generalCode .registerCollision = 0x29) ∧
  (∀ va : Word, eventBadva (.general (.misalignedLoad va)) = some va ∧
    eventBadva (.general (.misalignedStore va)) = some va ∧
    eventBadva (.general (.loadProtection va)) = some va ∧
    eventBadva (.general (.storeProtection va)) = some va ∧
    eventBadva (.general (.loadUser va)) = some va ∧
    eventBadva (.general (.storeUser va)) = some va) ∧
  (∀ c d : GeneralCause, generalCode c = generalCode d →
    eventBadva (.general c) = eventBadva (.general d) → c = d) ∧
  (∀ c d : GeneralCause, generalCode c = generalCode d →
    ((∃ va, eventBadva (.general c) = some va) ↔ ∃ va, eventBadva (.general d) = some va)) ∧
  mcCode .shutdown = 0x00 ∧ mcCode .badGuestSp = 0x01 ∧ mcCode .badMapping = 0x03 ∧
  mcCode .dataAbort = 0x20 ∧ mcCode .nmi = 0x30

/-- An event of a processor whose vector base is unconfigured: nothing is written; the processor leaves the
machine, and for a machine check every processor does (60_exceptions.md R286, the spec's choices D9, D32,
D33; entry 27). -/
def Obligations.EventsWithoutAVectorTableStop : Prop :=
  ∀ (e : Event) (elr : Word) (s : State), s.self.gevb = none →
    (isMachineCheck e = false →
      live (takeEvent e elr s) = s.others ∧
        OnlyChanges [.run, .stale] s (takeEvent e elr s)) ∧
    (isMachineCheck e = true →
      live (takeEvent e elr s) = [] ∧ OnlyChanges [.run, .others] s (takeEvent e elr s))

/-- Event entry followed at once by `vmrte` restores pc, mode, interrupt enable and R29, and leaves the
record in the event registers (60_exceptions.md R289, 40_event_management.md R153). A processor that has
taken a machine check returns only where MC_RESUME holds (R154). -/
def Obligations.EntryThenVmrteRestoresTheProcessor : Prop :=
  ∀ (e : Event) (g : Word) (s : State), s.self.gevb = some g →
    (s.params.mcResume = true ∨ (s.self.mch = false ∧ isMachineCheck e = false)) →
    ∃ t, exec .vmrte (raiseHere e s) = .next t ∧
      t.self.pc = s.self.pc ∧ t.self.um = s.self.um ∧ t.self.ie = s.self.ie ∧
      t.self.regs = s.self.regs ∧ t.self.gosp = s.self.gosp ∧
      t.self.gelr = s.self.pc ∧ t.self.gsr = (raiseHere e s).self.gsr ∧ t.self.recorded = true ∧
      t.self.gbadva = (raiseHere e s).self.gbadva ∧
      OnlyChanges [.gelr, .gsr, .gbadva, .mch, .recorded] s t

/-- `trap0` takes event 5 in either mode, with the immediate as cause and the next packet as link
(42_trap0_and_base_isa.md R200, 60_exceptions.md R278; the encoding and its one-word packet are PRESUMED,
entry 15). Without a vector table the processor stops (R286). -/
def Obligations.Trap0TakesEventFive : Prop :=
  ∀ (imm : BitVec 8) (s : State),
    (∀ g, s.self.gevb = some g →
      ∃ t, exec (.trap0 imm) s = .next t ∧
        EnteredEvent (.trap0 imm) (s.self.pc + 4) g s.self t.self ∧
        gsrCause t.self.gsr = imm.setWidth 16 ∧ t.self.pc = g + 20#32 ∧ OnlyChanges entryParts s t) ∧
    (s.self.gevb = none →
      ∃ t, exec (.trap0 imm) s = .next t ∧ live t = s.others ∧ OnlyChanges [.run, .stale] s t)

/-! ### Event management (40_event_management.md) -/

/-- `vmsetvec` in Guest mode: a 4-byte-aligned table whose eight slots lie below the reserved range is
registered and R0 is 0; any other address leaves GEVB and R0 is -1 (40_event_management.md R150; the
conditions are the spec's choice D29, entry 33). -/
def Obligations.VmsetvecRegistersTheTableOrFails : Prop :=
  ∀ s : State, s.self.um = false →
    ((getReg 0 s).toNat % 4 = 0 ∧ (getReg 0 s).toNat ≤ 0xFEFFFFE0 →
      ∃ t, exec .vmsetvec s = .next t ∧ t.self.gevb = some (getReg 0 s) ∧ getReg 0 t = 0 ∧
        t.self.pc = s.self.pc + 4 ∧ OnlyChanges [.gevb, .reg 0, .pc] s t) ∧
    (¬((getReg 0 s).toNat % 4 = 0 ∧ (getReg 0 s).toNat ≤ 0xFEFFFFE0) →
      ∃ t, exec .vmsetvec s = .next t ∧ getReg 0 t = 0xFFFFFFFF#32 ∧
        t.self.pc = s.self.pc + 4 ∧ OnlyChanges [.reg 0, .pc] s t)

/-- In Guest mode `vmgetregs` copies G0 to G3 to R0 to R3, and `vmsetregs` copies R0 to R3 to G0 to G3, all 32
bits, GSR's reserved bits among them; UM and IE do not change (40_event_management.md R151, R152; that all 32
bits are moved, without an effect on UM and IE, is the spec's choice D8 and D35, entry 31). -/
def Obligations.VmgetregsAndVmsetregsCopyTheEventRegisters : Prop :=
  ∀ s : State, s.self.um = false →
    (∃ t, exec .vmgetregs s = .next t ∧ getReg 0 t = s.self.gelr ∧ getReg 1 t = s.self.gsr ∧
      getReg 2 t = s.self.gosp ∧ getReg 3 t = s.self.gbadva ∧ t.self.pc = s.self.pc + 4 ∧
      OnlyChanges [.reg 0, .reg 1, .reg 2, .reg 3, .pc] s t) ∧
    ∃ t, exec .vmsetregs s = .next t ∧ t.self.gelr = getReg 0 s ∧ t.self.gsr = getReg 1 s ∧
      t.self.gosp = getReg 2 s ∧ t.self.gbadva = getReg 3 s ∧ t.self.recorded = true ∧
      t.self.pc = s.self.pc + 4 ∧
      OnlyChanges [.gelr, .gsr, .gosp, .gbadva, .recorded, .pc] s t

/-- `vmrte` in Guest mode, where return is honoured and an event or `vmsetregs` has written the event registers:
pc from GELR, UM and IE from GSR bits 31 and 30, and R29 exchanged with GOSP exactly when GSR bit 31 is set
(40_event_management.md R153). A processor that has taken a machine check, where resumption is not allowed,
stops every processor instead (R154, the spec's choice D33; entry 28). On event registers that were never
written the run is refused (R153, 93_implementation_defined.md U40; entry 5). -/
def Obligations.VmrteRestoresTheSavedState : Prop :=
  ∀ s : State, s.self.um = false →
    ((s.self.mch = false ∨ s.params.mcResume = true) → s.self.recorded = true →
      ∃ t, exec .vmrte s = .next t ∧ t.self.pc = s.self.gelr ∧
        t.self.um = s.self.gsr.getLsbD 31 ∧ t.self.ie = s.self.gsr.getLsbD 30 ∧
        (s.self.gsr.getLsbD 31 = true → getReg 29 t = s.self.gosp ∧ t.self.gosp = getReg 29 s) ∧
        (s.self.gsr.getLsbD 31 = false → getReg 29 t = getReg 29 s ∧ t.self.gosp = s.self.gosp) ∧
        OnlyChanges [.pc, .um, .ie, .reg 29, .gosp] s t) ∧
    ((s.self.mch = false ∨ s.params.mcResume = true) → s.self.recorded = false →
      exec .vmrte s = .refused .unwrittenEventRegisters) ∧
    (s.self.mch = true → s.params.mcResume = false →
      ∃ t, exec .vmrte s = .next t ∧ live t = [] ∧ OnlyChanges [.run, .others] s t)

/-! ### Interrupt management (41_interrupt_management.md) -/

/-- 41_interrupt_management.md R171, R172: `vmintop` operations 1 and 2 set and clear the global enable of a
valid interrupt and return 0, and fail with a non-zero value and no other effect otherwise; enabling a
pending interrupt makes it eligible wherever it is locally enabled, and a disabled one is eligible nowhere. -/
def Obligations.VmintopGloballyEnablesAndDisables : Prop :=
  ∀ (s : State) (b : Bool), s.self.um = false → getReg 0 s = (if b then 1#32 else 2#32) →
    ((getReg 1 s).toNat < s.params.numInt →
      ∃ t, exec .vmintop s = .next t ∧ getReg 0 t = 0 ∧ t.self.pc = s.self.pc + 4 ∧
        hasBit t.gen (getReg 1 s).toNat = b ∧
        (∀ j, j ≠ (getReg 1 s).toNat → hasBit t.gen j = hasBit s.gen j) ∧
        (b = true → hasBit s.pending (getReg 1 s).toNat = true →
          ∀ len, hasBit len (getReg 1 s).toNat = true → eligible t len (getReg 1 s).toNat = true) ∧
        (b = false → ∀ len, eligible t len (getReg 1 s).toNat = false) ∧
        OnlyChanges [.gen, .reg 0, .pc] s t) ∧
    (s.params.numInt ≤ (getReg 1 s).toNat →
      ∃ t, exec .vmintop s = .next t ∧ getReg 0 t ≠ 0 ∧ t.self.pc = s.self.pc + 4 ∧
        OnlyChanges [.reg 0, .pc] s t)

/-- `vmintop` operations 3 and 4 set and clear the local enable of the executing processor for a valid
interrupt, and fail with a non-zero value otherwise (41_interrupt_management.md R173, R174; that it is the
executing processor's is the spec's choice D21). -/
def Obligations.VmintopLocallyEnablesAndDisables : Prop :=
  ∀ (s : State) (b : Bool), s.self.um = false → getReg 0 s = (if b then 3#32 else 4#32) →
    ((getReg 1 s).toNat < s.params.numInt →
      ∃ t, exec .vmintop s = .next t ∧ getReg 0 t = 0 ∧ t.self.pc = s.self.pc + 4 ∧
        hasBit t.self.len (getReg 1 s).toNat = b ∧
        (∀ j, j ≠ (getReg 1 s).toNat → hasBit t.self.len j = hasBit s.self.len j) ∧
        OnlyChanges [.len, .reg 0, .pc] s t) ∧
    (s.params.numInt ≤ (getReg 1 s).toNat →
      ∃ t, exec .vmintop s = .next t ∧ getReg 0 t ≠ 0 ∧ t.self.pc = s.self.pc + 4 ∧
        OnlyChanges [.reg 0, .pc] s t)

/-- `vmintop` AFFINITY: for a valid interrupt and an existing processor, the interrupt is locally enabled
for that processor and locally disabled for every other, and nothing else of any processor changes; otherwise
it fails with a non-zero value (41_interrupt_management.md R175; the failures are the spec's choice D20,
entry 29). -/
def Obligations.VmintopAffinityEnablesExactlyOneProcessor : Prop :=
  ∀ s : State, s.self.um = false → getReg 0 s = 5#32 →
    ((getReg 1 s).toNat < s.params.numInt ∧ (∃ v ∈ live s, v.vpid = getReg 2 s) →
      ∃ t, exec .vmintop s = .next t ∧ getReg 0 t = 0 ∧ t.self.pc = s.self.pc + 4 ∧
        hasBit t.self.len (getReg 1 s).toNat = (s.self.vpid == getReg 2 s) ∧
        (∀ j, j ≠ (getReg 1 s).toNat → hasBit t.self.len j = hasBit s.self.len j) ∧
        List.Forall₂ (fun v w => w = { v with len := w.len } ∧
            hasBit w.len (getReg 1 s).toNat = (v.vpid == getReg 2 s) ∧
            ∀ j, j ≠ (getReg 1 s).toNat → hasBit w.len j = hasBit v.len j) s.others t.others ∧
        OnlyChanges [.len, .others, .reg 0, .pc] s t) ∧
    (s.params.numInt ≤ (getReg 1 s).toNat ∨ (∀ v ∈ live s, v.vpid ≠ getReg 2 s) →
      ∃ t, exec .vmintop s = .next t ∧ getReg 0 t ≠ 0 ∧ t.self.pc = s.self.pc + 4 ∧
        OnlyChanges [.reg 0, .pc] s t)

/-- The next interrupt is the least eligible number, and there is none exactly when no number is eligible
(41_interrupt_management.md R184: "Interrupt0 being highest"). Eligible is pending, globally and locally
enabled, without regard to IE: the spec's choice D22 (entry 29). -/
def Obligations.NextInterruptIsTheLeastEligible : Prop :=
  ∀ (s : State) (len : Nat),
    (∀ n, nextInt s len = some n ↔
      eligible s len n = true ∧ ∀ m, m < n → eligible s len m = false) ∧
    (nextInt s len = none ↔ ∀ n, eligible s len n = false) ∧
    ∀ n, eligible s len n = true ↔
      n < s.params.numInt ∧ hasBit s.pending n = true ∧ hasBit s.gen n = true ∧ hasBit len n = true

/-- `vmintop` GET: with nothing eligible it returns -1; where R1 names the next interrupt that one is taken
(its pending bit and global enable cleared) and it returns 0; where R1 names another one, either the named
one is taken if eligible (else -1), or the next one is taken: the two readings of 41_interrupt_management.md
R176 (the spec's choice D19, entry 29). -/
def Obligations.VmintopGetTakesAnEligibleInterrupt : Prop :=
  ∀ s : State, s.self.um = false → getReg 0 s = 6#32 →
    (nextInt s s.self.len = none →
      ∃ t, exec .vmintop s = .next t ∧ getReg 0 t = 0xFFFFFFFF#32 ∧ t.self.pc = s.self.pc + 4 ∧
        OnlyChanges [.reg 0, .pc] s t) ∧
    ∀ n, nextInt s s.self.len = some n →
      ∃ t, exec .vmintop s = .next t ∧ t.self.pc = s.self.pc + 4 ∧
        OnlyChanges [.pending, .gen, .reg 0, .pc] s t ∧
        ((∃ k, (k = n ∨ (k = (getReg 1 s).toNat ∧ eligible s s.self.len k = true)) ∧ getReg 0 t = 0 ∧
            hasBit t.pending k = false ∧ hasBit t.gen k = false ∧
            ∀ j, j ≠ k → hasBit t.pending j = hasBit s.pending j ∧ hasBit t.gen j = hasBit s.gen j) ∨
          ((getReg 1 s).toNat ≠ n ∧ eligible s s.self.len (getReg 1 s).toNat = false ∧
            getReg 0 t = 0xFFFFFFFF#32 ∧ t.pending = s.pending ∧ t.gen = s.gen))

/-- `vmintop` PEEK returns the next interrupt's number or -1, and STATUS the three bits of a valid interrupt
(pending in bit 0, local enable in bit 1, global enable in bit 2) or -1; neither changes anything else
(41_interrupt_management.md R177, R178; the bit positions are the spec's choice D18, entry 29). -/
def Obligations.VmintopPeekAndStatusReport : Prop :=
  ∀ s : State, s.self.um = false →
    (getReg 0 s = 7#32 →
      ∃ t, exec .vmintop s = .next t ∧ t.self.pc = s.self.pc + 4 ∧ OnlyChanges [.reg 0, .pc] s t ∧
        getReg 0 t =
          match nextInt s s.self.len with
          | some n => BitVec.ofNat 32 n
          | none => 0xFFFFFFFF#32) ∧
    (getReg 0 s = 8#32 →
      ∃ t, exec .vmintop s = .next t ∧ t.self.pc = s.self.pc + 4 ∧ OnlyChanges [.reg 0, .pc] s t ∧
        ((getReg 1 s).toNat < s.params.numInt →
          (getReg 0 t).toNat < 8 ∧
          (getReg 0 t).getLsbD 0 = hasBit s.pending (getReg 1 s).toNat ∧
          (getReg 0 t).getLsbD 1 = hasBit s.self.len (getReg 1 s).toNat ∧
          (getReg 0 t).getLsbD 2 = hasBit s.gen (getReg 1 s).toNat) ∧
        (s.params.numInt ≤ (getReg 1 s).toNat → getReg 0 t = 0xFFFFFFFF#32))

/-- 41_interrupt_management.md R179, R180: `vmintop` POST and CLEAR set and clear the pending bit of a valid
interrupt and return 0, leaving the enables; otherwise they fail with a non-zero value. A posted interrupt is
eligible wherever it is globally and locally enabled. -/
def Obligations.VmintopPostsAndClears : Prop :=
  ∀ (s : State) (b : Bool), s.self.um = false → getReg 0 s = (if b then 9#32 else 10#32) →
    ((getReg 1 s).toNat < s.params.numInt →
      ∃ t, exec .vmintop s = .next t ∧ getReg 0 t = 0 ∧ t.self.pc = s.self.pc + 4 ∧
        hasBit t.pending (getReg 1 s).toNat = b ∧
        (∀ j, j ≠ (getReg 1 s).toNat → hasBit t.pending j = hasBit s.pending j) ∧
        (b = true → hasBit s.gen (getReg 1 s).toNat = true →
          ∀ len, hasBit len (getReg 1 s).toNat = true → eligible t len (getReg 1 s).toNat = true) ∧
        OnlyChanges [.pending, .reg 0, .pc] s t) ∧
    (s.params.numInt ≤ (getReg 1 s).toNat →
      ∃ t, exec .vmintop s = .next t ∧ getReg 0 t ≠ 0 ∧ t.self.pc = s.self.pc + 4 ∧
        OnlyChanges [.reg 0, .pc] s t)

/-- `vmintop` NOP leaves R0 = 0, and an operation above 10 leaves some non-zero value in R0; nothing else but
pc changes (41_interrupt_management.md R170, R181; the latter is the spec's choice D20, entry 29). -/
def Obligations.VmintopNopAndUnlistedOperations : Prop :=
  ∀ s : State, s.self.um = false →
    (getReg 0 s = 0#32 →
      ∃ t, exec .vmintop s = .next t ∧ getReg 0 t = 0 ∧ t.self.pc = s.self.pc + 4 ∧
        OnlyChanges [.pc] s t) ∧
    (10 < (getReg 0 s).toNat →
      ∃ t, exec .vmintop s = .next t ∧ getReg 0 t ≠ 0 ∧ t.self.pc = s.self.pc + 4 ∧
        OnlyChanges [.reg 0, .pc] s t)

/-- 41_interrupt_management.md R182: `vmgetie`'s word, its result (exactly 0 or 1) and its privilege
violation. -/
def Obligations.VmgetieReturnsTheInterruptEnable : Prop :=
  encode .vmgetie = 0x5480C010#32 ∧
  (∀ w : Word, decodeWord w = .ok .vmgetie ↔ w &&& 0xFF801F1C#32 = 0x54800010#32) ∧
  ∀ s : State,
    (s.self.um = false →
      ∃ t, exec .vmgetie s = .next t ∧ getReg 0 t = (if s.self.ie then 1#32 else 0#32) ∧
        t.self.pc = s.self.pc + 4 ∧ OnlyChanges [.reg 0, .pc] s t) ∧
    (s.self.um = true → exec .vmgetie s = .next (raiseHere (.general .privilege) s))

/-- `vmsetie` in Guest mode: IE becomes bit 0 of R0 and R0 the old IE, exactly 0 or 1
(41_interrupt_management.md R183). -/
def Obligations.VmsetieSetsAndReturnsTheInterruptEnable : Prop :=
  ∀ s : State, s.self.um = false →
    ∃ t, exec .vmsetie s = .next t ∧ t.self.ie = decide ((getReg 0 s).toNat % 2 = 1) ∧
      getReg 0 t = (if s.self.ie then 1#32 else 0#32) ∧ t.self.pc = s.self.pc + 4 ∧
      OnlyChanges [.ie, .reg 0, .pc] s t

/-! ### Cache control (43_cache_control.md) -/

/-- `vmcache` operations 0, 1 and 2 return 0 and change no register, map or byte of memory, only which old
bytes instruction fetches may still return; a reserved operation changes nothing and leaves 0 or -1 in R0
(43_cache_control.md R221, R222, R223, R227; entry 20). After ICKILL, a fetch from an address whose overwritten
contents have been cleaned returns the byte in memory and nothing older; after DCKILL followed by ICKILL every
fetch does (20_memory.md R94, entry 11). -/
def Obligations.VmcacheWholeCacheAndReservedOperations : Prop :=
  ∀ s : State, s.self.um = false →
    ((getReg 0 s).toNat ≤ 2 →
      ∃ t, exec .vmcache s = .next t ∧ getReg 0 t = 0 ∧ t.self.pc = s.self.pc + 4 ∧
        OnlyChanges [.stale, .reg 0, .pc] s t ∧
        (∀ e ∈ t.stale, ∃ d ∈ s.stale, e.la = d.la ∧ e.old = d.old ∧ e.synced = d.synced) ∧
        (getReg 0 s = 0#32 → ∀ a, (∀ e ∈ s.stale, e.la = a → e.cleaned = true) →
          fetchOptions a t = [memGet s.lm a]) ∧
        (getReg 0 s = 1#32 → ∃ u, exec .vmcache t = .next u ∧ getReg 0 u = 0 ∧
          OnlyChanges [.stale, .reg 0, .pc] s u ∧ ∀ a, fetchOptions a u = [memGet s.lm a])) ∧
    (5 < (getReg 0 s).toNat →
      ∃ t, exec .vmcache s = .next t ∧ (getReg 0 t = 0 ∨ getReg 0 t = 0xFFFFFFFF#32) ∧
        t.self.pc = s.self.pc + 4 ∧ OnlyChanges [.reg 0, .pc] s t)

/-- The pieces of a byte range cover exactly its addresses (modulo 2^32), and no piece crosses a 4 KB page
(00_scope.md R10, 43_cache_control.md R228). -/
def Obligations.RangePiecesCoverExactlyTheRange : Prop :=
  ∀ (a : Word) (n : Nat), n < 2 ^ 32 →
    (∀ x : Word, (∃ c ∈ rangeChunks a n, ∃ k, k < c.len ∧ x = byteAt c.va k) ↔
      ∃ k, k < n ∧ x = byteAt a k) ∧
    ((rangeChunks a n).map Chunk.len).sum = n ∧
    ∀ c ∈ rangeChunks a n, c.va.toNat % 4096 + c.len ≤ 4096

/-- A range operation of `vmcache` over a range every address of which may be written, and where no cached
answer differs from the walk, completes with R0 = 0; an empty range always does (43_cache_control.md R224,
R225, R226, R228, 20_memory.md R70). -/
def Obligations.VmcacheRangeOperationsComplete : Prop :=
  ∀ s : State, s.self.um = false → 3 ≤ (getReg 0 s).toNat → (getReg 0 s).toNat ≤ 5 →
    (∀ k, k < (getReg 2 s).toNat → CacheAgrees s (byteAt (getReg 1 s) k)) →
    (∀ k, k < (getReg 2 s).toNat → WriteOK s (byteAt (getReg 1 s) k)) →
    ∃ t, exec .vmcache s = .next t ∧ getReg 0 t = 0 ∧ t.self.pc = s.self.pc + 4 ∧
      OnlyChanges [.stale, .reg 0, .pc] s t

/-- A range operation of `vmcache` over a range with an address that may not be written, where no cached answer
differs from the walk, raises 0x23 at its own address with some offending address of the range in GBADVA
(43_cache_control.md R228, 20_memory.md R70, the spec's choice D27; entry 20). -/
def Obligations.VmcacheRangeOperationsFault : Prop :=
  ∀ (s : State) (g : Word), s.self.um = false → s.self.gevb = some g →
    3 ≤ (getReg 0 s).toNat → (getReg 0 s).toNat ≤ 5 →
    (∀ k, k < (getReg 2 s).toNat → CacheAgrees s (byteAt (getReg 1 s) k)) →
    (∀ k, k < (getReg 2 s).toNat →
      WriteOK s (byteAt (getReg 1 s) k) ∨ NotWritable s (byteAt (getReg 1 s) k)) →
    (∃ k, k < (getReg 2 s).toNat ∧ NotWritable s (byteAt (getReg 1 s) k)) →
    ∃ t k, exec .vmcache s = .next t ∧ k < (getReg 2 s).toNat ∧
      NotWritable s (byteAt (getReg 1 s) k) ∧
      t.self.gbadva = byteAt (getReg 1 s) k ∧
      EnteredEvent (.general (.storeProtection (byteAt (getReg 1 s) k))) s.self.pc g s.self t.self ∧
      OnlyChanges entryParts s t

/-- A byte that overwrites another is not guaranteed to be seen by instruction fetches: both contents may be
fetched. After `vmcache` IDSYNC, or DCCLEANINVA followed by ICINVA, a fetch of the executing processor from any
address of the range returns the byte in memory and nothing older, where no cached answer differs from the
walk (43_cache_control.md R224, R225, R226, 20_memory.md R94; entry 11). So it does after the user-level
`dccleana` or `dccleaninva` followed by `icinva`, in either mode (42_trap0_and_base_isa.md R202,
70_reset_and_hazards.md R343; which pages they reach is the model's choice, entry 14). -/
def Obligations.IdsyncMakesFetchesCurrent : Prop :=
  (∀ (a : Nat) (old new : Byte) (s : State), memGet s.lm a = some old → old ≠ new →
    some new ∈ fetchOptions a (writeByte a new s) ∧ some old ∈ fetchOptions a (writeByte a new s)) ∧
  (∀ s : State, s.self.um = false → getReg 0 s = 5#32 ∨ getReg 0 s = 3#32 →
    (∀ k, k < (getReg 2 s).toNat → CacheAgrees s (byteAt (getReg 1 s) k)) →
    (∀ k, k < (getReg 2 s).toNat → WriteOK s (byteAt (getReg 1 s) k)) →
    ∃ t, exec .vmcache s = .next t ∧
      ∃ u, (getReg 0 s = 5#32 → u = t) ∧
        (getReg 0 s = 3#32 → exec .vmcache (setReg 0 4#32 t) = .next u) ∧
        ∀ k x, k < (getReg 2 s).toNat →
          walk s.params s.lm s.self.map (byteAt (getReg 1 s) k) = .answer (.hit x) →
          fetchOptions (xlatAddr x (byteAt (getReg 1 s) k)).toNat u =
            [memGet s.lm (xlatAddr x (byteAt (getReg 1 s) k)).toNat]) ∧
  ∀ (s : State) (op : BaseCacheOp) (va target : Word) (n : Nat), n < 2 ^ 32 →
    op = .dccleana ∨ op = .dccleaninva →
    (∀ k, k < n → CacheAgrees s (byteAt va k)) →
    (∀ k, k < n → ∃ x, Usable s (byteAt va k) x ∧ (x.r = true ∨ x.w = true ∨ x.x = true) ∧
      (s.self.um = true → x.u = true)) →
    ∃ t, runProg (.cache op va n (.cache .icinva va n (.finish target))) s = .ok target t ∧
      OnlyChanges [.stale] s t ∧
      ∀ k x, k < n → walk s.params s.lm s.self.map (byteAt va k) = .answer (.hit x) →
        fetchOptions (xlatAddr x (byteAt va k)).toNat t = [memGet s.lm (xlatAddr x (byteAt va k)).toNat]

/-! ### Memory management (44_memory_management.md, 20_memory.md) -/

/-- `vmnewmap` with a type the VMM implements, an aligned base and, where it validates, a valid map: the map
is switched, the cached translations and unfinished walks are discarded, R0 is 0. With an unknown or
unimplemented type, a misaligned base or, where the VMM validates, an invalid map: R0 is a negative error code
and the map is unchanged (44_memory_management.md R230; the alignment is the spec's choice D39, entry 32). -/
def Obligations.VmnewmapSwitchesTheMapOrFails : Prop :=
  ∀ s : State, s.self.um = false →
    (∀ map, NewmapSelects s map →
      (s.params.validate = true → validMap s.params s.lm map = true) →
      ∃ t, exec .vmnewmap s = .next t ∧ t.self.map = map ∧ t.self.tc = [] ∧ t.self.walks = [] ∧
        getReg 0 t = 0 ∧ t.self.pc = s.self.pc + 4 ∧
        OnlyChanges [.map, .tc, .walks, .reg 0, .pc] s t) ∧
    ((∀ map, ¬NewmapSelects s map) ∨
        (s.params.validate = true ∧
          ∃ map, NewmapSelects s map ∧ validMap s.params s.lm map = false) →
      ∃ t, exec .vmnewmap s = .next t ∧ (getReg 0 t).getLsbD 31 = true ∧
        t.self.pc = s.self.pc + 4 ∧ OnlyChanges [.reg 0, .pc] s t)

/-- Map validation accepts a map exactly when, for every virtual address below the reserved range, the walk meets
no entry at an inaccessible logical address and a valid translation sends its whole page to accessible ones, and,
for a list, the list is finite, whatever its entries match (44_memory_management.md R230, `ValidMap`). That a
list ends at an entry with the reserved size code, and at an inaccessible address, is the model's choice (entry
32). -/
def Obligations.ValidMapChecksEveryAddress : Prop :=
  ∀ (p : Params) (m : Memory) (map : MapSel),
    validMap p m map = true ↔
      (∀ va : Word, va.toNat < 0xFF000000 → walk p m map va ≠ .badLogical ∧
        ∀ x, walk p m map va = .answer (.hit x) → (x.r = true ∨ x.w = true ∨ x.x = true) →
          ∀ k, k < pageBytes x.size → lmOk p (x.page.toNat + k) = true) ∧
      ∀ base, map = .linear base → ListFinite p m base

/-- `vmclrmap` in Guest mode: from the executing and every other processor, exactly the cached translations
of pages that contain a byte of the range are dropped; R0 is 0 and nothing else changes but the executing
processor's own unfinished walks of the range (44_memory_management.md R231; that it reaches every processor
is the spec's reading D11). A walk that another processor began before may still be finished after it and
inserts what it read (R231; entry 10). -/
def Obligations.VmclrmapPurgesExactlyTheRange : Prop :=
  (∀ s : State, s.self.um = false →
    (∀ v ∈ s.self :: s.others, ∀ c ∈ v.tc ++ v.walks, pageBase c.size c.vpage = c.vpage) →
    ∃ t, exec .vmclrmap s = .next t ∧ getReg 0 t = 0 ∧ t.self.pc = s.self.pc + 4 ∧
      (∀ c, c ∈ t.self.tc ↔ c ∈ s.self.tc ∧
        ¬∃ k, k < (getReg 1 s).toNat ∧ covers (byteAt (getReg 0 s) k) c = true) ∧
      (∀ c, c ∈ t.self.walks ↔ c ∈ s.self.walks ∧
        ¬∃ k, k < (getReg 1 s).toNat ∧ covers (byteAt (getReg 0 s) k) c = true) ∧
      List.Forall₂ (fun v w => w = { v with tc := w.tc } ∧
        ∀ c, c ∈ w.tc ↔ c ∈ v.tc ∧
          ¬∃ k, k < (getReg 1 s).toNat ∧ covers (byteAt (getReg 0 s) k) c = true) s.others t.others ∧
      OnlyChanges [.tc, .walks, .others, .reg 0, .pc] s t) ∧
  ∀ (s : State) (v : VP) (k : Nat) (c : Cached), s.others = [v] → s.self.run = .running →
    v.vpid ≠ s.self.vpid → v.walks[k]? = some c → s.self.um = false →
    ∃ t u w, exec .vmclrmap s = .next t ∧ act (.finishWalk v.vpid k) t = .next u ∧ u.others = [w] ∧
      c ∈ w.tc ∧ w.walks = v.walks.eraseIdx k

/-- Where no cached answer differs from the walk, an access raises the protection cause of its kind (0x22, 0x23,
0x11) in the reserved range, with no translation, with an invalid one and without the permission it needs (R
for a load, W for a store, X for a fetch), and the user cause (0x24, 0x25, 0x14) only after that, in User mode
on a page without U (20_memory.md R61, R69, R83, R84; the codes for missing translations and the order are the
spec's choices D12, D13; entry 36). An access that passes all that and reaches an inaccessible logical address, or
whose walk meets an entry at one, raises machine check 0x03 or the protection cause of its kind (R85; that it is
one of the two, as drawn, is the spec's choice D17, entry 22). -/
def Obligations.TranslateRaisesTheCauseOfTheAccessKind : Prop :=
  (∀ va, generalCode (protCause .load va) = 0x22 ∧ generalCode (protCause .store va) = 0x23 ∧
    generalCode (protCause .fetch va) = 0x11 ∧ generalCode (userCause .load va) = 0x24 ∧
    generalCode (userCause .store va) = 0x25 ∧ generalCode (userCause .fetch va) = 0x14) ∧
  ∀ (acc : AccessKind) (va : Word) (n : Nat) (s : State),
    (0xFF000000 ≤ va.toNat →
      translate acc va n s = .raise (.general (protCause acc va)) s) ∧
    (va.toNat < 0xFF000000 → CacheAgrees s va →
      (walk s.params s.lm s.self.map va = .answer .noTranslation ∨
        walk s.params s.lm s.self.map va = .answer .invalid ∨
        (∃ x, walk s.params s.lm s.self.map va = .answer (.hit x) ∧
          ((x.r = false ∧ x.w = false ∧ x.x = false) ∨ (x.t = false ∧ ¬Permits acc x))) →
        ∃ s1, translate acc va n s = .raise (.general (protCause acc va)) s1 ∧
          OnlyChanges [.tc] s s1) ∧
      ∀ x, walk s.params s.lm s.self.map va = .answer (.hit x) → x.t = false →
        Permits acc x → s.self.um = true → x.u = false →
        ∃ s1, translate acc va n s = .raise (.general (userCause acc va)) s1 ∧
          OnlyChanges [.tc] s s1) ∧
    (va.toNat < 0xFF000000 → CacheAgrees s va →
      (walk s.params s.lm s.self.map va = .badLogical ∨
        ∃ x, walk s.params s.lm s.self.map va = .answer (.hit x) ∧ x.t = false ∧ Permits acc x ∧
          (s.self.um = true → x.u = true) ∧ lmOkRange s.params (xlatAddr x va) n = false) →
      ∃ s1, (translate acc va n s = .raise (.machineCheck .badMapping) s1 ∨
          translate acc va n s = .raise (.general (protCause acc va)) s1) ∧
        OnlyChanges [.tc] s s1)

/-- Where no cached answer differs from the walk, an access with a translation that has the permission it needs
(R, W or X), in accessible logical memory and with a defined cache attribute and no conflicting alias, reaches
the logical address of the translation; `U` is not consulted in Guest mode, which is the spec's choice D14
(20_memory.md R69, R71, R83; entry 36). Whatever is cached, a granted access reaches the address that the walk
or a cached member covering it gives, by a translation that permits the access (R70). -/
def Obligations.TranslateGrantsAPermittedAccess : Prop :=
  (∀ (acc : AccessKind) (va : Word) (n : Nat) (s : State) (x : Xlat), Granted s acc va n x →
    ∃ s1, translate acc va n s = .ok { la := xlatAddr x va, c := x.c } s1 ∧ OnlyChanges [.tc] s s1) ∧
  ∀ (acc : AccessKind) (va : Word) (n : Nat) (s s1 : State) (a : Located),
    translate acc va n s = .ok a s1 →
    va.toNat < 0xFF000000 ∧ OnlyChanges [.tc] s s1 ∧
      ∃ x, (walk s.params s.lm s.self.map va = .answer (.hit x) ∨
          ∃ c ∈ s.self.tc, covers va c = true ∧ c.answer = .hit x) ∧
        a.la = xlatAddr x va ∧ a.c = x.c ∧ Permits acc x ∧ x.t = false ∧
        (s.self.um = true → x.u = true) ∧ lmOkRange s.params a.la n = true

/-- 20_memory.md R82: the logical address of a table translation of size code `z` is the entry's bits from
`12+2z` up, with the virtual address's bits below them; lower page number bits of the entry are ignored. -/
def Obligations.PageSizeSelectsTheLogicalPageBits : Prop :=
  ∀ (z : SizeCode) (e va : Word),
    (xlatAddr (termXlat z e) va).toNat =
      e.toNat / 2 ^ (12 + 2 * z.val) * 2 ^ (12 + 2 * z.val) + va.toNat % 2 ^ (12 + 2 * z.val)

/-- A walk of a page table reads the L1 entry at `base + 4*va[31:22]` and, for a directory entry, the L2
entry at the table address plus `4*va[21:12+2S]`; an entry with S = 7 is invalid. The entry that gives the
translation has X in bit 11, W in 10, R in 9, C in 8:6, U in 5 and T in 4 (20_memory.md R77, R78, R81; the
alignment of tables is the spec's choice D16). -/
def Obligations.TableWalkReadsOneEntryPerLevel : Prop :=
  ∀ (p : Params) (m : Memory) (base va e1 e2 t2 : Word),
    lmRead p m (base + BitVec.ofNat 32 (4 * (va.toNat / 2 ^ 22))) 4 = .bytes (bytesOfWord e1) →
    (e1.toNat % 8 = 7 → walk p m (.tables base) va = .answer .invalid) ∧
    (∀ z : SizeCode, e1.toNat % 8 = z.val → 5 ≤ z.val →
      ∃ x, walk p m (.tables base) va = .answer (.hit x) ∧ PteFields z e1 x) ∧
    ∀ z : SizeCode, e1.toNat % 8 = z.val → z.val ≤ 4 →
      t2.toNat = e1.toNat / 2 ^ (12 - 2 * z.val) * 2 ^ (12 - 2 * z.val) →
      lmRead p m (t2 + BitVec.ofNat 32 (4 * (va.toNat % 2 ^ 22 / 2 ^ (12 + 2 * z.val)))) 4 =
        .bytes (bytesOfWord e2) →
      ∃ x, walk p m (.tables base) va = .answer (.hit x) ∧ PteFields z e2 x

/-- A linear list whose first entry is a link is walked from the link's address; one whose first entry is
the terminator translates nothing; one whose first entry matches gives that translation
(20_memory.md R72, R73, R75). That the first match wins and that page number bits below the page size are
ignored is the spec's choice D15 (entry 21). The walk of a list map is that loop over one entry more than there
are addresses. -/
def Obligations.ListWalkFollowsLinksAndFirstMatch : Prop :=
  (∀ (p : Params) (m : Memory) (va ptr : Word) (fuel : Nat) (bs : List Byte) (e : DWord),
    lmRead p m ptr 8 = .bytes bs → e = BitVec.ofNat 64 (leNat bs) →
    (e = 0 → listWalk p m va (fuel + 1) ptr = .answer .noTranslation) ∧
    (e.getLsbD 63 = true →
      listWalk p m va (fuel + 1) ptr = listWalk p m va fuel (e.extractLsb' 0 32)) ∧
    ∀ z : SizeCode, e ≠ 0 → e.getLsbD 63 = false → (e.extractLsb' 52 3).toNat = z.val →
      (va.toNat / 2 ^ (12 + 2 * z.val) = (e.extractLsb' 32 20).toNat / 2 ^ (2 * z.val) →
        ∃ x, listWalk p m va (fuel + 1) ptr = .answer (.hit x) ∧
          (xlatAddr x va).toNat = (e.extractLsb' 0 20).toNat / 2 ^ (2 * z.val) * 2 ^ (12 + 2 * z.val) +
            va.toNat % 2 ^ (12 + 2 * z.val) ∧
          x.x = e.getLsbD 31 ∧ x.w = e.getLsbD 30 ∧ x.r = e.getLsbD 29 ∧ x.u = e.getLsbD 28 ∧
          x.c = e.extractLsb' 24 4 ∧ x.t = false) ∧
      (va.toNat / 2 ^ (12 + 2 * z.val) ≠ (e.extractLsb' 32 20).toNat / 2 ^ (2 * z.val) →
        listWalk p m va (fuel + 1) ptr = listWalk p m va fuel (ptr + 8))) ∧
  ∀ (p : Params) (m : Memory) (va base : Word),
    walk p m (.linear base) va = listWalk p m va (2 ^ 32 + 1) base

/-- A list is reported endless exactly when it is: the loop of 20_memory.md R72 runs through any number of its
entries without an end (R72, the spec's choice D15; entry 21). -/
def Obligations.EndlessListsAreReallyEndless : Prop :=
  ∀ (p : Params) (m : Memory) (va base : Word),
    walk p m (.linear base) va = .stop (.refused .endlessList) ↔
    ∀ fuel, listWalk p m va fuel base = .stop (.refused .endlessList)

/-- The bytes of a logical store are read back little-endian, narrower reads see the bytes of the layout, and
every other byte of memory is unchanged (20_memory.md R62, R63, R64; the byte order is PRESUMED by the spec,
entry 17). -/
def Obligations.LogicalStoreIsReadBackLittleEndian : Prop :=
  ∀ (s : State) (la : Word) (n v : Nat), n ≤ 8 →
    (∀ k, k < n → memGet (lmWrite la n v s).lm (byteAt la k).toNat =
      some (BitVec.ofNat 8 (v / 256 ^ k))) ∧
    (∀ a, (∀ k, k < n → a ≠ (byteAt la k).toNat) →
      memGet (lmWrite la n v s).lm a = memGet s.lm a) ∧
    (lmOkRange s.params la n = true →
      lmRead s.params (lmWrite la n v s).lm la n = .bytes (leBytes n v) ∧
      leNat (leBytes n v) = v % 256 ^ n)

/-- A misaligned load, store or fetch raises 0x20, 0x21 or 0x1C before anything is translated
(20_memory.md R65, R66; the alignments are PRESUMED, entry 18; the spec's choice D13 puts 0x1C first). A granted
aligned load returns the bytes at the translated logical address, lowest address first, and a granted aligned
store writes exactly those bytes and no others (R63, R66; the byte order is PRESUMED by the spec, entry 17). -/
def Obligations.DataAccessesAlignAndMoveTheirBytes : Prop :=
  ∀ (va : Word) (z : AccessSize) (v : DWord) (s : State),
    (va.toNat % accessBytes z ≠ 0 →
      memRead va z s = .raise (.general (.misalignedLoad va)) s ∧
      memWrite va z v s = .raise (.general (.misalignedStore va)) s) ∧
    (va.toNat % 4 ≠ 0 → fetch va s = .raise (.general .misalignedPc) s) ∧
    ∀ x, va.toNat % accessBytes z = 0 →
      (Granted s .load va (accessBytes z) x →
        ∃ r s1, memRead va z s = .ok r s1 ∧ r < 256 ^ accessBytes z ∧
          (∀ k, k < accessBytes z →
            BitVec.ofNat 8 (r / 256 ^ k) = readByte s.lm (byteAt (xlatAddr x va) k).toNat) ∧
          OnlyChanges [.tc] s s1) ∧
      (Granted s .store va (accessBytes z) x →
        ∃ s1, memWrite va z v s = .ok () s1 ∧
          (∀ k, k < accessBytes z →
            memGet s1.lm (byteAt (xlatAddr x va) k).toNat = some (BitVec.ofNat 8 (v.toNat / 256 ^ k))) ∧
          (∀ a, (∀ k, k < accessBytes z → a ≠ (byteAt (xlatAddr x va) k).toNat) →
            memGet s1.lm a = memGet s.lm a) ∧
          OnlyChanges [.tc, .memory, .stale] s s1)

/-! ### Processor management (45_processor_management.md) and environment (46_environment.md) -/

/-- In Guest mode `vmgettime` puts one sample of the timer in R1 : R0, and `vmsettime` sets the timer to
R1 : R0 (45_processor_management.md R240, R241; which timer is the parameter TIMER_SCOPE, D24, entry 24). -/
def Obligations.VmgettimeAndVmsettimeMoveTheTimer : Prop :=
  ∀ s : State, s.self.um = false →
    (∃ t, exec .vmgettime s = .next t ∧
      getReg 1 t ++ getReg 0 t = (if s.params.timerPerVp then s.self.timer else s.timer) ∧
      t.self.pc = s.self.pc + 4 ∧ OnlyChanges [.reg 0, .reg 1, .pc] s t) ∧
    (s.params.timerPerVp = false →
      ∃ t, exec .vmsettime s = .next t ∧ t.timer = getReg 1 s ++ getReg 0 s ∧
        t.self.pc = s.self.pc + 4 ∧ OnlyChanges [.timer, .pc] s t) ∧
    (s.params.timerPerVp = true →
      ∃ t, exec .vmsettime s = .next t ∧ t.self.timer = getReg 1 s ++ getReg 0 s ∧
        t.self.pc = s.self.pc + 4 ∧ OnlyChanges [.ownTimer, .pc] s t)

/-- A timer value set, advanced by the environment and read again is the value set plus the advance, modulo
2^64 (45_processor_management.md R240, R241, 60_exceptions.md R280; entry 24). -/
def Obligations.TimerReadsTheSetValuePlusTheAdvance : Prop :=
  ∀ (s : State) (d : DWord), s.self.um = false → s.self.run = .running →
    ∃ t u v, exec .vmsettime s = .next t ∧ act (.tick s.self.vpid d) t = .next u ∧
      exec .vmgettime u = .next v ∧ getReg 1 v ++ getReg 0 v = (getReg 1 s ++ getReg 0 s) + d

/-- `vmwait` in Guest mode: the processor waits at the `vmwait`; nothing else changes
(45_processor_management.md R242; entry 26). -/
def Obligations.VmwaitSuspendsTheProcessor : Prop :=
  ∀ s : State, s.self.um = false →
    ∃ t, exec .vmwait s = .next t ∧ t.self.run = .waiting ∧ OnlyChanges [.run] s t

/-- The wake-up of a waiting processor with an eligible interrupt, the number of some eligible one in R0. With
interrupts disabled it runs at the next packet and nothing is taken. With interrupts enabled, in Guest mode,
the least eligible interrupt is taken in the same step, with the packet after the `vmwait` as link; without a
vector table the processor stops, with the interrupt's pending bit and global enable cleared
(45_processor_management.md R242, 60_exceptions.md R281, R285, R286). That waking ignores IE, that nothing is
taken with IE = 0 and that wake and delivery are one step is the spec's choice D23 (entry 26). -/
def Obligations.WakeResumesOrTakesTheInterrupt : Prop :=
  ∀ (s : State) (n : Nat), s.self.run = .waiting → s.params.numInt ≤ 2 ^ 16 →
    nextInt s s.self.len = some n →
    (s.self.ie = false →
      ∃ t, act (.wake s.self.vpid) s = .next t ∧ t.self.run = .running ∧
        t.self.pc = s.self.pc + 4 ∧ eligible s s.self.len (getReg 0 t).toNat = true ∧
        OnlyChanges [.run, .reg 0, .pc] s t) ∧
    (∀ g, s.self.ie = true → s.self.um = false → s.self.gevb = some g →
      ∃ t, act (.wake s.self.vpid) s = .next t ∧ t.self.run = .running ∧
        eligible s s.self.len (getReg 0 t).toNat = true ∧
        t.self.gelr = s.self.pc + 4 ∧ t.self.gsr = 0x40000000#32 + BitVec.ofNat 32 n ∧
        t.self.ie = false ∧ t.self.recorded = true ∧ t.self.pc = g + 28#32 ∧
        hasBit t.pending n = false ∧ hasBit t.gen n = false ∧
        (∀ j, j ≠ n → hasBit t.pending j = hasBit s.pending j ∧ hasBit t.gen j = hasBit s.gen j) ∧
        OnlyChanges [.run, .reg 0, .pc, .gelr, .gsr, .gbadva, .ie, .recorded, .pending, .gen] s t) ∧
    (s.self.ie = true → s.self.gevb = none →
      ∃ t, act (.wake s.self.vpid) s = .next t ∧ live t = s.others ∧
        hasBit t.pending n = false ∧ hasBit t.gen n = false ∧
        (∀ j, j ≠ n → hasBit t.pending j = hasBit s.pending j ∧ hasBit t.gen j = hasBit s.gen j) ∧
        OnlyChanges [.run, .reg 0, .stale, .pending, .gen] s t)

/-- Delivery of an interrupt to a running processor: the least eligible one is taken, its pending bit and
global enable are cleared with the entry in one step, GELR is the packet that would have been next, and the
interrupt is eligible for no processor afterwards; without a vector table the processor stops, the bits
cleared all the same (60_exceptions.md R281, R284, R286). A machine check of the environment on a running or
waiting processor: the entry with the packet that would have been next as link, in a processor that runs;
without a vector table every processor stops (R279, R286, the spec's choice D33; entry 28). -/
def Obligations.InterruptsAndMachineChecksAreDelivered : Prop :=
  (∀ (s : State) (n : Nat), s.self.run = .running → s.self.ie = true → nextInt s s.self.len = some n →
    ∃ t, act (.deliver s.self.vpid) s = .next t ∧
      (∀ len, eligible t len n = false) ∧
      hasBit t.pending n = false ∧ hasBit t.gen n = false ∧
      (∀ j, j ≠ n → hasBit t.pending j = hasBit s.pending j ∧ hasBit t.gen j = hasBit s.gen j) ∧
      (∀ g, s.self.gevb = some g → EnteredEvent (.interrupt n) s.self.pc g s.self t.self ∧
        OnlyChanges (.pending :: .gen :: entryParts) s t) ∧
      (s.self.gevb = none → live t = s.others ∧ OnlyChanges [.run, .stale, .pending, .gen] s t)) ∧
  ∀ (s : State) (c : McCause), s.self.run = .running ∨ s.self.run = .waiting → c ≠ .badMapping →
    ∃ t, act (.machineCheck s.self.vpid c) s = .next t ∧
      (∀ g, s.self.gevb = some g → t.self.run = .running ∧ t.self.mch = true ∧
        EnteredEvent (.machineCheck c) s.self.pc g s.self t.self ∧
        OnlyChanges (.run :: entryParts) s t) ∧
      (s.self.gevb = none → live t = [] ∧ OnlyChanges [.run, .others] s t)

/-- 45_processor_management.md R243: `vmyield`'s word; in Guest mode only pc advances; in User mode the
privilege violation. -/
def Obligations.VmyieldOnlyAdvances : Prop :=
  encode .vmyield = 0x5480C204#32 ∧
  (∀ w : Word, decodeWord w = .ok .vmyield ↔ w &&& 0xFF801F1C#32 = 0x54800204#32) ∧
  ∀ s : State,
    (s.self.um = false →
      ∃ t, exec .vmyield s = .next t ∧ t.self.pc = s.self.pc + 4 ∧ OnlyChanges [.pc] s t) ∧
    (s.self.um = true → exec .vmyield s = .next (raiseHere (.general .privilege) s))

/-- `vmstart` in Guest mode. With a free identifier: a running processor in Guest mode with interrupts
disabled, no vector table and no cached translations appears, with the creator's R0 as pc, R1 as R29 and its
map; its identifier was free and is returned in R0. With every identifier in use: R0 is -1 and no processor
appears (45_processor_management.md R244; the identifier is the environment's choice, the condition of
failure the spec's choice D25, the vector table D9; entry 25). -/
def Obligations.VmstartCreatesAProcessorOrFails : Prop :=
  ∀ s : State, s.self.um = false → s.params.maxVp ≤ 2 ^ 32 - 1 →
    ((∃ k, k < s.params.maxVp ∧ ∀ v ∈ live s, v.vpid.toNat ≠ k) →
      ∃ t q, exec .vmstart s = .next t ∧ t.others = s.others ++ [q] ∧
        q.vpid.toNat < s.params.maxVp ∧ (∀ v ∈ live s, v.vpid ≠ q.vpid) ∧ getReg 0 t = q.vpid ∧
        q.run = .running ∧ q.pc = getReg 0 s ∧ q.regs[29] = getReg 1 s ∧ q.um = false ∧ q.ie = false ∧
        q.gevb = none ∧ q.map = s.self.map ∧ q.tc = [] ∧ q.walks = [] ∧ q.mch = false ∧
        q.recorded = false ∧
        t.self.pc = s.self.pc + 4 ∧ OnlyChanges [.others, .reg 0, .pc] s t) ∧
    ((∀ k, k < s.params.maxVp → ∃ v ∈ live s, v.vpid.toNat = k) →
      ∃ t, exec .vmstart s = .next t ∧ getReg 0 t = 0xFFFFFFFF#32 ∧ t.self.pc = s.self.pc + 4 ∧
        OnlyChanges [.reg 0, .pc] s t)

/-- `vmstop` in Guest mode: the executing processor leaves the machine, the others and everything shared are
unchanged; when none is left no further step exists (45_processor_management.md R245, the spec's choice D26;
entry 27). -/
def Obligations.VmstopEndsTheProcessor : Prop :=
  ∀ s : State, s.self.um = false →
    ∃ t, exec .vmstop s = .next t ∧ live t = s.others ∧ OnlyChanges [.run, .stale] s t ∧
      (s.others = [] → step t = .fault .terminated)

/-- 45_processor_management.md R246: `vmvpid`'s word, result and privilege violation; the identifier is below
MAX_VP, is never -1, and is 0 on the initial processor. -/
def Obligations.VmvpidReturnsTheIdentifier : Prop :=
  encode .vmvpid = 0x5480C210#32 ∧
  (∀ w : Word, decodeWord w = .ok .vmvpid ↔ w &&& 0xFF801F1C#32 = 0x54800210#32) ∧
  (∀ s : State,
    (s.self.um = false →
      ∃ t, exec .vmvpid s = .next t ∧ getReg 0 t = s.self.vpid ∧ t.self.pc = s.self.pc + 4 ∧
        OnlyChanges [.reg 0, .pc] s t) ∧
    (s.self.um = true → exec .vmvpid s = .next (raiseHere (.general .privilege) s)) ∧
    (MachineInv s → s.self.vpid.toNat < s.params.maxVp ∧ s.self.vpid ≠ 0xFFFFFFFF#32)) ∧
  ∀ entry sp, (VP.initial entry sp).vpid = 0

/-- `vmversion` in Guest mode: VER and R0 become the requested version if the VMM can conform to it, and
otherwise some version it can conform to; a request for this spec's version succeeds. Once a machine with a
live processor conforms to another version, no step has a meaning here (46_environment.md R260, the spec's
choice D28; entry 23). -/
def Obligations.VmversionConformsToTheRequest : Prop :=
  (∀ s : State, s.self.um = false →
    ∃ t, exec .vmversion s = .next t ∧ getReg 0 t = t.ver ∧ t.ver ∈ versions s.params ∧
      (getReg 0 s ∈ versions s.params → t.ver = getReg 0 s) ∧
      (getReg 0 s = 0x700#32 → t.ver = 0x700#32) ∧
      t.self.pc = s.self.pc + 4 ∧ OnlyChanges [.ver, .reg 0, .pc] s t) ∧
  ∀ s : State, live s ≠ [] → s.ver ≠ 0x700#32 → step s = .refused (.otherVersion s.ver)

/-! ### The machine -/

/-- A step runs the decoded instruction: when the executing processor runs, no action of the environment
comes first and the bytes fetched at pc decode to an instruction in a one-word packet, the step is `exec` of
that instruction, in the state before it but for translations cached and free values read by the fetch; the
instruction is well formed. A base word's packet is `BaseISA`'s. A fetch that faults is the event it raises
(42_trap0_and_base_isa.md R201; entries 7, 14). -/
def Obligations.StepRunsTheDecodedInstruction : Prop :=
  ∀ s s1 : State, s.self.run = .running → s.ver = 0x700#32 → s.agenda = [] →
    (∀ b0 b1 b2 b3 rest i, fetch s.self.pc s = .ok (b0 :: b1 :: b2 :: b3 :: rest) s1 →
      decode (b0 :: b1 :: b2 :: b3 :: rest) = .ok (i, rest) →
      soloParse (wordOfBytes b0 b1 b2 b3) = true →
      i.wf = true ∧ step s = exec i s1 ∧ OnlyChanges [.tc] s s1) ∧
    (∀ bs w, fetch s.self.pc s = .ok bs s1 → decode bs = .error (.baseInstruction w) →
      step s = basePacket w s1 ∧ OnlyChanges [.tc] s s1) ∧
    ∀ e, fetch s.self.pc s = .raise e s1 →
      step s = .next (raiseHere e s1) ∧ OnlyChanges [.tc] s s1

/-- A granted fetch from an aligned address, where nothing stored is waiting to be seen by fetches, returns the
four bytes that memory holds at the translated logical address, lowest address first (20_memory.md R63, R66,
R94; the byte order is PRESUMED by the spec, entry 17). -/
def Obligations.FetchReturnsTheMappedBytes : Prop :=
  ∀ (s : State) (va : Word) (x : Xlat), va.toNat % 4 = 0 → Granted s .fetch va 4 x →
    (∀ k, k < 4 → fetchOptions (byteAt (xlatAddr x va) k).toNat s =
      [memGet s.lm (byteAt (xlatAddr x va) k).toNat]) →
    ∃ s1, fetch va s = .ok ((List.range 4).map fun k => readByte s.lm (byteAt (xlatAddr x va) k).toNat) s1 ∧
      OnlyChanges [.tc] s s1

/-- The state in which a virtual machine starts meets the invariant, as does the one instance taken as the
state after reset (10_state.md R44, 70_reset_and_hazards.md R330; the values are the model's where R44 leaves
them undefined: entries 1 to 5). -/
def Obligations.ResetMeetsTheMachineInvariant : Prop :=
  MachineInv State.reset ∧
  ∀ (p : Params) (entry sp : Word) (image : Memory), paramsOk p = true → Memory.wf image →
    (∀ c ∈ image, lmOk p c.1 = true) → MachineInv (State.initial p entry sp image)

/-- Every step keeps the invariant: memory stays in canonical form and in accessible addresses, processors
keep distinct identifiers below MAX_VP, only valid interrupts are pending or enabled, vector tables stay
acceptable, cached translations stay whole pages, and no processor waits in User mode
(10_state.md R33, R34, R35, R36, R39). -/
def Obligations.EveryStepKeepsTheMachineInvariant : Prop :=
  ∀ s t : State, MachineInv s → step s = .next t → MachineInv t

/-- The mode of a processor changes in two ways only: from User to Guest by an event, at a vector of its
table, with interrupts disabled and R29 and GOSP exchanged; and from Guest to User by `vmrte`, to GELR with
the mode and enable of GSR and the same exchange, which an event or `vmsetregs` wrote (40_event_management.md
R153). A processor that was not there before is in Guest mode (60_exceptions.md R302, 10_state.md R29). -/
def Obligations.ModeChangesOnlyByEventsAndVmrte : Prop :=
  ∀ s t : State, MachineInv s → step s = .next t → ∀ w ∈ live t,
    ((∀ v ∈ live s, v.vpid ≠ w.vpid) ∧ w.um = false ∧ w.ie = false) ∨
    ∃ v ∈ live s, v.vpid = w.vpid ∧
      (w.um = v.um ∨
        (v.um = true ∧ w.um = false ∧ w.ie = false ∧
          (∃ g n, v.gevb = some g ∧ n ∈ [1, 2, 5, 7] ∧ w.pc = g + BitVec.ofNat 32 (4 * n)) ∧
          gsrUm w.gsr = true ∧ w.regs[29] = v.gosp ∧ w.gosp = v.regs[29]) ∨
        (v.um = false ∧ w.um = true ∧ v.recorded = true ∧ gsrUm v.gsr = true ∧ w.ie = gsrIe v.gsr ∧
          w.pc = v.gelr ∧ w.regs[29] = v.gosp ∧ w.gosp = v.regs[29]))

/-- A packet executed in User mode, of this model or of any base instruction set, reaches nothing that
Guest mode owns: the vector base, the map, the local enables, the interrupt controller, the timer, the
version and the other processors are unchanged, every byte of memory is unchanged outside the pages that User
mode may write (those with U and W), and while it stays in User mode so are the event registers and the
interrupt enable (60_exceptions.md R301; that a base packet reaches memory only through `MemRead`, `MemWrite`,
`Fetch` and user-level cache instructions on pages with U is the form given to `BaseISA`, entry 14). The
processor has a vector table. -/
def Obligations.UserModePacketsCannotReachGuestState : Prop :=
  ∀ (s t : State) (g : Word) (A : Nat → Prop), MachineInv s → s.self.um = true → s.self.gevb = some g →
    HoldsUserPages s A → packet s = .next t →
    sameAt s t .gevb ∧ sameAt s t .map ∧ sameAt s t .len ∧ sameAt s t .vpid ∧ sameAt s t .ownTimer ∧
    sameAt s t .others ∧ sameAt s t .pending ∧ sameAt s t .gen ∧ sameAt s t .timer ∧ sameAt s t .ver ∧
    sameAt s t .params ∧ sameAt s t .agenda ∧ sameAt s t .run ∧
    (∀ a, ¬A a → memGet t.lm a = memGet s.lm a) ∧
    (t.self.um = true → sameAt s t .gelr ∧ sameAt s t .gsr ∧ sameAt s t .gosp ∧
      sameAt s t .gbadva ∧ sameAt s t .ie ∧ sameAt s t .mch ∧ sameAt s t .recorded)

/-- A base packet that raises an exception, whatever it did before, has no other effect: registers, memory,
cached translations and all the rest are as before, but for the event record, whose GELR is the packet's address
and whose GBADVA is the data address of a faulting load or store, 0x20 to 0x25 (10_state.md R27, 60_exceptions.md
R284) (42_trap0_and_base_isa.md R201, the spec's choice D1; entry 14, which also says why GELR is the packet's address
when the packet itself requests 0x1C). A base packet that completes continues at its target. -/
def Obligations.FaultingBasePacketsHaveNoOtherEffect : Prop :=
  ∀ (b : BasePacket) (g : Word) (s s1 : State), s.self.gevb = some g →
    (∀ e, runPacket b s = .raise e s1 →
      ∃ t, baseProgram b s = .next t ∧
        EnteredEvent e s.self.pc g s.self t.self ∧
        (∀ va, eventBadva e = some va → t.self.gbadva = va) ∧ OnlyChanges entryParts s t) ∧
    ∀ target, runPacket b s = .ok target s1 →
      ∃ t, baseProgram b s = .next t ∧ t.self.pc = target ∧ OnlyChanges [.pc] s1 t ∧
        OnlyChanges ([.pc, .tc, .other, .memory, .stale] ++ (List.finRange 32).map Part.reg) s t

/-- No instruction of this model writes a byte of memory, takes part in another processor's registers, or
changes the parameters (42_trap0_and_base_isa.md R207, 10_state.md R21, R41). -/
def Obligations.InstructionsWriteNoMemory : Prop :=
  ∀ (i : Instr) (s t : State), exec i s = .next t →
    sameAt s t .memory ∧ sameAt s t .params ∧ sameAt s t .agenda ∧ sameAt s t .vpid ∧ sameAt s t .other ∧
    ∀ w ∈ t.others, (∃ v ∈ s.others, w = { v with tc := w.tc, len := w.len }) ∨
      (i = .vmstart ∧ w.run = .running ∧ w.um = false)

/-- Only `vmintop` GLOBEN re-enables an interrupt globally: an interrupt that is disabled stays disabled
through every other instruction (60_exceptions.md R282). -/
def Obligations.OnlyGlobenReenablesAnInterrupt : Prop :=
  ∀ (i : Instr) (s t : State) (n : Nat), exec i s = .next t → hasBit s.gen n = false →
    hasBit t.gen n = true → i = .vmintop ∧ getReg 0 s = 1#32 ∧ (getReg 1 s).toNat = n
end

