-- ==== Sys2Proof/Laws/State.lean ====
section
/-! SUPPORT. Laws/State.lean: one lemma per field per update, so that no later proof unfolds a record
update. -/

namespace Sys2Proof.Machine

/-! ### setReg -/

@[simp] theorem setReg_params (i : Fin 32) (v : Word) (s : State) : (setReg i v s).params = s.params := rfl
@[simp] theorem setReg_others (i : Fin 32) (v : Word) (s : State) : (setReg i v s).others = s.others := rfl
@[simp] theorem setReg_pending (i : Fin 32) (v : Word) (s : State) : (setReg i v s).pending = s.pending := rfl
@[simp] theorem setReg_gen (i : Fin 32) (v : Word) (s : State) : (setReg i v s).gen = s.gen := rfl
@[simp] theorem setReg_timer (i : Fin 32) (v : Word) (s : State) : (setReg i v s).timer = s.timer := rfl
@[simp] theorem setReg_lm (i : Fin 32) (v : Word) (s : State) : (setReg i v s).lm = s.lm := rfl
@[simp] theorem setReg_stale (i : Fin 32) (v : Word) (s : State) : (setReg i v s).stale = s.stale := rfl
@[simp] theorem setReg_ver (i : Fin 32) (v : Word) (s : State) : (setReg i v s).ver = s.ver := rfl
@[simp] theorem setReg_agenda (i : Fin 32) (v : Word) (s : State) : (setReg i v s).agenda = s.agenda := rfl
@[simp] theorem setReg_free (i : Fin 32) (v : Word) (s : State) : (setReg i v s).free = s.free := rfl

@[simp] theorem setReg_self_vpid (i : Fin 32) (v : Word) (s : State) : (setReg i v s).self.vpid = s.self.vpid := rfl
@[simp] theorem setReg_self_run (i : Fin 32) (v : Word) (s : State) : (setReg i v s).self.run = s.self.run := rfl
@[simp] theorem setReg_self_pc (i : Fin 32) (v : Word) (s : State) : (setReg i v s).self.pc = s.self.pc := rfl
@[simp] theorem setReg_self_gelr (i : Fin 32) (v : Word) (s : State) : (setReg i v s).self.gelr = s.self.gelr := rfl
@[simp] theorem setReg_self_gsr (i : Fin 32) (v : Word) (s : State) : (setReg i v s).self.gsr = s.self.gsr := rfl
@[simp] theorem setReg_self_gosp (i : Fin 32) (v : Word) (s : State) : (setReg i v s).self.gosp = s.self.gosp := rfl
@[simp] theorem setReg_self_gbadva (i : Fin 32) (v : Word) (s : State) : (setReg i v s).self.gbadva = s.self.gbadva := rfl
@[simp] theorem setReg_self_gevb (i : Fin 32) (v : Word) (s : State) : (setReg i v s).self.gevb = s.self.gevb := rfl
@[simp] theorem setReg_self_um (i : Fin 32) (v : Word) (s : State) : (setReg i v s).self.um = s.self.um := rfl
@[simp] theorem setReg_self_ie (i : Fin 32) (v : Word) (s : State) : (setReg i v s).self.ie = s.self.ie := rfl
@[simp] theorem setReg_self_map (i : Fin 32) (v : Word) (s : State) : (setReg i v s).self.map = s.self.map := rfl
@[simp] theorem setReg_self_tc (i : Fin 32) (v : Word) (s : State) : (setReg i v s).self.tc = s.self.tc := rfl
@[simp] theorem setReg_self_len (i : Fin 32) (v : Word) (s : State) : (setReg i v s).self.len = s.self.len := rfl
@[simp] theorem setReg_self_mch (i : Fin 32) (v : Word) (s : State) : (setReg i v s).self.mch = s.self.mch := rfl
@[simp] theorem setReg_self_walks (i : Fin 32) (v : Word) (s : State) : (setReg i v s).self.walks = s.self.walks := rfl
@[simp] theorem setReg_self_recorded (i : Fin 32) (v : Word) (s : State) : (setReg i v s).self.recorded = s.self.recorded := rfl
@[simp] theorem setReg_self_other (i : Fin 32) (v : Word) (s : State) : (setReg i v s).self.other = s.self.other := rfl
@[simp] theorem setReg_self_timer (i : Fin 32) (v : Word) (s : State) : (setReg i v s).self.timer = s.self.timer := rfl
@[simp] theorem setReg_self_regs (i : Fin 32) (v : Word) (s : State) : (setReg i v s).self.regs = s.self.regs.set i v := rfl

/-! ### setPc -/

@[simp] theorem setPc_params (t : Word) (s : State) : (setPc t s).params = s.params := rfl
@[simp] theorem setPc_others (t : Word) (s : State) : (setPc t s).others = s.others := rfl
@[simp] theorem setPc_pending (t : Word) (s : State) : (setPc t s).pending = s.pending := rfl
@[simp] theorem setPc_gen (t : Word) (s : State) : (setPc t s).gen = s.gen := rfl
@[simp] theorem setPc_timer (t : Word) (s : State) : (setPc t s).timer = s.timer := rfl
@[simp] theorem setPc_lm (t : Word) (s : State) : (setPc t s).lm = s.lm := rfl
@[simp] theorem setPc_stale (t : Word) (s : State) : (setPc t s).stale = s.stale := rfl
@[simp] theorem setPc_ver (t : Word) (s : State) : (setPc t s).ver = s.ver := rfl
@[simp] theorem setPc_agenda (t : Word) (s : State) : (setPc t s).agenda = s.agenda := rfl
@[simp] theorem setPc_free (t : Word) (s : State) : (setPc t s).free = s.free := rfl

@[simp] theorem setPc_self_vpid (t : Word) (s : State) : (setPc t s).self.vpid = s.self.vpid := rfl
@[simp] theorem setPc_self_run (t : Word) (s : State) : (setPc t s).self.run = s.self.run := rfl
@[simp] theorem setPc_self_regs (t : Word) (s : State) : (setPc t s).self.regs = s.self.regs := rfl
@[simp] theorem setPc_self_gelr (t : Word) (s : State) : (setPc t s).self.gelr = s.self.gelr := rfl
@[simp] theorem setPc_self_gsr (t : Word) (s : State) : (setPc t s).self.gsr = s.self.gsr := rfl
@[simp] theorem setPc_self_gosp (t : Word) (s : State) : (setPc t s).self.gosp = s.self.gosp := rfl
@[simp] theorem setPc_self_gbadva (t : Word) (s : State) : (setPc t s).self.gbadva = s.self.gbadva := rfl
@[simp] theorem setPc_self_gevb (t : Word) (s : State) : (setPc t s).self.gevb = s.self.gevb := rfl
@[simp] theorem setPc_self_um (t : Word) (s : State) : (setPc t s).self.um = s.self.um := rfl
@[simp] theorem setPc_self_ie (t : Word) (s : State) : (setPc t s).self.ie = s.self.ie := rfl
@[simp] theorem setPc_self_map (t : Word) (s : State) : (setPc t s).self.map = s.self.map := rfl
@[simp] theorem setPc_self_tc (t : Word) (s : State) : (setPc t s).self.tc = s.self.tc := rfl
@[simp] theorem setPc_self_len (t : Word) (s : State) : (setPc t s).self.len = s.self.len := rfl
@[simp] theorem setPc_self_mch (t : Word) (s : State) : (setPc t s).self.mch = s.self.mch := rfl
@[simp] theorem setPc_self_walks (t : Word) (s : State) : (setPc t s).self.walks = s.self.walks := rfl
@[simp] theorem setPc_self_recorded (t : Word) (s : State) : (setPc t s).self.recorded = s.self.recorded := rfl
@[simp] theorem setPc_self_other (t : Word) (s : State) : (setPc t s).self.other = s.self.other := rfl
@[simp] theorem setPc_self_timer (t : Word) (s : State) : (setPc t s).self.timer = s.self.timer := rfl
@[simp] theorem setPc_self_pc (t : Word) (s : State) : (setPc t s).self.pc = t := rfl

/-! ### advance -/

@[simp] theorem advance_params (s : State) : (advance s).params = s.params := rfl
@[simp] theorem advance_others (s : State) : (advance s).others = s.others := rfl
@[simp] theorem advance_pending (s : State) : (advance s).pending = s.pending := rfl
@[simp] theorem advance_gen (s : State) : (advance s).gen = s.gen := rfl
@[simp] theorem advance_timer (s : State) : (advance s).timer = s.timer := rfl
@[simp] theorem advance_lm (s : State) : (advance s).lm = s.lm := rfl
@[simp] theorem advance_stale (s : State) : (advance s).stale = s.stale := rfl
@[simp] theorem advance_ver (s : State) : (advance s).ver = s.ver := rfl
@[simp] theorem advance_agenda (s : State) : (advance s).agenda = s.agenda := rfl
@[simp] theorem advance_free (s : State) : (advance s).free = s.free := rfl

@[simp] theorem advance_self_vpid (s : State) : (advance s).self.vpid = s.self.vpid := rfl
@[simp] theorem advance_self_run (s : State) : (advance s).self.run = s.self.run := rfl
@[simp] theorem advance_self_regs (s : State) : (advance s).self.regs = s.self.regs := rfl
@[simp] theorem advance_self_gelr (s : State) : (advance s).self.gelr = s.self.gelr := rfl
@[simp] theorem advance_self_gsr (s : State) : (advance s).self.gsr = s.self.gsr := rfl
@[simp] theorem advance_self_gosp (s : State) : (advance s).self.gosp = s.self.gosp := rfl
@[simp] theorem advance_self_gbadva (s : State) : (advance s).self.gbadva = s.self.gbadva := rfl
@[simp] theorem advance_self_gevb (s : State) : (advance s).self.gevb = s.self.gevb := rfl
@[simp] theorem advance_self_um (s : State) : (advance s).self.um = s.self.um := rfl
@[simp] theorem advance_self_ie (s : State) : (advance s).self.ie = s.self.ie := rfl
@[simp] theorem advance_self_map (s : State) : (advance s).self.map = s.self.map := rfl
@[simp] theorem advance_self_tc (s : State) : (advance s).self.tc = s.self.tc := rfl
@[simp] theorem advance_self_len (s : State) : (advance s).self.len = s.self.len := rfl
@[simp] theorem advance_self_mch (s : State) : (advance s).self.mch = s.self.mch := rfl
@[simp] theorem advance_self_walks (s : State) : (advance s).self.walks = s.self.walks := rfl
@[simp] theorem advance_self_recorded (s : State) : (advance s).self.recorded = s.self.recorded := rfl
@[simp] theorem advance_self_other (s : State) : (advance s).self.other = s.self.other := rfl
@[simp] theorem advance_self_timer (s : State) : (advance s).self.timer = s.self.timer := rfl
@[simp] theorem advance_self_pc (s : State) : (advance s).self.pc = s.self.pc + 4 := rfl

/-! ### takeInterrupt -/

@[simp] theorem takeInterrupt_params (n : Nat) (s : State) : (takeInterrupt n s).params = s.params := rfl
@[simp] theorem takeInterrupt_self (n : Nat) (s : State) : (takeInterrupt n s).self = s.self := rfl
@[simp] theorem takeInterrupt_others (n : Nat) (s : State) : (takeInterrupt n s).others = s.others := rfl
@[simp] theorem takeInterrupt_timer (n : Nat) (s : State) : (takeInterrupt n s).timer = s.timer := rfl
@[simp] theorem takeInterrupt_lm (n : Nat) (s : State) : (takeInterrupt n s).lm = s.lm := rfl
@[simp] theorem takeInterrupt_stale (n : Nat) (s : State) : (takeInterrupt n s).stale = s.stale := rfl
@[simp] theorem takeInterrupt_ver (n : Nat) (s : State) : (takeInterrupt n s).ver = s.ver := rfl
@[simp] theorem takeInterrupt_agenda (n : Nat) (s : State) : (takeInterrupt n s).agenda = s.agenda := rfl
@[simp] theorem takeInterrupt_free (n : Nat) (s : State) : (takeInterrupt n s).free = s.free := rfl
@[simp] theorem takeInterrupt_pending (n : Nat) (s : State) : (takeInterrupt n s).pending = putBit s.pending n false := rfl
@[simp] theorem takeInterrupt_gen (n : Nat) (s : State) : (takeInterrupt n s).gen = putBit s.gen n false := rfl

/-! ### stopVP -/

@[simp] theorem stopVP_params (s : State) : (stopVP s).params = s.params := rfl
@[simp] theorem stopVP_others (s : State) : (stopVP s).others = s.others := rfl
@[simp] theorem stopVP_pending (s : State) : (stopVP s).pending = s.pending := rfl
@[simp] theorem stopVP_gen (s : State) : (stopVP s).gen = s.gen := rfl
@[simp] theorem stopVP_timer (s : State) : (stopVP s).timer = s.timer := rfl
@[simp] theorem stopVP_lm (s : State) : (stopVP s).lm = s.lm := rfl
@[simp] theorem stopVP_ver (s : State) : (stopVP s).ver = s.ver := rfl
@[simp] theorem stopVP_agenda (s : State) : (stopVP s).agenda = s.agenda := rfl
@[simp] theorem stopVP_free (s : State) : (stopVP s).free = s.free := rfl
@[simp] theorem stopVP_self (s : State) : (stopVP s).self = { s.self with run := .stopped } := rfl

/-! ### stopVM -/

@[simp] theorem stopVM_params (s : State) : (stopVM s).params = s.params := rfl
@[simp] theorem stopVM_pending (s : State) : (stopVM s).pending = s.pending := rfl
@[simp] theorem stopVM_gen (s : State) : (stopVM s).gen = s.gen := rfl
@[simp] theorem stopVM_timer (s : State) : (stopVM s).timer = s.timer := rfl
@[simp] theorem stopVM_lm (s : State) : (stopVM s).lm = s.lm := rfl
@[simp] theorem stopVM_stale (s : State) : (stopVM s).stale = s.stale := rfl
@[simp] theorem stopVM_ver (s : State) : (stopVM s).ver = s.ver := rfl
@[simp] theorem stopVM_agenda (s : State) : (stopVM s).agenda = s.agenda := rfl
@[simp] theorem stopVM_free (s : State) : (stopVM s).free = s.free := rfl
@[simp] theorem stopVM_self (s : State) : (stopVM s).self = { s.self with run := .stopped } := rfl
@[simp] theorem stopVM_others (s : State) : (stopVM s).others = [] := rfl

/-! ### mapLive -/

@[simp] theorem mapLive_params (f : VP → VP) (s : State) : (mapLive f s).params = s.params := rfl
@[simp] theorem mapLive_pending (f : VP → VP) (s : State) : (mapLive f s).pending = s.pending := rfl
@[simp] theorem mapLive_gen (f : VP → VP) (s : State) : (mapLive f s).gen = s.gen := rfl
@[simp] theorem mapLive_timer (f : VP → VP) (s : State) : (mapLive f s).timer = s.timer := rfl
@[simp] theorem mapLive_lm (f : VP → VP) (s : State) : (mapLive f s).lm = s.lm := rfl
@[simp] theorem mapLive_stale (f : VP → VP) (s : State) : (mapLive f s).stale = s.stale := rfl
@[simp] theorem mapLive_ver (f : VP → VP) (s : State) : (mapLive f s).ver = s.ver := rfl
@[simp] theorem mapLive_agenda (f : VP → VP) (s : State) : (mapLive f s).agenda = s.agenda := rfl
@[simp] theorem mapLive_free (f : VP → VP) (s : State) : (mapLive f s).free = s.free := rfl
@[simp] theorem mapLive_self (f : VP → VP) (s : State) : (mapLive f s).self = f s.self := rfl
@[simp] theorem mapLive_others (f : VP → VP) (s : State) : (mapLive f s).others = s.others.map f := rfl

/-! ### returnFromEvent, swapSp, keepCached, purge -/

@[simp] theorem returnFromEvent_self (s : State) : (returnFromEvent s).self = leaveEvent s.self := rfl
@[simp] theorem returnFromEvent_params (s : State) : (returnFromEvent s).params = s.params := rfl
@[simp] theorem returnFromEvent_others (s : State) : (returnFromEvent s).others = s.others := rfl
@[simp] theorem returnFromEvent_pending (s : State) : (returnFromEvent s).pending = s.pending := rfl
@[simp] theorem returnFromEvent_gen (s : State) : (returnFromEvent s).gen = s.gen := rfl
@[simp] theorem returnFromEvent_timer (s : State) : (returnFromEvent s).timer = s.timer := rfl
@[simp] theorem returnFromEvent_lm (s : State) : (returnFromEvent s).lm = s.lm := rfl
@[simp] theorem returnFromEvent_stale (s : State) : (returnFromEvent s).stale = s.stale := rfl
@[simp] theorem returnFromEvent_ver (s : State) : (returnFromEvent s).ver = s.ver := rfl
@[simp] theorem returnFromEvent_agenda (s : State) : (returnFromEvent s).agenda = s.agenda := rfl
@[simp] theorem returnFromEvent_free (s : State) : (returnFromEvent s).free = s.free := rfl
@[simp] theorem swapSp_vpid (v : VP) : (swapSp v).vpid = v.vpid := rfl
@[simp] theorem swapSp_run (v : VP) : (swapSp v).run = v.run := rfl
@[simp] theorem swapSp_pc (v : VP) : (swapSp v).pc = v.pc := rfl
@[simp] theorem swapSp_gelr (v : VP) : (swapSp v).gelr = v.gelr := rfl
@[simp] theorem swapSp_gsr (v : VP) : (swapSp v).gsr = v.gsr := rfl
@[simp] theorem swapSp_gbadva (v : VP) : (swapSp v).gbadva = v.gbadva := rfl
@[simp] theorem swapSp_gevb (v : VP) : (swapSp v).gevb = v.gevb := rfl
@[simp] theorem swapSp_um (v : VP) : (swapSp v).um = v.um := rfl
@[simp] theorem swapSp_ie (v : VP) : (swapSp v).ie = v.ie := rfl
@[simp] theorem swapSp_map (v : VP) : (swapSp v).map = v.map := rfl
@[simp] theorem swapSp_tc (v : VP) : (swapSp v).tc = v.tc := rfl
@[simp] theorem swapSp_len (v : VP) : (swapSp v).len = v.len := rfl
@[simp] theorem swapSp_mch (v : VP) : (swapSp v).mch = v.mch := rfl
@[simp] theorem swapSp_walks (v : VP) : (swapSp v).walks = v.walks := rfl
@[simp] theorem swapSp_recorded (v : VP) : (swapSp v).recorded = v.recorded := rfl
@[simp] theorem swapSp_other (v : VP) : (swapSp v).other = v.other := rfl
@[simp] theorem swapSp_timer (v : VP) : (swapSp v).timer = v.timer := rfl
@[simp] theorem swapSp_gosp (v : VP) : (swapSp v).gosp = v.regs[29] := rfl
@[simp] theorem swapSp_regs (v : VP) : (swapSp v).regs = v.regs.set 29 v.gosp := rfl
@[simp] theorem keepCached_vpid (c : Cached) (v : VP) : (keepCached c v).vpid = v.vpid := rfl
@[simp] theorem purge_vpid (a : Word) (n : Nat) (v : VP) : (purge a n v).vpid = v.vpid := rfl
@[simp] theorem keepCached_run (c : Cached) (v : VP) : (keepCached c v).run = v.run := rfl
@[simp] theorem purge_run (a : Word) (n : Nat) (v : VP) : (purge a n v).run = v.run := rfl
@[simp] theorem keepCached_regs (c : Cached) (v : VP) : (keepCached c v).regs = v.regs := rfl
@[simp] theorem purge_regs (a : Word) (n : Nat) (v : VP) : (purge a n v).regs = v.regs := rfl
@[simp] theorem keepCached_pc (c : Cached) (v : VP) : (keepCached c v).pc = v.pc := rfl
@[simp] theorem purge_pc (a : Word) (n : Nat) (v : VP) : (purge a n v).pc = v.pc := rfl
@[simp] theorem keepCached_gelr (c : Cached) (v : VP) : (keepCached c v).gelr = v.gelr := rfl
@[simp] theorem purge_gelr (a : Word) (n : Nat) (v : VP) : (purge a n v).gelr = v.gelr := rfl
@[simp] theorem keepCached_gsr (c : Cached) (v : VP) : (keepCached c v).gsr = v.gsr := rfl
@[simp] theorem purge_gsr (a : Word) (n : Nat) (v : VP) : (purge a n v).gsr = v.gsr := rfl
@[simp] theorem keepCached_gosp (c : Cached) (v : VP) : (keepCached c v).gosp = v.gosp := rfl
@[simp] theorem purge_gosp (a : Word) (n : Nat) (v : VP) : (purge a n v).gosp = v.gosp := rfl
@[simp] theorem keepCached_gbadva (c : Cached) (v : VP) : (keepCached c v).gbadva = v.gbadva := rfl
@[simp] theorem purge_gbadva (a : Word) (n : Nat) (v : VP) : (purge a n v).gbadva = v.gbadva := rfl
@[simp] theorem keepCached_gevb (c : Cached) (v : VP) : (keepCached c v).gevb = v.gevb := rfl
@[simp] theorem purge_gevb (a : Word) (n : Nat) (v : VP) : (purge a n v).gevb = v.gevb := rfl
@[simp] theorem keepCached_um (c : Cached) (v : VP) : (keepCached c v).um = v.um := rfl
@[simp] theorem purge_um (a : Word) (n : Nat) (v : VP) : (purge a n v).um = v.um := rfl
@[simp] theorem keepCached_ie (c : Cached) (v : VP) : (keepCached c v).ie = v.ie := rfl
@[simp] theorem purge_ie (a : Word) (n : Nat) (v : VP) : (purge a n v).ie = v.ie := rfl
@[simp] theorem keepCached_map (c : Cached) (v : VP) : (keepCached c v).map = v.map := rfl
@[simp] theorem purge_map (a : Word) (n : Nat) (v : VP) : (purge a n v).map = v.map := rfl
@[simp] theorem keepCached_len (c : Cached) (v : VP) : (keepCached c v).len = v.len := rfl
@[simp] theorem purge_len (a : Word) (n : Nat) (v : VP) : (purge a n v).len = v.len := rfl
@[simp] theorem keepCached_mch (c : Cached) (v : VP) : (keepCached c v).mch = v.mch := rfl
@[simp] theorem keepCached_walks (c : Cached) (v : VP) : (keepCached c v).walks = v.walks := rfl
@[simp] theorem keepCached_recorded (c : Cached) (v : VP) : (keepCached c v).recorded = v.recorded := rfl
@[simp] theorem keepCached_other (c : Cached) (v : VP) : (keepCached c v).other = v.other := rfl
@[simp] theorem purge_mch (a : Word) (n : Nat) (v : VP) : (purge a n v).mch = v.mch := rfl
@[simp] theorem purge_walks (a : Word) (n : Nat) (v : VP) : (purge a n v).walks = v.walks := rfl
@[simp] theorem purge_recorded (a : Word) (n : Nat) (v : VP) : (purge a n v).recorded = v.recorded := rfl
@[simp] theorem purge_other (a : Word) (n : Nat) (v : VP) : (purge a n v).other = v.other := rfl
@[simp] theorem keepCached_timer (c : Cached) (v : VP) : (keepCached c v).timer = v.timer := rfl
@[simp] theorem purge_timer (a : Word) (n : Nat) (v : VP) : (purge a n v).timer = v.timer := rfl

/-! ### setOther, purgeWalks -/

@[simp] theorem setOther_params (v : List Word) (s : State) : (setOther v s).params = s.params := rfl
@[simp] theorem setOther_others (v : List Word) (s : State) : (setOther v s).others = s.others := rfl
@[simp] theorem setOther_pending (v : List Word) (s : State) : (setOther v s).pending = s.pending := rfl
@[simp] theorem setOther_gen (v : List Word) (s : State) : (setOther v s).gen = s.gen := rfl
@[simp] theorem setOther_timer (v : List Word) (s : State) : (setOther v s).timer = s.timer := rfl
@[simp] theorem setOther_lm (v : List Word) (s : State) : (setOther v s).lm = s.lm := rfl
@[simp] theorem setOther_stale (v : List Word) (s : State) : (setOther v s).stale = s.stale := rfl
@[simp] theorem setOther_ver (v : List Word) (s : State) : (setOther v s).ver = s.ver := rfl
@[simp] theorem setOther_agenda (v : List Word) (s : State) : (setOther v s).agenda = s.agenda := rfl
@[simp] theorem setOther_free (v : List Word) (s : State) : (setOther v s).free = s.free := rfl
@[simp] theorem setOther_self_vpid (v : List Word) (s : State) : (setOther v s).self.vpid = s.self.vpid := rfl
@[simp] theorem setOther_self_run (v : List Word) (s : State) : (setOther v s).self.run = s.self.run := rfl
@[simp] theorem setOther_self_regs (v : List Word) (s : State) : (setOther v s).self.regs = s.self.regs := rfl
@[simp] theorem setOther_self_pc (v : List Word) (s : State) : (setOther v s).self.pc = s.self.pc := rfl
@[simp] theorem setOther_self_gelr (v : List Word) (s : State) : (setOther v s).self.gelr = s.self.gelr := rfl
@[simp] theorem setOther_self_gsr (v : List Word) (s : State) : (setOther v s).self.gsr = s.self.gsr := rfl
@[simp] theorem setOther_self_gosp (v : List Word) (s : State) : (setOther v s).self.gosp = s.self.gosp := rfl
@[simp] theorem setOther_self_gbadva (v : List Word) (s : State) : (setOther v s).self.gbadva = s.self.gbadva := rfl
@[simp] theorem setOther_self_gevb (v : List Word) (s : State) : (setOther v s).self.gevb = s.self.gevb := rfl
@[simp] theorem setOther_self_um (v : List Word) (s : State) : (setOther v s).self.um = s.self.um := rfl
@[simp] theorem setOther_self_ie (v : List Word) (s : State) : (setOther v s).self.ie = s.self.ie := rfl
@[simp] theorem setOther_self_map (v : List Word) (s : State) : (setOther v s).self.map = s.self.map := rfl
@[simp] theorem setOther_self_tc (v : List Word) (s : State) : (setOther v s).self.tc = s.self.tc := rfl
@[simp] theorem setOther_self_walks (v : List Word) (s : State) : (setOther v s).self.walks = s.self.walks := rfl
@[simp] theorem setOther_self_len (v : List Word) (s : State) : (setOther v s).self.len = s.self.len := rfl
@[simp] theorem setOther_self_mch (v : List Word) (s : State) : (setOther v s).self.mch = s.self.mch := rfl
@[simp] theorem setOther_self_recorded (v : List Word) (s : State) : (setOther v s).self.recorded = s.self.recorded := rfl
@[simp] theorem setOther_self_timer (v : List Word) (s : State) : (setOther v s).self.timer = s.self.timer := rfl
@[simp] theorem setOther_self_other (v : List Word) (s : State) : (setOther v s).self.other = v := rfl
@[simp] theorem purgeWalks_vpid (a : Word) (n : Nat) (v : VP) : (purgeWalks a n v).vpid = v.vpid := rfl
@[simp] theorem purgeWalks_run (a : Word) (n : Nat) (v : VP) : (purgeWalks a n v).run = v.run := rfl
@[simp] theorem purgeWalks_regs (a : Word) (n : Nat) (v : VP) : (purgeWalks a n v).regs = v.regs := rfl
@[simp] theorem purgeWalks_pc (a : Word) (n : Nat) (v : VP) : (purgeWalks a n v).pc = v.pc := rfl
@[simp] theorem purgeWalks_gelr (a : Word) (n : Nat) (v : VP) : (purgeWalks a n v).gelr = v.gelr := rfl
@[simp] theorem purgeWalks_gsr (a : Word) (n : Nat) (v : VP) : (purgeWalks a n v).gsr = v.gsr := rfl
@[simp] theorem purgeWalks_gosp (a : Word) (n : Nat) (v : VP) : (purgeWalks a n v).gosp = v.gosp := rfl
@[simp] theorem purgeWalks_gbadva (a : Word) (n : Nat) (v : VP) : (purgeWalks a n v).gbadva = v.gbadva := rfl
@[simp] theorem purgeWalks_gevb (a : Word) (n : Nat) (v : VP) : (purgeWalks a n v).gevb = v.gevb := rfl
@[simp] theorem purgeWalks_um (a : Word) (n : Nat) (v : VP) : (purgeWalks a n v).um = v.um := rfl
@[simp] theorem purgeWalks_ie (a : Word) (n : Nat) (v : VP) : (purgeWalks a n v).ie = v.ie := rfl
@[simp] theorem purgeWalks_map (a : Word) (n : Nat) (v : VP) : (purgeWalks a n v).map = v.map := rfl
@[simp] theorem purgeWalks_tc (a : Word) (n : Nat) (v : VP) : (purgeWalks a n v).tc = v.tc := rfl
@[simp] theorem purgeWalks_len (a : Word) (n : Nat) (v : VP) : (purgeWalks a n v).len = v.len := rfl
@[simp] theorem purgeWalks_mch (a : Word) (n : Nat) (v : VP) : (purgeWalks a n v).mch = v.mch := rfl
@[simp] theorem purgeWalks_recorded (a : Word) (n : Nat) (v : VP) : (purgeWalks a n v).recorded = v.recorded := rfl
@[simp] theorem purgeWalks_timer (a : Word) (n : Nat) (v : VP) : (purgeWalks a n v).timer = v.timer := rfl
@[simp] theorem purgeWalks_other (a : Word) (n : Nat) (v : VP) : (purgeWalks a n v).other = v.other := rfl

/-! ### Register reads -/

@[simp] theorem getReg_setReg (i j : Fin 32) (v : Word) (s : State) :
    getReg j (setReg i v s) = if i = j then v else getReg j s := by
  simp [getReg, setReg, Vector.getElem_set, Fin.ext_iff]

@[simp] theorem getReg_setPc (i : Fin 32) (t : Word) (s : State) : getReg i (setPc t s) = getReg i s := rfl

@[simp] theorem getReg_setOther (i : Fin 32) (v : List Word) (s : State) :
    getReg i (setOther v s) = getReg i s := rfl

@[simp] theorem getReg_advance (i : Fin 32) (s : State) : getReg i (advance s) = getReg i s := rfl

@[simp] theorem getReg_takeInterrupt (i : Fin 32) (n : Nat) (s : State) :
    getReg i (takeInterrupt n s) = getReg i s := rfl

@[simp] theorem swapSp_swapSp (v : VP) : swapSp (swapSp v) = v := by
  cases v
  simp [swapSp]

end Sys2Proof.Machine
end

