-- ==== Sys2Proof/Laws/Ops.lean ====
section
/-! SUPPORT. Laws/Ops.lean: interrupt bits, draws, events: what each shared operation can do, said once. -/

namespace Sys2Proof.Machine

/-! ### Interrupt bits -/

/-- Setting one bit of an interrupt bit vector. -/
@[simp] theorem hasBit_putBit (m i j : Nat) (b : Bool) :
    hasBit (putBit m i b) j = if j = i then b else hasBit m j := by
  unfold putBit hasBit
  split_ifs with h1 h2 h2
  · rw [h2, h1]
  · rfl
  · subst h2
    rw [Nat.testBit_xor, Nat.testBit_two_pow_self]
    cases h : m.testBit j <;> simp_all
  · rw [Nat.testBit_xor, Nat.testBit_two_pow_of_ne (Ne.symm h2)]
    simp

/-- Setting a valid bit keeps a bit vector in its width. -/
theorem putBit_lt {m i n : Nat} (b : Bool) (hm : m < 2 ^ n) (hi : i < n) : putBit m i b < 2 ^ n := by
  unfold putBit
  split_ifs
  · exact hm
  · exact Nat.xor_lt_two_pow hm (Nat.pow_lt_pow_right (by norm_num) hi)

/-! ### Draws -/

/-- Everything a draw can do: it gives a member of the set and reads at most one free value. -/
theorem drawFrom_spec {α : Type} (d : α) (l : List α) (s : State) (h : l ≠ []) :
    (drawFrom d l s).1 ∈ l ∧ ∃ n, (drawFrom d l s).2 = { s with free := n } := by
  match l, h with
  | [a], _ => exact ⟨by simp [drawFrom], s.free, rfl⟩
  | a :: b :: rest, _ =>
    refine ⟨?_, s.free + 1, rfl⟩
    simp only [drawFrom]
    have hlt : Config.draw s.free % (rest.length + 2) < (a :: b :: rest).length :=
      Nat.mod_lt _ (Nat.succ_pos _)
    rw [List.getD_eq_getElem _ _ hlt]
    exact List.getElem_mem hlt

/-- A draw reads at most one free value, whatever the set. -/
theorem drawFrom_state {α : Type} (d : α) (l : List α) (s : State) :
    ∃ n, (drawFrom d l s).2 = { s with free := n } := by
  match l with
  | [] => exact ⟨s.free, rfl⟩
  | [a] => exact ⟨s.free, rfl⟩
  | a :: b :: rest => exact ⟨s.free + 1, rfl⟩

/-- A draw from a set of one member. -/
@[simp] theorem drawFrom_singleton {α : Type} (d a : α) (s : State) : drawFrom d [a] s = (a, s) := rfl

/-- `FAIL` is not zero. -/
theorem drawFail_ne_zero (s : State) : (drawFail s).1 ≠ 0 := by
  intro h
  have h1 := congrArg BitVec.toNat h
  simp only [drawFail, BitVec.toNat_ofNat] at h1
  have h2 : Config.draw s.free % (2 ^ 32 - 1) < 2 ^ 32 - 1 := Nat.mod_lt _ (by norm_num)
  rw [Nat.mod_eq_of_lt (by omega)] at h1
  simp at h1

/-- Everything `FAIL` does to the state. -/
theorem drawFail_state (s : State) : (drawFail s).2 = { s with free := s.free + 1 } := rfl

/-! ### GSR -/

@[simp] theorem gsrUm_gsrImage (um ie : Bool) (c : BitVec 16) : gsrUm (gsrImage um ie c) = um := by
  rw [gsrUm, gsrImage, BitVec.getLsbD_append, if_neg (by decide)]
  cases um <;> cases ie <;> decide

@[simp] theorem gsrIe_gsrImage (um ie : Bool) (c : BitVec 16) : gsrIe (gsrImage um ie c) = ie := by
  rw [gsrIe, gsrImage, BitVec.getLsbD_append, if_neg (by decide)]
  cases um <;> cases ie <;> decide

@[simp] theorem gsrCause_gsrImage (um ie : Bool) (c : BitVec 16) :
    gsrCause (gsrImage um ie c) = c := by
  apply BitVec.eq_of_getLsbD_eq
  intro i hi
  rw [gsrCause, gsrImage, BitVec.getLsbD_extractLsb', BitVec.getLsbD_append]
  simp [hi]

/-- Bits 29:16 of GSR are zero after an event. -/
theorem gsrImage_reserved (um ie : Bool) (c : BitVec 16) (k : Nat) (h1 : 16 ≤ k) (h2 : k < 30) :
    (gsrImage um ie c).getLsbD k = false := by
  simp only [gsrImage, BitVec.getLsbD_append]
  have h3 : ¬ k < 16 := by omega
  have h4 : k - 16 < 14 := by omega
  simp [h3, h4]

/-! ### Events -/

/-- Everything taking an event can do: with a registered vector base it is the entry sequence, with some
GBADVA; without one the processor stops, or for a machine check the virtual machine. -/
theorem takeEvent_cases (e : Event) (elr : Word) (s : State) :
    (∃ g bad n, s.self.gevb = some g ∧ (∀ va, eventBadva e = some va → bad = va) ∧
      takeEvent e elr s = { s with self := enterEvent e elr g bad s.self, free := n }) ∨
    (s.self.gevb = none ∧ isMachineCheck e = true ∧ takeEvent e elr s = stopVM s) ∨
    (s.self.gevb = none ∧ isMachineCheck e = false ∧ takeEvent e elr s = stopVP s) := by
  unfold takeEvent
  cases hg : s.self.gevb with
  | none => cases hm : isMachineCheck e <;> simp
  | some g =>
    left
    cases hb : eventBadva e with
    | none => exact ⟨g, Config.undefWord s.free, s.free + 1, rfl, by simp, rfl⟩
    | some va => exact ⟨g, va, s.free, rfl, by simp, rfl⟩

@[simp] theorem enterEvent_pc (e : Event) (elr g bad : Word) (v : VP) :
    (enterEvent e elr g bad v).pc = vectorAddress g (eventNumber e) := rfl
@[simp] theorem enterEvent_um (e : Event) (elr g bad : Word) (v : VP) :
    (enterEvent e elr g bad v).um = false := rfl
@[simp] theorem enterEvent_ie (e : Event) (elr g bad : Word) (v : VP) :
    (enterEvent e elr g bad v).ie = false := rfl
@[simp] theorem enterEvent_gelr (e : Event) (elr g bad : Word) (v : VP) :
    (enterEvent e elr g bad v).gelr = elr := rfl
@[simp] theorem enterEvent_gsr (e : Event) (elr g bad : Word) (v : VP) :
    (enterEvent e elr g bad v).gsr = gsrImage v.um v.ie (eventCause e) := rfl
@[simp] theorem enterEvent_gbadva (e : Event) (elr g bad : Word) (v : VP) :
    (enterEvent e elr g bad v).gbadva = bad := rfl
@[simp] theorem enterEvent_mch (e : Event) (elr g bad : Word) (v : VP) :
    (enterEvent e elr g bad v).mch = (v.mch || isMachineCheck e) := rfl
@[simp] theorem enterEvent_recorded (e : Event) (elr g bad : Word) (v : VP) :
    (enterEvent e elr g bad v).recorded = true := rfl
@[simp] theorem enterEvent_vpid (e : Event) (elr g bad : Word) (v : VP) :
    (enterEvent e elr g bad v).vpid = v.vpid := by
  unfold enterEvent; split_ifs <;> simp
@[simp] theorem enterEvent_run (e : Event) (elr g bad : Word) (v : VP) :
    (enterEvent e elr g bad v).run = v.run := by
  unfold enterEvent; split_ifs <;> simp
@[simp] theorem enterEvent_gevb (e : Event) (elr g bad : Word) (v : VP) :
    (enterEvent e elr g bad v).gevb = v.gevb := by
  unfold enterEvent; split_ifs <;> simp
@[simp] theorem enterEvent_map (e : Event) (elr g bad : Word) (v : VP) :
    (enterEvent e elr g bad v).map = v.map := by
  unfold enterEvent; split_ifs <;> simp
@[simp] theorem enterEvent_tc (e : Event) (elr g bad : Word) (v : VP) :
    (enterEvent e elr g bad v).tc = v.tc := by
  unfold enterEvent; split_ifs <;> simp
@[simp] theorem enterEvent_walks (e : Event) (elr g bad : Word) (v : VP) :
    (enterEvent e elr g bad v).walks = v.walks := by
  unfold enterEvent; split_ifs <;> simp
@[simp] theorem enterEvent_other (e : Event) (elr g bad : Word) (v : VP) :
    (enterEvent e elr g bad v).other = v.other := by
  unfold enterEvent; split_ifs <;> simp
@[simp] theorem enterEvent_len (e : Event) (elr g bad : Word) (v : VP) :
    (enterEvent e elr g bad v).len = v.len := by
  unfold enterEvent; split_ifs <;> simp
@[simp] theorem enterEvent_timer (e : Event) (elr g bad : Word) (v : VP) :
    (enterEvent e elr g bad v).timer = v.timer := by
  unfold enterEvent; split_ifs <;> simp
@[simp] theorem enterEvent_gosp (e : Event) (elr g bad : Word) (v : VP) :
    (enterEvent e elr g bad v).gosp = if v.um then v.regs[29] else v.gosp := by
  unfold enterEvent; split_ifs <;> simp
@[simp] theorem enterEvent_regs (e : Event) (elr g bad : Word) (v : VP) :
    (enterEvent e elr g bad v).regs = if v.um then v.regs.set 29 v.gosp else v.regs := by
  unfold enterEvent; split_ifs <;> simp

/-! ### Return from an event -/

@[simp] theorem leaveEvent_pc (v : VP) : (leaveEvent v).pc = v.gelr := rfl
@[simp] theorem leaveEvent_um (v : VP) : (leaveEvent v).um = gsrUm v.gsr := rfl
@[simp] theorem leaveEvent_ie (v : VP) : (leaveEvent v).ie = gsrIe v.gsr := rfl
@[simp] theorem leaveEvent_regs (v : VP) :
    (leaveEvent v).regs = if gsrUm v.gsr then v.regs.set 29 v.gosp else v.regs := by
  unfold leaveEvent; split_ifs <;> rfl
@[simp] theorem leaveEvent_gosp (v : VP) :
    (leaveEvent v).gosp = if gsrUm v.gsr then v.regs[29] else v.gosp := by
  unfold leaveEvent; split_ifs <;> rfl
@[simp] theorem leaveEvent_vpid (v : VP) : (leaveEvent v).vpid = v.vpid := by
  unfold leaveEvent; split_ifs <;> rfl
@[simp] theorem leaveEvent_run (v : VP) : (leaveEvent v).run = v.run := by
  unfold leaveEvent; split_ifs <;> rfl
@[simp] theorem leaveEvent_gelr (v : VP) : (leaveEvent v).gelr = v.gelr := by
  unfold leaveEvent; split_ifs <;> rfl
@[simp] theorem leaveEvent_gsr (v : VP) : (leaveEvent v).gsr = v.gsr := by
  unfold leaveEvent; split_ifs <;> rfl
@[simp] theorem leaveEvent_gbadva (v : VP) : (leaveEvent v).gbadva = v.gbadva := by
  unfold leaveEvent; split_ifs <;> rfl
@[simp] theorem leaveEvent_gevb (v : VP) : (leaveEvent v).gevb = v.gevb := by
  unfold leaveEvent; split_ifs <;> rfl
@[simp] theorem leaveEvent_map (v : VP) : (leaveEvent v).map = v.map := by
  unfold leaveEvent; split_ifs <;> rfl
@[simp] theorem leaveEvent_tc (v : VP) : (leaveEvent v).tc = v.tc := by
  unfold leaveEvent; split_ifs <;> rfl
@[simp] theorem leaveEvent_walks (v : VP) : (leaveEvent v).walks = v.walks := by
  unfold leaveEvent; split_ifs <;> rfl
@[simp] theorem leaveEvent_len (v : VP) : (leaveEvent v).len = v.len := by
  unfold leaveEvent; split_ifs <;> rfl
@[simp] theorem leaveEvent_mch (v : VP) : (leaveEvent v).mch = v.mch := by
  unfold leaveEvent; split_ifs <;> rfl
@[simp] theorem leaveEvent_recorded (v : VP) : (leaveEvent v).recorded = v.recorded := by
  unfold leaveEvent; split_ifs <;> rfl
@[simp] theorem leaveEvent_other (v : VP) : (leaveEvent v).other = v.other := by
  unfold leaveEvent; split_ifs <;> rfl
@[simp] theorem leaveEvent_timer (v : VP) : (leaveEvent v).timer = v.timer := by
  unfold leaveEvent; split_ifs <;> rfl

/-! ### Privilege -/

/-- Everything `RequireGuest` can do. -/
theorem requireGuest_eq (s : State) (body : State → Result) :
    requireGuest s body =
      if s.self.um then .next (raiseHere (.general .privilege) s) else body s := rfl

/-- A virtual instruction in Guest mode runs its body. -/
@[simp] theorem requireGuest_guest {s : State} (h : s.self.um = false) (body : State → Result) :
    requireGuest s body = body s := by
  simp [requireGuest, h]

/-- A virtual instruction in User mode takes the privilege violation. -/
@[simp] theorem requireGuest_user {s : State} (h : s.self.um = true) (body : State → Result) :
    requireGuest s body = .next (raiseHere (.general .privilege) s) := by
  simp [requireGuest, h]

/-! ### Processors -/

/-- Everything putting a processor in the seat can do: nothing, or an exchange of the seat with one of the
others. -/
theorem focus_cases {p : Word} {s t : State} (h : focus p s = some t) :
    (t = s ∧ selfIs p s = true) ∨
    (selfIs p s = false ∧ ∃ v ∈ s.others, v.vpid = p ∧
      t = { s with
        self := v
        others :=
          if s.self.run = .stopped then s.others.filter fun q => q.vpid != p
          else s.self :: s.others.filter fun q => q.vpid != p }) := by
  by_cases h1 : selfIs p s = true
  · simp only [focus, h1, if_true, Option.some.injEq] at h
    exact .inl ⟨h.symm, h1⟩
  · rw [Bool.not_eq_true] at h1
    cases hv : s.others.find? (fun v => v.vpid == p) with
    | none => simp [focus, h1, hv] at h
    | some v =>
      simp only [focus, h1, hv, Bool.false_eq_true, if_false, Option.some.injEq] at h
      have h2 := List.find?_some hv
      exact .inr ⟨h1, v, List.mem_of_find?_eq_some hv, by simpa using h2, h.symm⟩

end Sys2Proof.Machine
end

