-- ==== Sys2Proof/Laws/Exec.lean ====
section
/-! SUPPORT. Laws/Exec.lean: `exec` of each instruction, in Guest mode without its privilege check. -/

namespace Sys2Proof.Machine

@[simp] theorem exec_vmversion (s : State) : exec .vmversion s = execVmversion s := rfl
@[simp] theorem exec_vmrte (s : State) : exec .vmrte s = execVmrte s := rfl
@[simp] theorem exec_vmsetvec (s : State) : exec .vmsetvec s = execVmsetvec s := rfl
@[simp] theorem exec_vmsetie (s : State) : exec .vmsetie s = execVmsetie s := rfl
@[simp] theorem exec_vmgetie (s : State) : exec .vmgetie s = execVmgetie s := rfl
@[simp] theorem exec_vmintop (s : State) : exec .vmintop s = execVmintop s := rfl
@[simp] theorem exec_vmclrmap (s : State) : exec .vmclrmap s = execVmclrmap s := rfl
@[simp] theorem exec_vmnewmap (s : State) : exec .vmnewmap s = execVmnewmap s := rfl
@[simp] theorem exec_vmcache (s : State) : exec .vmcache s = execVmcache s := rfl
@[simp] theorem exec_vmgettime (s : State) : exec .vmgettime s = execVmgettime s := rfl
@[simp] theorem exec_vmsettime (s : State) : exec .vmsettime s = execVmsettime s := rfl
@[simp] theorem exec_vmwait (s : State) : exec .vmwait s = execVmwait s := rfl
@[simp] theorem exec_vmyield (s : State) : exec .vmyield s = execVmyield s := rfl
@[simp] theorem exec_vmstart (s : State) : exec .vmstart s = execVmstart s := rfl
@[simp] theorem exec_vmstop (s : State) : exec .vmstop s = execVmstop s := rfl
@[simp] theorem exec_vmvpid (s : State) : exec .vmvpid s = execVmvpid s := rfl
@[simp] theorem exec_vmsetregs (s : State) : exec .vmsetregs s = execVmsetregs s := rfl
@[simp] theorem exec_vmgetregs (s : State) : exec .vmgetregs s = execVmgetregs s := rfl
@[simp] theorem exec_trap1Reserved (imm : BitVec 8) (s : State) :
    exec (.trap1Reserved imm) s = execTrap1Reserved imm s := rfl
@[simp] theorem exec_trap0 (imm : BitVec 8) (s : State) : exec (.trap0 imm) s = execTrap0 imm s := rfl

theorem execVmgetregs_guest {s : State} (h : s.self.um = false) :
    execVmgetregs s =
      done (setReg 3 s.self.gbadva (setReg 2 s.self.gosp (setReg 1 s.self.gsr (setReg 0 s.self.gelr s)))) := by
  unfold execVmgetregs
  rw [requireGuest_guest h]

theorem execVmsetregs_guest {s : State} (h : s.self.um = false) :
    execVmsetregs s =
      done
      { s with
        self :=
          { s.self with
            gelr := getReg 0 s
            gsr := getReg 1 s
            gosp := getReg 2 s
            gbadva := getReg 3 s
            recorded := true } } := by
  unfold execVmsetregs
  rw [requireGuest_guest h]

theorem execVmgetie_guest {s : State} (h : s.self.um = false) :
    execVmgetie s =
      doneWith (bitWord s.self.ie) s := by
  unfold execVmgetie
  rw [requireGuest_guest h]

theorem execVmsetie_guest {s : State} (h : s.self.um = false) :
    execVmsetie s =
      doneWith (bitWord s.self.ie) { s with self := { s.self with ie := (getReg 0 s).getLsbD 0 } } := by
  unfold execVmsetie
  rw [requireGuest_guest h]

theorem execVmclrmap_guest {s : State} (h : s.self.um = false) :
    execVmclrmap s =
      done (setReg 0 0
        { mapLive (purge (getReg 0 s) (getReg 1 s).toNat) s with
          self := purgeWalks (getReg 0 s) (getReg 1 s).toNat
            (purge (getReg 0 s) (getReg 1 s).toNat s.self) }) := by
  unfold execVmclrmap
  exact requireGuest_guest h _

theorem execVmgettime_guest {s : State} (h : s.self.um = false) :
    execVmgettime s =
      done (setReg 1 ((getTimer s).extractLsb' 32 32) (setReg 0 ((getTimer s).extractLsb' 0 32) s)) := by
  unfold execVmgettime
  rw [requireGuest_guest h]

theorem execVmsettime_guest {s : State} (h : s.self.um = false) :
    execVmsettime s =
      done (setTimer (getReg 1 s ++ getReg 0 s) s) := by
  unfold execVmsettime
  rw [requireGuest_guest h]

theorem execVmwait_guest {s : State} (h : s.self.um = false) :
    execVmwait s =
      .next { s with self := { s.self with run := .waiting } } := by
  unfold execVmwait
  rw [requireGuest_guest h]

theorem execVmyield_guest {s : State} (h : s.self.um = false) :
    execVmyield s =
      done s := by
  unfold execVmyield
  rw [requireGuest_guest h]

theorem execVmstop_guest {s : State} (h : s.self.um = false) :
    execVmstop s =
      .next (stopVP s) := by
  unfold execVmstop
  rw [requireGuest_guest h]

theorem execVmvpid_guest {s : State} (h : s.self.um = false) :
    execVmvpid s =
      done (setReg 0 s.self.vpid s) := by
  unfold execVmvpid
  rw [requireGuest_guest h]

theorem execVmsetvec_guest {s : State} (h : s.self.um = false) :
    execVmsetvec s =
      if validVector (getReg 0 s) then
        done (setReg 0 0 { s with self := { s.self with gevb := some (getReg 0 s) } })
      else done (setReg 0 minusOne s) := by
  unfold execVmsetvec
  rw [requireGuest_guest h]

theorem execVmrte_guest {s : State} (h : s.self.um = false) :
    execVmrte s =
      if s.self.mch && !s.params.mcResume then .next (stopVM s)
      else if s.self.recorded then .next (returnFromEvent s)
      else .refused .unwrittenEventRegisters := by
  unfold execVmrte
  rw [requireGuest_guest h]

theorem execTrap1Reserved_guest {s : State} (h : s.self.um = false) (imm : BitVec 8) :
    execTrap1Reserved imm s = .refused (.reservedTrap1Number imm) := by
  unfold execTrap1Reserved
  rw [requireGuest_guest h]

/-- A `vmintop` of the operation that R0 names. -/
theorem execVmintop_guest {s : State} (h : s.self.um = false) :
    execVmintop s =
      match intOpOf (getReg 0 s) with
      | .nop => doneWith 0 s
      | .globen => intopGlobal (getReg 1 s).toNat true s
      | .globdis => intopGlobal (getReg 1 s).toNat false s
      | .locen => intopLocal (getReg 1 s).toNat true s
      | .locdis => intopLocal (getReg 1 s).toNat false s
      | .affinity => intopAffinity (getReg 1 s).toNat (getReg 2 s) s
      | .get => intopGet (getReg 1 s).toNat s
      | .peek => intopPeek s
      | .status => intopStatus (getReg 1 s).toNat s
      | .post => intopPending (getReg 1 s).toNat true s
      | .clear => intopPending (getReg 1 s).toNat false s
      | .other => intopFail s := by
  unfold execVmintop
  exact requireGuest_guest h _

end Sys2Proof.Machine
end

