-- ==== Sys2Proof/Laws/Memory.lean ====
section
/-! SUPPORT. Laws/Memory.lean: reading after writing, the canonical form of memory, little-endian
quantities. -/

namespace Sys2Proof.Machine

/-- Read after write: the byte written is read back, and every other address reads as before. -/
@[simp] theorem memGet_memSet (m : Memory) (a b : Nat) (v : Byte) :
    memGet (memSet m a v) b = if b = a then some v else memGet m b := by
  induction m with
  | nil => simp [memSet, memGet]
  | cons c rest ih =>
    obtain ⟨k, u⟩ := c
    by_cases h1 : a < k
    · simp [memSet, h1, memGet]
    by_cases h2 : a = k
    · subst h2
      by_cases hb : b = a <;> simp [memSet, memGet, hb]
    by_cases hb : b = k
    · subst hb
      simp [memSet, memGet, h1, h2, Ne.symm h2]
    · simp [memSet, memGet, h1, h2, hb, ih]

/-- The addresses of a memory after a write are the old ones and the one written. -/
theorem mem_keys_memSet (m : Memory) (a k : Nat) (v : Byte) :
    k ∈ (memSet m a v).map Prod.fst ↔ k = a ∨ k ∈ m.map Prod.fst := by
  induction m with
  | nil => simp [memSet]
  | cons c rest ih =>
    obtain ⟨j, u⟩ := c
    unfold memSet
    split_ifs with h1 h2
    · simp
    · subst h2
      simp
    · simp only [List.map_cons, List.mem_cons, ih]
      tauto

/-- A cell of a memory after a write is at the address written or was there before. -/
theorem fst_mem_memSet {m : Memory} {a : Nat} {v : Byte} {c : Host.Cell} (h : c ∈ memSet m a v) :
    c.1 = a ∨ ∃ d ∈ m, d.1 = c.1 := by
  have := (mem_keys_memSet m a c.1 v).1 (List.mem_map_of_mem h)
  simpa [eq_comm] using this

theorem pairwise_memSet (m : Memory) (a : Nat) (v : Byte)
    (h : (m.map Prod.fst).Pairwise (· < ·)) : ((memSet m a v).map Prod.fst).Pairwise (· < ·) := by
  induction m with
  | nil => simp [memSet]
  | cons c rest ih =>
    obtain ⟨j, u⟩ := c
    simp only [List.map_cons, List.pairwise_cons] at h
    unfold memSet
    split_ifs with h1 h2
    · simp only [List.map_cons, List.pairwise_cons, List.mem_cons, forall_eq_or_imp]
      exact ⟨⟨h1, fun k hk => lt_trans h1 (h.1 k hk)⟩, h.1, h.2⟩
    · subst h2
      exact List.pairwise_cons.2 h
    · simp only [List.map_cons, List.pairwise_cons]
      refine ⟨fun k hk => ?_, ih h.2⟩
      rcases (mem_keys_memSet rest a k v).1 hk with rfl | hk
      · omega
      · exact h.1 k hk

/-- A write to a 32-bit address keeps the canonical form. -/
theorem memSet_wf {m : Memory} {a : Nat} (v : Byte) (h : Memory.wf m) (ha : a < 2 ^ 32) :
    Memory.wf (memSet m a v) := by
  refine ⟨pairwise_memSet m a v h.1, fun c hc => ?_⟩
  rcases fst_mem_memSet hc with h1 | ⟨d, hd, h1⟩
  · omega
  · have := h.2 d hd
    omega

/-- Reading after the content of an address was set. -/
@[simp] theorem memGet_memPut (m : Memory) (a b : Nat) (o : Option Byte) :
    memGet (memPut m a o) b = if b = a then o else memGet m b := by
  cases o with
  | some v => exact memGet_memSet m a b v
  | none =>
    induction m with
    | nil => simp [memPut, memGet]
    | cons c rest ih =>
      obtain ⟨k, u⟩ := c
      unfold memPut at ih ⊢
      by_cases h : k = a
      · subst h
        by_cases hb : b = k
        · simpa [hb] using ih
        · simpa [hb, memGet] using ih
      · by_cases hb : b = k
        · subst hb
          simp [h, memGet]
        · simpa [h, hb, memGet] using ih

/-- A cell of a memory after `memPut` is at the address written or was there before. -/
theorem fst_mem_memPut {m : Memory} {a : Nat} {o : Option Byte} {c : Host.Cell} (h : c ∈ memPut m a o) :
    c.1 = a ∨ ∃ d ∈ m, d.1 = c.1 := by
  cases o with
  | some v => exact fst_mem_memSet h
  | none => exact .inr ⟨c, (List.mem_filter.1 h).1, rfl⟩

/-- Setting the content of a 32-bit address keeps the canonical form. -/
theorem memPut_wf {m : Memory} {a : Nat} (o : Option Byte) (h : Memory.wf m) (ha : a < 2 ^ 32) :
    Memory.wf (memPut m a o) := by
  cases o with
  | some v => exact memSet_wf v h ha
  | none => exact ⟨h.1.sublist (List.filter_sublist.map _), fun c hc => h.2 c (List.mem_filter.1 hc).1⟩

/-- The byte at an address depends on the memory's content there only. -/
theorem readByte_congr {m n : Memory} {a : Nat} (h : memGet m a = memGet n a) :
    readByte m a = readByte n a := by rw [readByte, readByte, h]

/-- The memory of the state after reset is in canonical form. -/
theorem reset_memory_wf : Memory.wf State.reset.lm := by decide

theorem writeByte_lm (a : Nat) (b : Byte) (s : State) :
    (writeByte a b s).lm = s.lm ∨ (writeByte a b s).lm = memSet s.lm a b := by
  unfold writeByte
  split_ifs <;> simp

/-- Reading after `writeByte`. -/
@[simp] theorem memGet_writeByte (a x : Nat) (b : Byte) (s : State) :
    memGet (writeByte a b s).lm x = if x = a then some b else memGet s.lm x := by
  by_cases h : memGet s.lm a = some b
  · by_cases hx : x = a
    · subst hx
      simp [writeByte, h]
    · simp [writeByte, h, hx]
  · simp [writeByte, h]

/-- `writeByte` to a 32-bit address keeps the canonical form. -/
theorem writeByte_wf {a : Nat} (b : Byte) {s : State} (h : Memory.wf s.lm) (ha : a < 2 ^ 32) :
    Memory.wf (writeByte a b s).lm := by
  rcases writeByte_lm a b s with h1 | h1 <;> rw [h1]
  · exact h
  · exact memSet_wf b h ha

/-- Everything `writeByte` does: it changes memory at one address and the record of stale bytes. -/
theorem writeByte_eq (a : Nat) (b : Byte) (s : State) :
    ∃ m st, writeByte a b s = { s with lm := m, stale := st } ∧
      (m = s.lm ∨ m = memSet s.lm a b) := by
  unfold writeByte
  split_ifs with h
  · exact ⟨s.lm, s.stale, rfl, .inl rfl⟩
  · exact ⟨_, _, rfl, .inr rfl⟩

/-- `writeBytes` to 32-bit addresses keeps the canonical form. -/
theorem writeBytes_wf {l : List (Nat × Byte)} {s : State} (h : Memory.wf s.lm)
    (hl : ∀ c ∈ l, c.1 < 2 ^ 32) : Memory.wf (writeBytes l s).lm := by
  induction l generalizing s with
  | nil => exact h
  | cons c rest ih =>
    simp only [List.forall_mem_cons] at hl
    exact ih (writeByte_wf _ h hl.1) hl.2

/-- Everything `writeBytes` does: it changes memory and the record of stale bytes; memory is changed at the
listed addresses only. -/
theorem writeBytes_eq (l : List (Nat × Byte)) (s : State) :
    ∃ m st, writeBytes l s = { s with lm := m, stale := st } ∧
      ∀ x, x ∉ l.map Prod.fst → memGet m x = memGet s.lm x := by
  induction l generalizing s with
  | nil => exact ⟨s.lm, s.stale, rfl, fun _ _ => rfl⟩
  | cons c rest ih =>
    obtain ⟨a, b⟩ := c
    obtain ⟨m, st, h1, h2⟩ := ih (writeByte a b s)
    obtain ⟨m', st', h3, -⟩ := writeByte_eq a b s
    refine ⟨m, st, ?_, fun x hx => ?_⟩
    · rw [writeBytes, h1, h3]
    · simp only [List.map_cons, List.mem_cons, not_or] at hx
      rw [h2 x hx.2, memGet_writeByte, if_neg hx.1]

/-- The addresses of an access are 32-bit addresses. -/
theorem lmAddrs_lt {la : Word} {n a : Nat} (h : a ∈ lmAddrs la n) : a < 2 ^ 32 := by
  simp only [lmAddrs, List.mem_map] at h
  obtain ⟨k, -, rfl⟩ := h
  exact (la + BitVec.ofNat 32 k).isLt

/-- Every address of an access to an accessible range is accessible. -/
theorem lmOk_of_mem_lmAddrs {p : Params} {la : Word} {n a : Nat} (h : lmOkRange p la n = true)
    (ha : a ∈ lmAddrs la n) : lmOk p a = true := by
  simp only [lmAddrs, List.mem_map] at ha
  obtain ⟨k, hk, rfl⟩ := ha
  exact List.all_eq_true.1 h k hk

/-- `LMWrite` keeps the canonical form. -/
theorem lmWrite_wf {la : Word} {n v : Nat} {s : State} (h : Memory.wf s.lm) :
    Memory.wf (lmWrite la n v s).lm := by
  refine writeBytes_wf h fun c hc => ?_
  exact lmAddrs_lt (List.of_mem_zip hc).1

/-- Placing an instruction keeps the canonical form. -/
theorem foldl_memSet_wf {l : List (Nat × Byte)} {m : Memory} (h : Memory.wf m)
    (hl : ∀ c ∈ l, c.1 < 2 ^ 32) : Memory.wf (l.foldl (fun m c => memSet m c.1 c.2) m) := by
  induction l generalizing m with
  | nil => exact h
  | cons c rest ih =>
    simp only [List.forall_mem_cons] at hl
    exact ih (memSet_wf _ h hl.1) hl.2

/-- A little-endian quantity of `n` bytes is below `256 ^ n`. -/
theorem leNat_lt (bs : List Byte) : leNat bs < 256 ^ bs.length := by
  induction bs with
  | nil => simp [leNat]
  | cons b rest ih =>
    have := b.isLt
    simp only [leNat, List.length_cons, pow_succ]
    omega

end Sys2Proof.Machine
end

