-- ==== Sys2Proof/Laws/Mmu.lean ====
section
/-! SUPPORT. Laws/Mmu.lean: what Lookup, Translate, Fetch, MemRead and MemWrite can do, said once. -/

namespace Sys2Proof.Machine

/-! ### Pages -/

/-- Dropping the low bits twice is dropping them once. -/
@[simp] theorem pageBase_pageBase (z : SizeCode) (a : Word) : pageBase z (pageBase z a) = pageBase z a := by
  unfold pageBase
  apply BitVec.eq_of_getLsbD_eq
  intro i hi
  simp only [BitVec.getLsbD_shiftLeft, BitVec.getLsbD_ushiftRight]
  by_cases h : i < 12 + 2 * z.val
  · simp [h]
  · have h1 : 12 + 2 * z.val + (i - (12 + 2 * z.val)) = i := by omega
    simp [h, h1, hi]

/-! ### Pages: what a walk depends on -/

/-- The first address of a page, as a number. -/
theorem pageBase_toNat (z : SizeCode) (a : Word) :
    (pageBase z a).toNat = a.toNat / 2 ^ (12 + 2 * z.val) * 2 ^ (12 + 2 * z.val) := by
  have hz := z.isLt
  have h := a.isLt
  unfold pageBase
  rw [BitVec.toNat_shiftLeft, BitVec.toNat_ushiftRight, Nat.shiftLeft_eq, Nat.shiftRight_eq_div_pow,
    Nat.mod_eq_of_lt]
  have := Nat.div_mul_le_self a.toNat (2 ^ (12 + 2 * z.val))
  omega

theorem div_pageBytes_of_samePage {z a b : Nat} (h : a / 4096 = b / 4096) :
    a / 2 ^ (12 + 2 * z) = b / 2 ^ (12 + 2 * z) := by
  rw [Nat.pow_add, show 2 ^ 12 = 4096 from rfl, ← Nat.div_div_eq_div_mul, ← Nat.div_div_eq_div_mul, h]

theorem pageBase_of_samePage (z : SizeCode) {a b : Word} (h : a.toNat / 4096 = b.toNat / 4096) :
    pageBase z a = pageBase z b := by
  apply BitVec.eq_of_toNat_eq
  rw [pageBase_toNat, pageBase_toNat, div_pageBytes_of_samePage h]

/-- Which entry of a list a walk matches depends on the 4 KB page only. -/
theorem chainWalk_of_samePage {a b : Word} (h : a.toNat / 4096 = b.toNat / 4096) (c : Chain) :
    chainWalk a c = chainWalk b c := by
  induction c with
  | ends how => rfl
  | entry z e rest ih => simp only [chainWalk, ih, pageBase_of_samePage _ h]

/-- A walk answers the same for every address of a 4 KB page. -/
theorem walk_of_samePage (p : Params) (m : Memory) (map : MapSel) {a b : Word}
    (h : a.toNat / 4096 = b.toNat / 4096) : walk p m map a = walk p m map b := by
  cases map with
  | initial => simp only [walk, initialWalk, h, pageBase_of_samePage _ h]
  | linear base => exact chainWalk_of_samePage h _
  | tables base =>
    have h1 : a.toNat / 2 ^ 22 = b.toNat / 2 ^ 22 := div_pageBytes_of_samePage (z := 5) h
    have h2 : ∀ z : SizeCode, a.toNat % 2 ^ 22 / pageBytes z = b.toNat % 2 ^ 22 / pageBytes z := by
      intro z
      apply div_pageBytes_of_samePage (z := z.val)
      omega
    simp only [walk, tableWalk, tableEntry, tableWalk2, h1, h2]

/-- The logical address of a translation whose page is aligned, as a number. -/
theorem xlatAddr_toNat {t : Xlat} (h : pageBase t.size t.page = t.page) (va : Word) :
    (xlatAddr t va).toNat = t.page.toNat + va.toNat % 2 ^ (12 + 2 * t.size.val) := by
  have hz := t.size.isLt
  have h1 : (pageOffset t.size va).toNat = va.toNat % 2 ^ (12 + 2 * t.size.val) := by
    rw [pageOffset, pageBytes, BitVec.toNat_ofNat, Nat.mod_eq_of_lt]
    exact lt_of_lt_of_le (Nat.mod_lt _ (Nat.two_pow_pos _))
      (Nat.pow_le_pow_right (by norm_num) (by omega))
  rw [xlatAddr, BitVec.toNat_or, h1, ← h, pageBase_toNat, mul_comm]
  exact (Nat.two_pow_add_eq_or_of_lt (Nat.mod_lt _ (Nat.two_pow_pos _)) _).symm

theorem chainWalk_page {va : Word} {c : Chain} {x : Xlat} (h : chainWalk va c = .answer (.hit x)) :
    pageBase x.size x.page = x.page := by
  induction c with
  | ends how => cases how <;> cases h
  | entry z e rest ih =>
    unfold chainWalk at h
    split_ifs at h
    · cases h
      exact pageBase_pageBase _ _
    · exact ih h

/-- The logical page of a translation that a walk gives is aligned to its size. -/
theorem walk_page {p : Params} {m : Memory} {map : MapSel} {va : Word} {x : Xlat}
    (h : walk p m map va = .answer (.hit x)) : pageBase x.size x.page = x.page := by
  cases map with
  | initial =>
    simp only [walk, initialWalk] at h
    split_ifs at h
    · cases h
      exact pageBase_pageBase _ _
    · cases h
  | linear base => exact chainWalk_page h
  | tables base =>
    simp only [walk, tableWalk] at h
    split at h
    · cases h
    · split at h
      · cases h
      · split_ifs at h
        · cases h
          exact pageBase_pageBase _ _
        · unfold tableWalk2 at h
          dsimp only at h
          split at h
          · cases h
          · cases h
            exact pageBase_pageBase _ _

/-- What a walk answers is a whole cached page. -/
theorem cachedOf_ok {p : Params} {m : Memory} {map : MapSel} {va : Word} {l : Lookup}
    (h : walk p m map va = .answer l) : CachedOk (cachedOf va l) := by
  cases l with
  | hit t =>
    refine ⟨pageBase_pageBase _ _, fun x hx => ?_⟩
    cases hx
    exact ⟨rfl, walk_page h⟩
  | noTranslation => exact ⟨pageBase_pageBase _ _, fun x hx => by cases hx⟩
  | invalid => exact ⟨pageBase_pageBase _ _, fun x hx => by cases hx⟩

/-! ### What an access may change besides its effect -/

/-- `t` is `s` but for free values read and what is kept in the executing processor's `TC`, which stays well
formed. -/
def Touched (s t : State) : Prop :=
  ∃ tc n, t = { s with self := { s.self with tc := tc }, free := n } ∧
    ((∀ c ∈ s.self.tc, CachedOk c) → ∀ c ∈ tc, CachedOk c)

theorem Touched.refl (s : State) : Touched s s := ⟨s.self.tc, s.free, rfl, id⟩

theorem Touched.trans {s t u : State} (h1 : Touched s t) (h2 : Touched t u) : Touched s u := by
  obtain ⟨tc, n, rfl, h1⟩ := h1
  obtain ⟨tc', n', rfl, h2⟩ := h2
  exact ⟨tc', n', rfl, h2 ∘ h1⟩

theorem Touched.of_free (s : State) (n : Nat) : Touched s { s with free := n } :=
  ⟨s.self.tc, n, rfl, id⟩

theorem Touched.drawFrom {α : Type} (d : α) (l : List α) (s : State) :
    Touched s (drawFrom d l s).2 := by
  obtain ⟨n, h⟩ := drawFrom_state d l s
  rw [h]
  exact Touched.of_free s n

theorem Touched.badLogical (acc : AccessKind) (va : Word) (s : State) :
    Touched s (badLogical acc va s).2 :=
  Touched.drawFrom _ _ s

/-! ### Lookup -/

/-- Everything Lookup can do (20_memory.md R70): it gives a fresh walk or a covering cached copy, and reads
at most one free value. -/
theorem lookup_spec (va : Word) (s : State) :
    ((lookup va s).1 = walk s.params s.lm s.self.map va ∨
      ∃ c ∈ s.self.tc, covers va c = true ∧ (lookup va s).1 = .answer c.answer) ∧
    ∃ n, (lookup va s).2 = { s with free := n } := by
  have h := drawFrom_spec (walk s.params s.lm s.self.map va)
    (walk s.params s.lm s.self.map va ::
      (s.self.tc.filter (covers va)).map fun c => Walk.answer c.answer).dedup s
    (by
      intro h0
      have := List.mem_dedup.2 (List.mem_cons_self (a := walk s.params s.lm s.self.map va)
        (l := (s.self.tc.filter (covers va)).map fun c => Walk.answer c.answer))
      rw [h0] at this
      simp at this)
  refine ⟨?_, h.2⟩
  have h1 := List.mem_dedup.1 h.1
  rcases List.mem_cons.1 h1 with h2 | h2
  · exact .inl h2
  · obtain ⟨c, hc, h3⟩ := List.mem_map.1 h2
    rw [List.mem_filter] at hc
    exact .inr ⟨c, hc.1, hc.2, h3.symm⟩

/-- Where no cached copy differs from the walk, Lookup is the walk. -/
theorem lookup_agrees {s : State} {va : Word} (h : CacheAgrees s va) :
    lookup va s = (walk s.params s.lm s.self.map va, s) := by
  have h1 : ∀ l : List Cached, (∀ c ∈ l, walk s.params s.lm s.self.map va = .answer c.answer) →
      (walk s.params s.lm s.self.map va :: l.map fun c => Walk.answer c.answer).dedup =
        [walk s.params s.lm s.self.map va] := by
    intro l hl
    induction l with
    | nil => rfl
    | cons c rest ih =>
      rw [List.map_cons, ← hl c (List.mem_cons_self ..), List.dedup_cons_of_mem (List.mem_cons_self ..)]
      exact ih fun d hd => hl d (List.mem_cons_of_mem _ hd)
  unfold lookup
  dsimp only
  rw [h1 _ fun c hc => h c (List.mem_filter.1 hc).1 (List.mem_filter.1 hc).2]
  rfl

theorem Touched.lookup (va : Word) (s : State) : Touched s (lookup va s).2 :=
  Touched.drawFrom _ _ s

/-- Keeping what Lookup answered leaves `TC` well formed. -/
theorem Touched.lookup_keep {va : Word} {s s1 : State} {l : Lookup}
    (h : Machine.lookup va s = (.answer l, s1)) :
    Touched s { s1 with self := keepCached (cachedOf va l) s1.self } := by
  obtain ⟨h1, n, h2⟩ := lookup_spec va s
  rw [h] at h1 h2
  dsimp only at h1 h2
  subst h2
  refine ⟨(keepCached (cachedOf va l) s.self).tc, n, rfl, fun hs c hc => ?_⟩
  unfold keepCached at hc
  dsimp only at hc
  split_ifs at hc
  · exact hs c hc
  · rcases List.mem_cons.1 hc with rfl | hc
    · rcases h1 with h1 | ⟨d, hd, -, h1⟩
      · exact cachedOf_ok h1.symm
      · cases h1
        have hd := hs d hd
        cases hl : d.answer with
        | hit t =>
          refine ⟨pageBase_pageBase _ _, fun x hx => ?_⟩
          cases hx
          exact ⟨rfl, (hd.2 t hl).2⟩
        | noTranslation => exact ⟨pageBase_pageBase _ _, fun x hx => by cases hx⟩
        | invalid => exact ⟨pageBase_pageBase _ _, fun x hx => by cases hx⟩
    · exact hs c hc

/-! ### Translate -/

/-- What an access leaves: the state it carries differs from the one before only as `Touched` says. -/
def AccessTouched {α : Type} (s : State) : Access α → Prop
  | .ok _ t => Touched s t
  | .raise _ t => Touched s t
  | .stop _ => True

theorem checkAccess_touched (acc : AccessKind) (va : Word) (n : Nat) (l : Lookup) (s : State) :
    AccessTouched s (checkAccess acc va n l s) := by
  unfold checkAccess
  split
  · exact Touched.refl s
  · exact Touched.refl s
  · split_ifs
    · exact Touched.refl s
    · trivial
    · exact Touched.refl s
    · exact Touched.refl s
    · exact Touched.badLogical acc va s
    · split
      · trivial
      · exact Touched.refl s

theorem translate_touched (acc : AccessKind) (va : Word) (n : Nat) (s : State) :
    AccessTouched s (translate acc va n s) := by
  unfold translate
  split_ifs
  · exact Touched.refl s
  · have hl := Touched.lookup va s
    split
    · trivial
    · rename_i s1 h
      rw [h] at hl
      exact hl.trans (Touched.badLogical acc va s1)
    · rename_i l s1 h
      have h1 := Touched.lookup_keep h
      have h2 := checkAccess_touched acc va n l { s1 with self := keepCached (cachedOf va l) s1.self }
      revert h2
      cases checkAccess acc va n l { s1 with self := keepCached (cachedOf va l) s1.self } with
      | ok a t => exact fun h2 => h1.trans h2
      | raise e t => exact fun h2 => h1.trans h2
      | stop st => exact fun _ => trivial

/-- A translated access lies in accessible logical memory. -/
theorem checkAccess_lmOk {acc : AccessKind} {va : Word} {n : Nat} {l : Lookup} {s t : State}
    {a : Located} (h : checkAccess acc va n l s = .ok a t) :
    t = s ∧ lmOkRange s.params a.la n = true := by
  unfold checkAccess at h
  split at h
  · cases h
  · cases h
  · split_ifs at h with h1 h2 h3 h4 h5
    split at h
    · cases h
    · cases h
      exact ⟨rfl, by simpa using h5⟩

/-- A translated access lies in accessible logical memory, below the reserved range. -/
theorem translate_lmOk {acc : AccessKind} {va : Word} {n : Nat} {s t : State} {a : Located}
    (h : translate acc va n s = .ok a t) :
    reservedVa va = false ∧ lmOkRange t.params a.la n = true := by
  unfold translate at h
  split_ifs at h with h1
  refine ⟨by simpa using h1, ?_⟩
  split at h
  · cases h
  · cases h
  · obtain ⟨rfl, h2⟩ := checkAccess_lmOk h
    exact h2

/-! ### Fetch, MemRead, MemWrite -/

theorem fetchBytes_touched (l : List Nat) (s : State) : Touched s (fetchBytes l s).2 := by
  induction l generalizing s with
  | nil => exact Touched.refl s
  | cons a rest ih => exact (Touched.drawFrom none (fetchOptions a s) s).trans (ih _)

theorem fetch_touched (va : Word) (s : State) : AccessTouched s (fetch va s) := by
  unfold fetch
  split_ifs
  · exact Touched.refl s
  · have h := translate_touched .fetch va 4 s
    revert h
    cases translate .fetch va 4 s with
    | ok a t =>
      intro h
      dsimp only
      generalize lmAddrs a.la 4 = l
      exact Touched.trans h (fetchBytes_touched l t)
    | raise e t => exact fun h => h
    | stop st => exact fun _ => trivial

theorem memRead_touched (va : Word) (z : AccessSize) (s : State) :
    AccessTouched s (memRead va z s) := by
  unfold memRead
  split_ifs
  · exact Touched.refl s
  · have h := translate_touched .load va (accessBytes z) s
    revert h
    cases translate .load va (accessBytes z) s with
    | ok a t =>
      intro h
      dsimp only
      cases lmRead t.params t.lm a.la (accessBytes z) with
      | bytes bs => exact h
      | inaccessible => exact Touched.trans h (Touched.badLogical .load va t)
    | raise e t => exact fun h => h
    | stop st => exact fun _ => trivial

/-- Everything MemWrite can do: an `LMWrite` to accessible logical memory after a translation, or an event
or a stop with nothing written. -/
theorem memWrite_cases (va : Word) (z : AccessSize) (v : DWord) (s : State) :
    (∃ a t, Touched s t ∧ lmOkRange t.params a (accessBytes z) = true ∧
      memWrite va z v s = .ok () (lmWrite a (accessBytes z) v.toNat t)) ∨
    (∃ e t, Touched s t ∧ memWrite va z v s = .raise e t) ∨
    ∃ st, memWrite va z v s = .stop st := by
  unfold memWrite
  split_ifs
  · exact .inr (.inl ⟨_, s, Touched.refl s, rfl⟩)
  · have h := translate_touched .store va (accessBytes z) s
    cases h1 : translate .store va (accessBytes z) s with
    | ok a t =>
      rw [h1] at h
      exact .inl ⟨a.la, t, h, (translate_lmOk h1).2, rfl⟩
    | raise e t =>
      rw [h1] at h
      exact .inr (.inl ⟨e, t, h, rfl⟩)
    | stop st => exact .inr (.inr ⟨st, rfl⟩)

end Sys2Proof.Machine
end

