-- ==== Sys2Proof/Laws/Frame.lean ====
section
/-! SUPPORT. Laws/Frame.lean: how the frame `OnlyChanges` is composed from the frames of the named
operations, one lemma an operation. -/

namespace Sys2Proof.Machine

/-- Agreement on a part is transitive. -/
theorem sameAt.trans {s t u : State} {p : Part} (h1 : sameAt s t p) (h2 : sameAt t u p) : sameAt s u p := by
  cases p <;> first
    | exact Eq.trans h2 h1
    | exact fun a => Eq.trans (h2 a) (h1 a)

/-- A state agrees with itself. -/
theorem sameAt.refl (s : State) (p : Part) : sameAt s s p := by
  cases p <;> first
    | rfl
    | exact fun _ => rfl

/-- Nothing is changed. -/
theorem OnlyChanges.refl (ps : List Part) (s : State) : OnlyChanges ps s s := fun p _ => sameAt.refl s p

/-- Two changes one after the other. -/
theorem OnlyChanges.trans {ps : List Part} {s t u : State} (h1 : OnlyChanges ps s t)
    (h2 : OnlyChanges ps t u) : OnlyChanges ps s u := fun p hp => (h1 p hp).trans (h2 p hp)

/-- A frame may be widened. -/
theorem OnlyChanges.mono {ps qs : List Part} {s t : State} (h : OnlyChanges ps s t)
    (hs : ∀ p ∈ ps, p ∈ qs) : OnlyChanges qs s t := fun p hp => h p fun hq => hp (hs p hq)

/-- `pc <- t`. -/
theorem OnlyChanges.setPc {ps : List Part} {s t : State} (h : OnlyChanges ps s t) (w : Word)
    (hp : .pc ∈ ps) : OnlyChanges ps s (Sys2Proof.Machine.setPc w t) := by
  refine h.trans fun p hq => ?_
  cases p <;> first
    | exact absurd hp hq
    | rfl
    | exact fun _ => rfl

/-- `pc <- pc + 4`. -/
theorem OnlyChanges.advance {ps : List Part} {s t : State} (h : OnlyChanges ps s t) (hp : .pc ∈ ps) :
    OnlyChanges ps s (Sys2Proof.Machine.advance t) := h.setPc _ hp

/-- `R[i] <- v`. -/
theorem OnlyChanges.setReg {ps : List Part} {s t : State} (h : OnlyChanges ps s t) (i : Fin 32) (v : Word)
    (hp : .reg i ∈ ps) : OnlyChanges ps s (Sys2Proof.Machine.setReg i v t) := by
  refine h.trans fun p hq => ?_
  cases p with
  | reg j =>
    have hij : i ≠ j := fun e => hq (e ▸ hp)
    simp [sameAt, hij]
  | memory => exact fun _ => rfl
  | _ => rfl

/-- The counter of free values is no part. -/
theorem OnlyChanges.free {ps : List Part} {s t : State} (h : OnlyChanges ps s t) (n : Nat) :
    OnlyChanges ps s { t with free := n } := by
  refine h.trans fun p _ => ?_
  cases p <;> first
    | rfl
    | exact fun _ => rfl

/-- Taking an interrupt from the controller. -/
theorem OnlyChanges.takeInterrupt {ps : List Part} {s t : State} (h : OnlyChanges ps s t) (n : Nat)
    (hp : .pending ∈ ps) (hg : .gen ∈ ps) : OnlyChanges ps s (Sys2Proof.Machine.takeInterrupt n t) := by
  refine h.trans fun p hq => ?_
  cases p <;> first
    | exact absurd hp hq
    | exact absurd hg hq
    | rfl
    | exact fun _ => rfl

/-- An access that gives no effect leaves all but the cached translations of the executing processor. -/
theorem OnlyChanges.touched {s t : State} (h : Touched s t) : OnlyChanges [.tc] s t := by
  obtain ⟨tc, n, rfl, -⟩ := h
  intro p hq
  cases p <;> first
    | exact absurd (List.mem_singleton.2 rfl) hq
    | rfl
    | exact fun _ => rfl

end Sys2Proof.Machine
end

