-- ==== Sys2Proof/Laws/Maps.lean ====
section
/-! SUPPORT. Laws/Maps.lean: what the scan of a whole map says: `mapYields` asks about every address below the
reserved range. -/

namespace Sys2Proof.Machine

/-! ### Pages -/

/-- The first address of the 4 KB page of `va`. -/
def pageStart (va : Word) : Word := BitVec.ofNat 32 (4096 * (va.toNat / 4096))

theorem pageStart_toNat (va : Word) : (pageStart va).toNat = 4096 * (va.toNat / 4096) := by
  have := va.isLt
  rw [pageStart, BitVec.toNat_ofNat]
  omega

theorem pageStart_samePage (va : Word) : (pageStart va).toNat / 4096 = va.toNat / 4096 := by
  rw [pageStart_toNat]
  omega

/-- Two addresses with the same first 4 KB page number have the same page of every size. -/
theorem pageBase_pageStart (z : SizeCode) (va : Word) : pageBase z (pageStart va) = pageBase z va :=
  pageBase_of_samePage z (pageStart_samePage va)

theorem reservedVa_eq_false {va : Word} : reservedVa va = false ↔ va.toNat < 0xFF000000 := by
  simp only [reservedVa, decide_eq_false_iff_not]
  omega

/-- What `hitMeets` asks of a walk. -/
theorem hitMeets_iff {q : Word → Xlat → Bool} {va : Word} {w : Walk} :
    hitMeets q va w = true ↔ ∃ t, w = .answer (.hit t) ∧ q (pageBase t.size va) t = true := by
  rcases w with (t | _ | _) | _ | _ <;> simp [hitMeets]

/-- By the map, `va` has a translation for which `q` holds. -/
def Yields (p : Params) (m : Memory) (map : MapSel) (q : Word → Xlat → Bool) (va : Word) : Prop :=
  ∃ t, walk p m map va = .answer (.hit t) ∧ q (pageBase t.size va) t = true

theorem Yields.samePage {p : Params} {m : Memory} {map : MapSel} {q : Word → Xlat → Bool} {a b : Word}
    (h : a.toNat / 4096 = b.toNat / 4096) : Yields p m map q a ↔ Yields p m map q b := by
  simp only [Yields, walk_of_samePage p m map h, pageBase_of_samePage _ h]

/-! ### The initial map -/

theorem mem_initialSamples {p : Params} {a : Word} :
    a ∈ initialSamples p ↔ ∃ k, p.segPage ≤ k ∧ k < p.segPage + p.segPages ∧ k < 0xFF000 ∧
      a = BitVec.ofNat 32 (4096 * k) := by
  simp only [initialSamples, List.mem_map, List.mem_filter, List.mem_range, decide_eq_true_eq]
  constructor
  · rintro ⟨k, ⟨⟨i, hi, rfl⟩, hk⟩, rfl⟩
    exact ⟨p.segPage + i, by omega, by omega, hk, rfl⟩
  · rintro ⟨k, h1, h2, h3, rfl⟩
    exact ⟨k, ⟨⟨k - p.segPage, by omega, by omega⟩, h3⟩, rfl⟩

theorem initialYields_iff (p : Params) (m : Memory) (q : Word → Xlat → Bool) :
    mapYields p m .initial q = true ↔
      ∃ va : Word, va.toNat < 0xFF000000 ∧ Yields p m .initial q va := by
  simp only [mapYields, List.any_eq_true, hitMeets_iff]
  constructor
  · rintro ⟨va, hm, h⟩
    obtain ⟨k, -, -, hk, rfl⟩ := mem_initialSamples.1 hm
    refine ⟨_, ?_, h⟩
    rw [BitVec.toNat_ofNat]
    omega
  · rintro ⟨va, hv, h⟩
    refine ⟨pageStart va, mem_initialSamples.2 ⟨va.toNat / 4096, ?_⟩,
      (Yields.samePage (pageStart_samePage va)).2 h⟩
    obtain ⟨t, ht, -⟩ := h
    simp only [walk, initialWalk] at ht
    split_ifs at ht with hc
    · simp only [Bool.and_eq_true, decide_eq_true_eq] at hc
      exact ⟨hc.1, hc.2, by omega, rfl⟩
    · cases ht

/-! ### Lists -/

/-- The translation entries of a list. -/
def Chain.entries : Chain → List (SizeCode × DWord)
  | .ends _ => []
  | .entry z e rest => (z, e) :: rest.entries

/-- A hit is by an entry that matches. -/
theorem chainWalk_hit {va : Word} {c : Chain} {t : Xlat} (h : chainWalk va c = .answer (.hit t)) :
    ∃ z e, (z, e) ∈ c.entries ∧ t = listXlat z e ∧ pageBase z va = pageBase z (listVirtual e) := by
  induction c with
  | ends how => cases how <;> cases h
  | entry z e rest ih =>
    unfold chainWalk at h
    split_ifs at h with h1
    · cases h
      exact ⟨z, e, List.mem_cons_self .., rfl, h1⟩
    · obtain ⟨z', e', h2, h3⟩ := ih h
      exact ⟨z', e', List.mem_cons_of_mem _ h2, h3⟩

/-- What `chainYields` asks of the entries from a place on. -/
theorem chainYields_iff_entries (whole : Chain) (q : Word → Xlat → Bool) (c : Chain) :
    chainYields whole q c = true ↔ ∃ z e, (z, e) ∈ c.entries ∧
      q (pageBase z (listVirtual e)) (listXlat z e) = true ∧
      ∃ k, k < 2 ^ (2 * z.val) ∧
        (pageBase z (listVirtual e) + BitVec.ofNat 32 (4096 * k)).toNat < 0xFF000000 ∧
        chainWalk (pageBase z (listVirtual e) + BitVec.ofNat 32 (4096 * k)) whole =
          .answer (.hit (listXlat z e)) := by
  induction c with
  | ends how => simp [chainYields, Chain.entries]
  | entry z e rest ih =>
    simp only [chainYields, Bool.or_eq_true, ih, Chain.entries, List.mem_cons, Prod.mk.injEq,
      Bool.and_eq_true, List.any_eq_true, List.mem_range, beq_iff_eq, Bool.not_eq_true', reservedVa_eq_false]
    constructor
    · rintro (h | ⟨z', e', h1, h2⟩)
      · exact ⟨z, e, .inl ⟨rfl, rfl⟩, h⟩
      · exact ⟨z', e', .inr h1, h2⟩
    · rintro ⟨z', e', ⟨rfl, rfl⟩ | h1, h2⟩
      · exact .inl h2
      · exact .inr ⟨z', e', h1, h2⟩

/-- An address `4096*k` into a page of size `z` lies in that page, without a carry out of 32 bits. -/
theorem page_piece (z : SizeCode) (a : Word) {k : Nat} (hk : k < 2 ^ (2 * z.val)) :
    (pageBase z a + BitVec.ofNat 32 (4096 * k)).toNat = (pageBase z a).toNat + 4096 * k ∧
      pageBase z (pageBase z a + BitVec.ofNat 32 (4096 * k)) = pageBase z a := by
  have hz := z.isLt
  have ha := a.isLt
  have hb := pageBase_toNat z a
  have e : 2 ^ (12 + 2 * z.val) = 4096 * 2 ^ (2 * z.val) := by rw [Nat.pow_add]
  have hd : 2 ^ (12 + 2 * z.val) * 2 ^ (20 - 2 * z.val) = 2 ^ 32 := by
    rw [← Nat.pow_add]
    congr 1
    omega
  have hq : a.toNat / 2 ^ (12 + 2 * z.val) < 2 ^ (20 - 2 * z.val) := by
    rw [Nat.div_lt_iff_lt_mul (Nat.two_pow_pos _), mul_comm, hd]
    exact ha
  have hle : (pageBase z a).toNat + 2 ^ (12 + 2 * z.val) ≤ 2 ^ 32 := by
    rw [hb, ← hd, mul_comm (2 ^ (12 + 2 * z.val)) (2 ^ (20 - 2 * z.val)), ← Nat.succ_mul]
    exact Nat.mul_le_mul_right _ hq
  have hk' : 4096 * k < 2 ^ (12 + 2 * z.val) := by rw [e]; omega
  have h1 : (pageBase z a + BitVec.ofNat 32 (4096 * k)).toNat = (pageBase z a).toNat + 4096 * k := by
    rw [BitVec.toNat_add, BitVec.toNat_ofNat, Nat.mod_eq_of_lt (a := 4096 * k) (by omega), Nat.mod_eq_of_lt]
    omega
  refine ⟨h1, BitVec.eq_of_toNat_eq ?_⟩
  rw [pageBase_toNat, h1, hb, mul_comm (a.toNat / _), Nat.mul_add_div (Nat.two_pow_pos _),
    Nat.div_eq_of_lt hk', add_zero]
  exact mul_comm _ _

theorem listYields_iff (p : Params) (m : Memory) (base : Word) (q : Word → Xlat → Bool) :
    mapYields p m (.linear base) q = true ↔
      ∃ va : Word, va.toNat < 0xFF000000 ∧ Yields p m (.linear base) q va := by
  simp only [mapYields, chainYields_iff_entries]
  constructor
  · rintro ⟨z, e, -, hq, k, hk, hv, hw⟩
    refine ⟨_, hv, listXlat z e, hw, ?_⟩
    have := (page_piece z (listVirtual e) hk).2
    show q (pageBase z _) _ = true
    rw [this]
    exact hq
  · rintro ⟨va, hv, t, hw, hq⟩
    obtain ⟨z, e, hm, rfl, hp⟩ := chainWalk_hit hw
    have hq : q (pageBase z va) (listXlat z e) = true := hq
    refine ⟨z, e, hm, hp ▸ hq, (va.toNat - (pageBase z va).toNat) / 4096, ?_, ?_⟩
    · rw [Nat.div_lt_iff_lt_mul (by norm_num), pageBase_toNat, mul_comm (2 ^ (2 * z.val)),
        show 4096 * 2 ^ (2 * z.val) = 2 ^ (12 + 2 * z.val) by rw [Nat.pow_add]]
      have := Nat.div_add_mod va.toNat (2 ^ (12 + 2 * z.val))
      have := Nat.mod_lt va.toNat (Nat.two_pow_pos (12 + 2 * z.val))
      have := mul_comm (va.toNat / 2 ^ (12 + 2 * z.val)) (2 ^ (12 + 2 * z.val))
      omega
    · have hs : pageBase z (listVirtual e) + BitVec.ofNat 32 (4096 * ((va.toNat - (pageBase z va).toNat) / 4096)) =
          pageStart va := by
        rw [← hp]
        apply BitVec.eq_of_toNat_eq
        have h4 : (pageBase z va).toNat % 4096 = 0 := by
          rw [pageBase_toNat, Nat.pow_add, mul_comm, mul_assoc]
          exact Nat.mul_mod_right ..
        have hle : (pageBase z va).toNat ≤ va.toNat := by
          rw [pageBase_toNat]
          exact Nat.div_mul_le_self ..
        have := va.isLt
        rw [pageStart_toNat, BitVec.toNat_add, BitVec.toNat_ofNat]
        omega
      rw [hs]
      refine ⟨?_, ?_⟩
      · rw [pageStart_toNat]
        omega
      · rw [chainWalk_of_samePage (pageStart_samePage va)]
        exact hw

/-! ### Page tables -/

/-- The size code of the L1 entry for `va`; `none` where the entry is inaccessible or has S = 7. -/
def l1Size (p : Params) (m : Memory) (base va : Word) : Option SizeCode :=
  (tableEntry p m base va).bind fun e1 => sizeCode (e1.extractLsb' 0 3)

theorem tableEntry_congr (p : Params) (m : Memory) (base : Word) {a b : Word}
    (h : a.toNat / 2 ^ 22 = b.toNat / 2 ^ 22) : tableEntry p m base a = tableEntry p m base b := by
  rw [tableEntry, tableEntry, h]

theorem pow_dvd_22 (z : SizeCode) (hz : z.val < 5) :
    2 ^ (10 - 2 * z.val) * 2 ^ (12 + 2 * z.val) = 2 ^ 22 := by
  rw [← Nat.pow_add]
  congr 1
  omega

/-- A walk of a page table depends on the L1 index and, under a directory entry, on the L2 index. -/
theorem tableWalk_congr (p : Params) (m : Memory) (base : Word) {a b : Word}
    (h : a.toNat / 2 ^ 22 = b.toNat / 2 ^ 22)
    (h2 : ∀ z, l1Size p m base a = some z → z.val < 5 → a.toNat / pageBytes z = b.toNat / pageBytes z) :
    tableWalk p m base a = tableWalk p m base b := by
  unfold tableWalk
  rw [← tableEntry_congr p m base h]
  cases he : tableEntry p m base a with
  | none => rfl
  | some e1 =>
    dsimp only
    cases hz : sizeCode (e1.extractLsb' 0 3) with
    | none => rfl
    | some z =>
      dsimp only
      split_ifs with h5
      · rfl
      · have h3 := h2 z (by rw [l1Size, he]; exact hz) (by omega)
        have h4 : ∀ x : Nat, x % 2 ^ 22 / pageBytes z = x / pageBytes z % 2 ^ (10 - 2 * z.val) := by
          intro x
          rw [pageBytes, ← pow_dvd_22 z (by omega), mul_comm, Nat.mod_mul_right_div_self]
        simp only [tableWalk2, h4, h3]

/-- Two addresses in one page of size `z` have the same page base. -/
theorem pageBase_congr {z : SizeCode} {a b : Word}
    (h : a.toNat / 2 ^ (12 + 2 * z.val) = b.toNat / 2 ^ (12 + 2 * z.val)) : pageBase z a = pageBase z b :=
  BitVec.eq_of_toNat_eq (by rw [pageBase_toNat, pageBase_toNat, h])

theorem l1_toNat {i : Nat} (h : i < 1020) : (BitVec.ofNat 32 (i * 2 ^ 22)).toNat = i * 2 ^ 22 := by
  rw [BitVec.toNat_ofNat]
  omega

/-- The address of the `j`-th L2 entry's page under the `i`-th L1 entry. -/
theorem l2_toNat {i j : Nat} {z : SizeCode} (hi : i < 1020) (hz : z.val < 5) (hj : j < 2 ^ (10 - 2 * z.val)) :
    (BitVec.ofNat 32 (i * 2 ^ 22) + BitVec.ofNat 32 (j * pageBytes z)).toNat = i * 2 ^ 22 + j * pageBytes z ∧
      j * pageBytes z + pageBytes z ≤ 2 ^ 22 := by
  have h1 : j * pageBytes z + pageBytes z ≤ 2 ^ 22 := by
    rw [← pow_dvd_22 z hz, ← Nat.succ_mul]
    exact Nat.mul_le_mul_right _ hj
  refine ⟨?_, h1⟩
  have h2 : 0 < pageBytes z := Nat.two_pow_pos _
  rw [BitVec.toNat_add, l1_toNat hi, BitVec.toNat_ofNat]
  omega

theorem mem_tableSamples {p : Params} {m : Memory} {base a : Word} :
    a ∈ tableSamples p m base ↔ ∃ i, i < 1020 ∧
      match l1Size p m base (BitVec.ofNat 32 (i * 2 ^ 22)) with
      | none => a = BitVec.ofNat 32 (i * 2 ^ 22)
      | some z =>
        if 5 ≤ z.val then a = BitVec.ofNat 32 (i * 2 ^ 22)
        else ∃ j, j < 2 ^ (10 - 2 * z.val) ∧
          a = BitVec.ofNat 32 (i * 2 ^ 22) + BitVec.ofNat 32 (j * pageBytes z) := by
  simp only [tableSamples, List.mem_flatMap, List.mem_range, l1Size]
  refine exists_congr fun i => and_congr_right fun _ => ?_
  generalize (tableEntry p m base (BitVec.ofNat 32 (i * 2 ^ 22))).bind _ = o
  cases o with
  | none => exact List.mem_singleton
  | some z =>
    dsimp only
    split_ifs
    · exact List.mem_singleton
    · simp only [List.mem_map, List.mem_range, eq_comm]

/-- Every sample is below the reserved range. -/
theorem tableSamples_lt {p : Params} {m : Memory} {base a : Word} (h : a ∈ tableSamples p m base) :
    a.toNat < 0xFF000000 := by
  obtain ⟨i, hi, h⟩ := mem_tableSamples.1 h
  split at h
  · rw [h, l1_toNat hi]
    omega
  · split_ifs at h with h5
    · rw [h, l1_toNat hi]
      omega
    · obtain ⟨j, hj, rfl⟩ := h
      rename_i z _
      obtain ⟨h1, h2⟩ := l2_toNat (z := z) hi (by omega) hj
      have h3 : 0 < pageBytes z := Nat.two_pow_pos _
      rw [h1]
      omega

theorem tableWalk_hit {p : Params} {m : Memory} {base va : Word} {t : Xlat}
    (h : tableWalk p m base va = .answer (.hit t)) : l1Size p m base va = some t.size := by
  unfold tableWalk at h
  unfold l1Size
  split at h
  · cases h
  · rename_i e1 he
    rw [he]
    split at h
    · cases h
    · rename_i z hz
      split_ifs at h
      · cases h
        exact hz
      · unfold tableWalk2 at h
        dsimp only at h
        split at h
        · cases h
        · cases h
          exact hz

/-- Every address below the reserved range is walked like some sample, of the same page. -/
theorem tableSamples_complete (p : Params) (m : Memory) (base : Word) {va : Word} (hv : va.toNat < 0xFF000000) :
    ∃ a ∈ tableSamples p m base, tableWalk p m base a = tableWalk p m base va ∧
      ∀ t, tableWalk p m base va = .answer (.hit t) → pageBase t.size a = pageBase t.size va := by
  have hi : va.toNat / 2 ^ 22 < 1020 := by omega
  have hl : (BitVec.ofNat 32 (va.toNat / 2 ^ 22 * 2 ^ 22)).toNat / 2 ^ 22 = va.toNat / 2 ^ 22 := by
    rw [l1_toNat hi]
    omega
  have hs : l1Size p m base (BitVec.ofNat 32 (va.toNat / 2 ^ 22 * 2 ^ 22)) = l1Size p m base va := by
    rw [l1Size, l1Size, tableEntry_congr p m base hl]
  by_cases hz : ∃ z, l1Size p m base va = some z ∧ z.val < 5
  · obtain ⟨z, hz, h5⟩ := hz
    have hb : 0 < pageBytes z := Nat.two_pow_pos _
    have hj : va.toNat % 2 ^ 22 / pageBytes z < 2 ^ (10 - 2 * z.val) := by
      rw [Nat.div_lt_iff_lt_mul hb, pageBytes, pow_dvd_22 z h5]
      omega
    obtain ⟨h1, h2⟩ := l2_toNat hi h5 hj
    have h3 : (BitVec.ofNat 32 (va.toNat / 2 ^ 22 * 2 ^ 22) +
        BitVec.ofNat 32 (va.toNat % 2 ^ 22 / pageBytes z * pageBytes z)).toNat / pageBytes z =
          va.toNat / pageBytes z := by
      have e : va.toNat / 2 ^ 22 * 2 ^ 22 = pageBytes z * (va.toNat / 2 ^ 22 * 2 ^ (10 - 2 * z.val)) := by
        rw [← pow_dvd_22 z h5, pageBytes]
        ac_rfl
      rw [h1, e, Nat.mul_add_div hb, Nat.mul_div_cancel _ hb]
      conv_rhs => rw [← Nat.div_add_mod va.toNat (2 ^ 22), mul_comm (2 ^ 22), e, Nat.mul_add_div hb]
    refine ⟨BitVec.ofNat 32 (va.toNat / 2 ^ 22 * 2 ^ 22) +
        BitVec.ofNat 32 (va.toNat % 2 ^ 22 / pageBytes z * pageBytes z),
      mem_tableSamples.2 ⟨va.toNat / 2 ^ 22, hi, ?_⟩, tableWalk_congr p m base ?_ ?_, ?_⟩
    · rw [hs, hz]
      dsimp only
      rw [if_neg (by omega)]
      exact ⟨_, hj, rfl⟩
    · rw [h1]
      omega
    · intro z' hz' _
      have h6 : l1Size p m base va = some z' := by
        rw [← hz', l1Size, l1Size]
        rw [tableEntry_congr p m base (a := va)]
        rw [h1]
        omega
      rw [hz] at h6
      cases h6
      exact h3
    · intro t ht
      have := tableWalk_hit ht
      rw [hz] at this
      cases this
      exact pageBase_congr h3
  · refine ⟨BitVec.ofNat 32 (va.toNat / 2 ^ 22 * 2 ^ 22), mem_tableSamples.2 ⟨va.toNat / 2 ^ 22, hi, ?_⟩,
      tableWalk_congr p m base hl fun z h h5 => absurd ⟨z, hs ▸ h, h5⟩ hz, fun t ht => ?_⟩
    · rw [hs]
      split
      · rfl
      · rename_i z h
        rw [if_pos]
        by_contra h5
        exact hz ⟨z, h, by omega⟩
    · have h1 := tableWalk_hit ht
      have h5 : 5 ≤ t.size.val := by
        by_contra h5
        exact hz ⟨t.size, h1, by omega⟩
      refine pageBase_congr ?_
      rw [show 12 + 2 * t.size.val = 22 + 2 * (t.size.val - 5) by omega, Nat.pow_add,
        ← Nat.div_div_eq_div_mul, ← Nat.div_div_eq_div_mul, hl]

theorem tableYields_iff (p : Params) (m : Memory) (base : Word) (q : Word → Xlat → Bool) :
    mapYields p m (.tables base) q = true ↔
      ∃ va : Word, va.toNat < 0xFF000000 ∧ Yields p m (.tables base) q va := by
  simp only [mapYields, List.any_eq_true, hitMeets_iff]
  constructor
  · rintro ⟨va, hm, h⟩
    exact ⟨va, tableSamples_lt hm, h⟩
  · rintro ⟨va, hv, t, ht, hq⟩
    obtain ⟨a, ha, h1, h2⟩ := tableSamples_complete p m base hv
    exact ⟨a, ha, t, h1.trans ht, (h2 t ht).symm ▸ hq⟩

/-- What the scan of a map asks: some address below the reserved range has a translation for which `q`
holds. -/
theorem mapYields_iff (p : Params) (m : Memory) (map : MapSel) (q : Word → Xlat → Bool) :
    mapYields p m map q = true ↔
      ∃ va : Word, va.toNat < 0xFF000000 ∧ ∃ t, walk p m map va = .answer (.hit t) ∧
        q (pageBase t.size va) t = true := by
  cases map with
  | initial => exact initialYields_iff p m q
  | linear base => exact listYields_iff p m base q
  | tables base => exact tableYields_iff p m base q

/-! ### The alias check (20_memory.md R87) -/

/-- Two aligned logical pages have a common page of the larger size. -/
theorem sameLogicalPage_iff {a b : Xlat} : sameLogicalPage a b = true ↔
    a.page.toNat / pageBytes (max a.size b.size) = b.page.toNat / pageBytes (max a.size b.size) := by
  simp only [sameLogicalPage, beq_iff_eq, pageBytes]
  refine ⟨fun h => ?_, pageBase_congr⟩
  have h := congrArg BitVec.toNat h
  rw [pageBase_toNat, pageBase_toNat] at h
  exact Nat.eq_of_mul_eq_mul_right (Nat.two_pow_pos _) h

theorem xlatValid_iff {t : Xlat} : xlatValid t = true ↔ t.r = true ∨ t.w = true ∨ t.x = true := by
  simp [xlatValid, or_assoc]

/-- What the alias check compares. -/
theorem aliases_iff {va va' : Word} {t t' : Xlat} {b : Bool} : aliases va t b va' t' = true ↔
    t'.c ≠ t.c ∧ (t'.r = true ∨ t'.w = true ∨ t'.x = true) ∧
      t.page.toNat / pageBytes (max t.size t'.size) = t'.page.toNat / pageBytes (max t.size t'.size) ∧
      ¬(b = true ∧ t'.page - pageBase t'.size va' = t.page - pageBase t.size va) := by
  simp only [aliases, Bool.and_eq_true, bne_iff_ne, xlatValid_iff, sameLogicalPage_iff, xlatShift, beq_iff_eq,
    Bool.not_eq_true', ← Bool.not_eq_true, and_assoc]

/-- Everything the alias check can say: it finds a conflict exactly where `NoAlias` fails. -/
theorem aliasConflict_eq_false {va : Word} {t : Xlat} {s : State} : aliasConflict va t s = false ↔ NoAlias s va t := by
  have shift : ∀ (z : SizeCode) (a : Word), pageBase z (pageBase z a) = pageBase z a := pageBase_pageBase
  simp only [← Bool.not_eq_true, aliasConflict, List.any_eq_true, Bool.or_eq_true, mapYields_iff]
  constructor
  · intro h v hv va' t' hu hval hpage
    by_contra hc
    simp only [not_or] at hc
    refine h ⟨v, hv, ?_⟩
    rcases hu with ⟨hlt, hw⟩ | ⟨c, hm, rfl, ha⟩
    · refine .inl ⟨va', hlt, t', hw, aliases_iff.2 ⟨hc.1, hval, hpage, ?_⟩⟩
      simpa [shift] using hc.2
    · refine .inr ⟨c, hm, ?_⟩
      rw [cachedAliases, ha]
      exact aliases_iff.2 ⟨hc.1, hval, hpage, by simpa using hc.2⟩
  · rintro h ⟨v, hv, ⟨va', hlt, t', hw, ha⟩ | ⟨c, hm, ha⟩⟩
    · obtain ⟨h1, h2, h3, h4⟩ := aliases_iff.1 ha
      rcases h v hv va' t' (.inl ⟨hlt, hw⟩) h2 h3 with h5 | h5
      · exact h1 h5
      · exact h4 (by simpa [shift] using h5)
    · unfold cachedAliases at ha
      cases hx : c.answer with
      | hit t' =>
        rw [hx] at ha
        obtain ⟨h1, h2, h3, h4⟩ := aliases_iff.1 ha
        rcases h v hv c.vpage t' (.inr ⟨c, hm, rfl, hx⟩) h2 h3 with h5 | h5
        · exact h1 h5
        · exact h4 (by simpa using h5)
      | noTranslation => rw [hx] at ha; cases ha
      | invalid => rw [hx] at ha; cases ha

/-- A usable translation is refused by neither check. -/
theorem xlatRefusal_usable {s : State} {va : Word} {x : Xlat} (h : Usable s va x) : xlatRefusal va x s = none := by
  obtain ⟨-, -, -, hc, ha⟩ := h
  have hr : reservedC x.c = false := by
    revert hc
    generalize x.c = c
    revert c
    decide
  simp [xlatRefusal, hr, aliasConflict_eq_false.2 ha]

/-- Keeping the translation itself in `TC` makes no alias of it. -/
theorem NoAlias.keep {s : State} {va : Word} {x : Xlat} (h : NoAlias s va x) :
    NoAlias { s with self := keepCached (cachedOf va (.hit x)) s.self } va x := by
  have hu : ∀ v ∈ live { s with self := keepCached (cachedOf va (.hit x)) s.self },
      v ∈ live s ∨ (v = keepCached (cachedOf va (.hit x)) s.self ∧ s.self ∈ live s) := by
    intro v hv
    unfold live at hv ⊢
    change v ∈ if s.self.run = .stopped then s.others else _ at hv
    split_ifs at hv ⊢ with hr
    · exact .inl hv
    · rcases List.mem_cons.1 hv with rfl | hv
      · exact .inr ⟨rfl, List.mem_cons_self ..⟩
      · exact .inl (List.mem_cons_of_mem _ hv)
  intro v hv va' t' hi hval hp
  rcases hu v hv with hv | ⟨rfl, hs⟩
  · exact h v hv va' t' hi hval hp
  · rcases hi with hi | ⟨c, hc, rfl, ha⟩
    · exact h s.self hs va' t' (.inl hi) hval hp
    · unfold keepCached at hc
      dsimp only at hc
      split_ifs at hc
      · exact h s.self hs _ t' (.inr ⟨c, hc, rfl, ha⟩) hval hp
      · rcases List.mem_cons.1 hc with rfl | hc
        · cases ha
          exact .inl rfl
        · exact h s.self hs _ t' (.inr ⟨c, hc, rfl, ha⟩) hval hp

/-- A granted access is translated (20_memory.md R69): everything Translate does then. -/
theorem translate_granted {s : State} {acc : AccessKind} {va : Word} {n : Nat} {x : Xlat}
    (h : Granted s acc va n x) :
    translate acc va n s = .ok { la := xlatAddr x va, c := x.c }
      { s with self := keepCached (cachedOf va (.hit x)) s.self } := by
  obtain ⟨ha, hu, hp, hU, hl⟩ := h
  have hu' := hu
  obtain ⟨hlt, hw, ht, hc, hn⟩ := hu
  have hv : xlatValid x = true := by
    rw [xlatValid_iff]
    cases acc
    · exact .inl (hp.1 rfl)
    · exact .inr (.inl (hp.2.1 rfl))
    · exact .inr (.inr (hp.2.2 rfl))
  have hq : permitted acc x = true := by
    cases acc
    · exact hp.1 rfl
    · exact hp.2.1 rfl
    · exact hp.2.2 rfl
  have hx := xlatRefusal_usable (s := { s with self := keepCached (cachedOf va (.hit x)) s.self })
    ⟨hlt, hw, ht, hc, hn.keep⟩
  unfold translate
  rw [lookup_agrees ha, hw, reservedVa_eq_false.2 hlt]
  simp only [Bool.false_eq_true, if_false, checkAccess, hv, ht, hq, hx]
  cases hum : s.self.um with
  | true => simp [keepCached, hum, hU hum, hl]
  | false => simp [keepCached, hum, hl]

end Sys2Proof.Machine
end

