-- ==== Sys2Proof/Laws/Packets.lean ====
section
/-! SUPPORT. Laws/Packets.lean: what the range check of vmcache and the base packets can do. -/

namespace Sys2Proof.Machine

/-! ### The range check (43_cache_control.md R228) -/

theorem checkChunk_state (ok : Xlat → Bool) (c : Chunk) (s : State) :
    ∃ n, (checkChunk ok c s).2 = { s with free := n } := by
  unfold checkChunk
  split_ifs
  · exact ⟨s.free, rfl⟩
  · obtain ⟨-, n, hn⟩ := lookup_spec c.va s
    refine ⟨n, ?_⟩
    rcases hl : lookup c.va s with ⟨w, s1⟩
    rw [hl] at hn
    obtain rfl : s1 = { s with free := n } := hn
    rcases w with l | _ | _
    · rcases l with x | _ | _
      · dsimp only
        split_ifs
        · rfl
        · rfl
        · split <;> rfl
      · rfl
      · rfl
    · rfl
    · rfl

theorem scanRange_state (ok : Xlat → Bool) (l : List Chunk) (s : State) :
    match scanRange ok l s with
    | .scanned _ _ t => ∃ n, t = { s with free := n }
    | .stop _ => True := by
  induction l generalizing s with
  | nil => exact ⟨s.free, rfl⟩
  | cons c rest ih =>
    obtain ⟨n, hn⟩ := checkChunk_state ok c s
    unfold scanRange
    rcases hc : checkChunk ok c s with ⟨v, s1⟩
    rw [hc] at hn
    obtain rfl : s1 = { s with free := n } := hn
    have h := ih { s with free := n }
    cases v <;> dsimp only <;> try trivial
    all_goals
      cases hs : scanRange ok rest { s with free := n } with
      | stop st => trivial
      | scanned sp bd t =>
        rw [hs] at h
        obtain ⟨k, rfl⟩ := h
        exact ⟨k, rfl⟩

/-- Everything the range check can do: it changes the counter of free values only, and raises the store
protection violation or, for an inaccessible table entry, machine check 0x03. -/
theorem rangeCheck_cases (a : Word) (n : Nat) (s : State) :
    (∃ spans k, rangeCheck a n s = .ok spans { s with free := k }) ∨
    (∃ va k, rangeCheck a n s = .raise (.general (.storeProtection va)) { s with free := k }) ∨
    (∃ k, rangeCheck a n s = .raise (.machineCheck .badMapping) { s with free := k }) ∨
    ∃ st, rangeCheck a n s = .stop st := by
  have h := scanRange_state Xlat.w (rangeChunks a n) s
  unfold rangeCheck
  cases hs : scanRange Xlat.w (rangeChunks a n) s with
  | stop st => exact .inr (.inr (.inr ⟨st, rfl⟩))
  | scanned spans bad s1 =>
    rw [hs] at h
    obtain ⟨k, rfl⟩ := h
    have hd : ∀ m, ∃ j, (drawBelow m { s with free := k }).2 = { s with free := j } := by
      intro m
      unfold drawBelow
      split_ifs
      · exact ⟨k, rfl⟩
      · exact ⟨k + 1, rfl⟩
    obtain ⟨j, hj⟩ := hd (offenders bad)
    dsimp only
    rw [hj]
    split
    · exact .inl ⟨spans, k, rfl⟩
    · exact .inr (.inl ⟨_, j, rfl⟩)
    · rename_i va _
      obtain ⟨h1, i, hi⟩ := drawFrom_spec (Event.machineCheck .badMapping)
        [.machineCheck .badMapping, .general (protCause .store va)] { s with free := j } (by simp)
      rcases hb : badLogical .store va { s with free := j } with ⟨e, s3⟩
      unfold badLogical at hb
      rw [hb] at h1 hi
      obtain rfl : s3 = { s with free := i } := hi
      rcases List.mem_cons.1 h1 with h2 | h2
      · obtain rfl : e = .machineCheck .badMapping := h2
        exact .inr (.inr (.inl ⟨i, rfl⟩))
      · obtain rfl : e = .general (.storeProtection va) := by simpa [protCause] using h2
        exact .inr (.inl ⟨va, i, rfl⟩)

/-! ### Base packets (42_trap0_and_base_isa.md R201) -/

/-- What the requests of a base packet may change: general registers, the other base-architecture state,
cached translations (well-formed ones), memory with what fetches may still see of it, and the counter of free
values. -/
def Worked (s t : State) : Prop :=
  ∃ regs oth tc m st n,
    t = { s with
      self := { s.self with regs := regs, other := oth, tc := tc }, lm := m, stale := st, free := n } ∧
    (paramsOk s.params = true → Memory.wf s.lm → Memory.wf m) ∧
    ((∀ c ∈ s.lm, lmOk s.params c.1 = true) → ∀ c ∈ m, lmOk s.params c.1 = true) ∧
    ((∀ c ∈ s.self.tc, CachedOk c) → ∀ c ∈ tc, CachedOk c)

theorem Worked.refl (s : State) : Worked s s :=
  ⟨s.self.regs, s.self.other, s.self.tc, s.lm, s.stale, s.free, rfl, fun _ => id, id, id⟩

theorem Worked.trans {s t u : State} (h1 : Worked s t) (h2 : Worked t u) : Worked s u := by
  obtain ⟨r1, o1, tc1, m1, st1, n1, rfl, w1, k1, a1⟩ := h1
  obtain ⟨r2, o2, tc2, m2, st2, n2, rfl, w2, k2, a2⟩ := h2
  exact ⟨r2, o2, tc2, m2, st2, n2, rfl, fun h => w2 h ∘ w1 h, k2 ∘ k1, a2 ∘ a1⟩

theorem Worked.touched {s t : State} (h : Touched s t) : Worked s t := by
  obtain ⟨tc, n, rfl, h⟩ := h
  exact ⟨s.self.regs, s.self.other, tc, s.lm, s.stale, n, rfl, fun _ => id, id, h⟩

theorem Worked.setReg (i : Fin 32) (v : Word) (s : State) : Worked s (setReg i v s) :=
  ⟨s.self.regs.set i v, s.self.other, s.self.tc, s.lm, s.stale, s.free, rfl, fun _ => id, id, id⟩

theorem Worked.setOther (v : List Word) (s : State) : Worked s (setOther v s) :=
  ⟨s.self.regs, v, s.self.tc, s.lm, s.stale, s.free, rfl, fun _ => id, id, id⟩

theorem Worked.of_free (s : State) (n : Nat) : Worked s { s with free := n } :=
  Worked.touched (Touched.of_free s n)

/-- Only what fetches may still see of overwritten bytes changes. -/
theorem Worked.of_stale (s : State) (st : List StaleByte) : Worked s { s with stale := st } :=
  ⟨s.self.regs, s.self.other, s.self.tc, s.lm, st, s.free, rfl, fun _ => id, id, id⟩

/-- A logical store to accessible addresses. -/
theorem Worked.lmWrite {la : Word} {n v : Nat} {s : State} (h : lmOkRange s.params la n = true) :
    Worked s (lmWrite la n v s) := by
  have key : ∀ (l : List (Nat × Byte)) (s : State),
      (∀ c ∈ l, c.1 < 2 ^ 32 ∧ lmOk s.params c.1 = true) → Worked s (writeBytes l s) := by
    intro l
    induction l with
    | nil => exact fun s _ => Worked.refl s
    | cons c rest ih =>
      intro s hl
      obtain ⟨m, st, he, hm⟩ := writeByte_eq c.1 c.2 s
      have h1 : Worked s (writeByte c.1 c.2 s) := by
        rw [he]
        refine ⟨s.self.regs, s.self.other, s.self.tc, m, st, s.free, rfl, fun _ hw => ?_,
          fun hk d hd => ?_, id⟩
        · rcases hm with rfl | rfl
          · exact hw
          · exact memSet_wf _ hw (hl c (by simp)).1
        · rcases hm with rfl | rfl
          · exact hk d hd
          · rcases fst_mem_memSet hd with h2 | ⟨e, h2, h3⟩
            · rw [h2]
              exact (hl c (by simp)).2
            · rw [← h3]
              exact hk e h2
      refine h1.trans (ih _ fun d hd => ?_)
      rw [he]
      exact hl d (by simp [hd])
  refine key _ s fun c hc => ?_
  have ha := (List.of_mem_zip hc).1
  exact ⟨lmAddrs_lt ha, lmOk_of_mem_lmAddrs h ha⟩

/-- The state an access carries is `Worked` from the one before it. -/
def AccessWorked {α : Type} (s : State) (a : Access α) : Prop :=
  match a with
  | .ok _ t => Worked s t
  | .raise _ t => Worked s t
  | .stop _ => True

theorem AccessTouched.worked {α : Type} {s : State} {a : Access α} (h : AccessTouched s a) :
    AccessWorked s a := by
  cases a with
  | ok x t => exact Worked.touched h
  | raise e t => exact Worked.touched h
  | stop st => trivial

theorem memWrite_worked (va : Word) (size : AccessSize) (v : DWord) (s : State) :
    AccessWorked s (memWrite va size v s) := by
  rcases memWrite_cases va size v s with ⟨a, t, h1, h2, h3⟩ | ⟨e, t, h1, h3⟩ | ⟨st, h3⟩ <;> rw [h3]
  · exact (Worked.touched h1).trans (Worked.lmWrite h2)
  · exact Worked.touched h1
  · trivial

/-! ### Later words -/

theorem fetchWord_touched (va : Word) (s : State) : AccessTouched s (fetchWord va s) := by
  have h := fetch_touched va s
  unfold fetchWord
  revert h
  cases fetch va s with
  | ok bs t =>
    intro h
    rcases bs with _ | ⟨b0, _ | ⟨b1, _ | ⟨b2, _ | ⟨b3, rest⟩⟩⟩⟩ <;> exact h
  | raise e t => exact id
  | stop st => exact id

theorem fetchLater_touched (va : Word) (s : State) : AccessTouched s (fetchLater va s) := by
  have h := fetchWord_touched va s
  unfold fetchLater
  revert h
  cases fetchWord va s with
  | ok w t =>
    intro h
    dsimp only [laterWord]
    split_ifs <;> exact h
  | raise e t => exact id
  | stop st => exact id

/-- Gathering the words of a packet only translates and fetches. -/
theorem laterWords_touched (fuel : Nat) (w va : Word) (s : State) :
    AccessTouched s (laterWords fuel w va s) := by
  induction fuel generalizing w va s with
  | zero => exact Touched.refl s
  | succ n ih =>
    unfold laterWords
    split_ifs
    · have h := fetchLater_touched va s
      cases hf : fetchLater va s with
      | ok x t =>
        rw [hf] at h
        have h2 := ih x (va + 4) t
        dsimp only
        cases hr : laterWords n x (va + 4) t with
        | ok xs u => rw [hr] at h2; exact Touched.trans h h2
        | raise e u => rw [hr] at h2; exact Touched.trans h h2
        | stop st => trivial
      | raise e t => rw [hf] at h; exact h
      | stop st => trivial
    · exact Touched.refl s

theorem packetWords_touched (w : Word) (s : State) : AccessTouched s (packetWords w s) := by
  have h := laterWords_touched 3 w (s.self.pc + 4) s
  unfold packetWords
  revert h
  cases laterWords 3 w (s.self.pc + 4) s with
  | ok ws t => exact id
  | raise e t => exact id
  | stop st => exact id

/-! ### The user-level cache instructions -/

theorem lmOk_lt {p : Params} {a : Nat} (h : paramsOk p = true) (ha : lmOk p a = true) : a < 2 ^ 32 := by
  simp only [paramsOk, Bool.and_eq_true, List.all_eq_true, decide_eq_true_eq] at h
  obtain ⟨r, hr, hb⟩ := List.any_eq_true.1 ha
  have := h.1.2 r hr
  simp only [Bool.and_eq_true, decide_eq_true_eq] at hb
  omega

theorem Worked.params {s t : State} (h : Worked s t) : t.params = s.params := by
  obtain ⟨_, _, _, _, _, _, rfl, -⟩ := h
  rfl

theorem invalidateByte_worked {a : Nat} {s : State} (h : lmOk s.params a = true) :
    Worked s (invalidateByte a s) := by
  obtain ⟨n, hn⟩ := drawFrom_state (memGet s.lm a) (invalidateOptions a s) s
  unfold invalidateByte
  rcases hd : drawFrom (memGet s.lm a) (invalidateOptions a s) s with ⟨o, s1⟩
  rw [hd] at hn
  obtain rfl : s1 = { s with free := n } := hn
  dsimp only
  split_ifs
  · exact Worked.of_free s n
  · refine ⟨s.self.regs, s.self.other, s.self.tc, _, _, n, rfl, fun hp hw => memPut_wf _ hw (lmOk_lt hp h),
      fun hk d hd => ?_, id⟩
    rcases fst_mem_memPut hd with h2 | ⟨e, h2, h3⟩
    · rw [h2]
      exact h
    · rw [← h3]
      exact hk e h2

theorem invalidateSpans_worked (spans : List (Nat × Nat)) (s : State) :
    Worked s (invalidateSpans spans s) := by
  have key : ∀ (l : List Nat) (s : State), (∀ a ∈ l, lmOk s.params a = true) →
      Worked s (l.foldl (fun s a => invalidateByte a s) s) := by
    intro l
    induction l with
    | nil => exact fun s _ => Worked.refl s
    | cons a rest ih =>
      intro s hl
      have h1 := invalidateByte_worked (hl a (List.mem_cons_self ..))
      refine h1.trans (ih _ fun b hb => ?_)
      rw [h1.params]
      exact hl b (List.mem_cons_of_mem _ hb)
  refine (key _ s fun a ha => ?_).trans (Worked.of_stale _ _)
  obtain ⟨e, he, rfl⟩ := List.mem_map.1 (List.mem_dedup.1 ha)
  have := (List.mem_filter.1 he).2
  simp only [Bool.and_eq_true] at this
  exact this.2

theorem cacheEffect_worked (op : BaseCacheOp) (spans : List (Nat × Nat)) (s : State) :
    Worked s (cacheEffect op spans s) := by
  cases op with
  | dcfetch => exact Worked.refl s
  | dccleana => exact Worked.of_stale _ _
  | dccleaninva => exact Worked.of_stale _ _
  | dcinva => exact invalidateSpans_worked spans s
  | icinva => exact Worked.of_stale _ _

theorem cachePages_worked (op : BaseCacheOp) (va : Word) (n : Nat) (s : State) :
    AccessWorked s (cachePages op va n s) := by
  have h := scanRange_state (cacheGrants op s.self.um) (rangeChunks va n) s
  unfold cachePages
  cases hs : scanRange (cacheGrants op s.self.um) (rangeChunks va n) s with
  | stop st => trivial
  | scanned spans bad t =>
    rw [hs] at h
    obtain ⟨k, rfl⟩ := h
    exact (Worked.of_free s k).trans (cacheEffect_worked op spans _)

theorem baseCache_worked (op : BaseCacheOp) (va : Word) (n : Nat) (s : State) :
    AccessWorked s (baseCache op va n s) := by
  cases op with
  | dcfetch => exact Worked.refl s
  | dccleana => exact cachePages_worked _ va n s
  | dccleaninva => exact cachePages_worked _ va n s
  | dcinva => exact cachePages_worked _ va n s
  | icinva => exact cachePages_worked _ va n s

/-! ### The requests -/

/-- What follows a request may change what the request and it may change. -/
theorem AccessWorked.trans {α : Type} {s t : State} {a : Access α} (h2 : AccessWorked t a) (h1 : Worked s t) :
    AccessWorked s a := by
  cases a with
  | ok x u => exact Worked.trans h1 h2
  | raise e u => exact Worked.trans h1 h2
  | stop st => trivial

/-- Everything that the requests of a base packet can change, whether it completes or raises. -/
theorem runProg_worked (prog : BaseProg) (s : State) : AccessWorked s (runProg prog s) := by
  induction prog generalizing s with
  | finish target => exact Worked.refl s
  | raises c => exact Worked.refl s
  | setReg rd v k ih => exact (ih _).trans (Worked.setReg rd v s)
  | setOther v k ih => exact (ih _).trans (Worked.setOther v s)
  | load va size k ih =>
    have h := (memRead_touched va size s).worked
    unfold runProg
    revert h
    cases memRead va size s with
    | ok v t => exact fun h => (ih _ _).trans h
    | raise e t => exact id
    | stop st => exact id
  | store va size v k ih =>
    have h := memWrite_worked va size v s
    unfold runProg
    revert h
    cases memWrite va size v s with
    | ok v t => exact fun h => (ih _).trans h
    | raise e t => exact id
    | stop st => exact id
  | cache op va n k ih =>
    have h := baseCache_worked op va n s
    unfold runProg
    revert h
    cases baseCache op va n s with
    | ok u t => exact fun h => (ih _).trans h
    | raise e t => exact id
    | stop st => exact id
  | draw k ih => exact (ih _ _).trans (Worked.of_free s _)

/-- Everything that a base packet can change, fetches and decode included, whether it completes or raises. -/
theorem runPacket_worked (b : BasePacket) (s : State) : AccessWorked s (runPacket b s) := by
  induction b generalizing s with
  | fetch va k ih =>
    have h := (fetchLater_touched va s).worked
    unfold runPacket
    revert h
    cases fetchLater va s with
    | ok w t => exact fun h => (ih _ _).trans h
    | raise e t => exact id
    | stop st => exact id
  | rejects c => exact Worked.refl s
  | runs prog => exact runProg_worked prog s

end Sys2Proof.Machine
end

