-- ==== Sys2Proof/Laws/PerInstr.lean ====
section
/-! SUPPORT. Laws/PerInstr.lean: families of statements about every instruction, one lemma each. -/

namespace Sys2Proof.Laws

/-- The word of a `trap1` number is a packet by itself. -/
theorem soloParse_trap1Word (imm : BitVec 8) : soloParse (trap1Word imm) = true := by
  revert imm
  decide

/-- The word of a `trap0` is a packet by itself. -/
theorem soloParse_trap0Word (imm : BitVec 8) : soloParse (trap0Word imm) = true := by
  revert imm
  decide

/-- The encoder writes one-word packets (30_encoding.md R125: Parse = `11`). -/
def EncodesSolo.Statement (i : Instr) : Prop := soloParse (encode i) = true

theorem EncodesSolo.vmversion : EncodesSolo.Statement .vmversion := soloParse_trap1Word 0
theorem EncodesSolo.vmrte : EncodesSolo.Statement .vmrte := soloParse_trap1Word 1
theorem EncodesSolo.vmsetvec : EncodesSolo.Statement .vmsetvec := soloParse_trap1Word 2
theorem EncodesSolo.vmsetie : EncodesSolo.Statement .vmsetie := soloParse_trap1Word 3
theorem EncodesSolo.vmgetie : EncodesSolo.Statement .vmgetie := soloParse_trap1Word 4
theorem EncodesSolo.vmintop : EncodesSolo.Statement .vmintop := soloParse_trap1Word 5
theorem EncodesSolo.vmclrmap : EncodesSolo.Statement .vmclrmap := soloParse_trap1Word 10
theorem EncodesSolo.vmnewmap : EncodesSolo.Statement .vmnewmap := soloParse_trap1Word 11
theorem EncodesSolo.vmcache : EncodesSolo.Statement .vmcache := soloParse_trap1Word 13
theorem EncodesSolo.vmgettime : EncodesSolo.Statement .vmgettime := soloParse_trap1Word 14
theorem EncodesSolo.vmsettime : EncodesSolo.Statement .vmsettime := soloParse_trap1Word 15
theorem EncodesSolo.vmwait : EncodesSolo.Statement .vmwait := soloParse_trap1Word 16
theorem EncodesSolo.vmyield : EncodesSolo.Statement .vmyield := soloParse_trap1Word 17
theorem EncodesSolo.vmstart : EncodesSolo.Statement .vmstart := soloParse_trap1Word 18
theorem EncodesSolo.vmstop : EncodesSolo.Statement .vmstop := soloParse_trap1Word 19
theorem EncodesSolo.vmvpid : EncodesSolo.Statement .vmvpid := soloParse_trap1Word 20
theorem EncodesSolo.vmsetregs : EncodesSolo.Statement .vmsetregs := soloParse_trap1Word 21
theorem EncodesSolo.vmgetregs : EncodesSolo.Statement .vmgetregs := soloParse_trap1Word 22

theorem EncodesSolo.trap1Reserved (imm : BitVec 8) : EncodesSolo.Statement (.trap1Reserved imm) :=
  soloParse_trap1Word imm

theorem EncodesSolo.trap0 (imm : BitVec 8) : EncodesSolo.Statement (.trap0 imm) :=
  soloParse_trap0Word imm

end Sys2Proof.Laws
end

