-- ==== Sys2Proof/Tests/Slice0.lean ====
section
/-! SUPPORT. Tests/Slice0.lean: smoke tests on fixed values, expected results taken from the tables and
vectors of the spec (95_test_vectors.md unless another file is named), and one witness for the hypotheses of
each statement. -/

namespace Sys2Proof.Machine.Test

set_option maxRecDepth 20000

/-! ### Helpers -/

/-- The first processor of a small machine at 0x1000 in Guest mode, with registers R0, R1, R2 given. -/
def guest (r0 r1 r2 : Word) : State :=
  setReg 2 r2 (setReg 1 r1 (setReg 0 r0 State.reset))

/-- The same with a vector table at 0x2000. -/
def guestV (r0 r1 r2 : Word) : State :=
  let s := guest r0 r1 r2
  { s with self := { s.self with gevb := some 0x2000 } }

/-- The processor of vector P1 and TR1: User mode, interrupts enabled, a vector table. -/
def user (pc r0 gevb : Word) : State :=
  let s := setReg 29 0x7FF0 (guest r0 0 0)
  { s with self := { s.self with um := true, ie := true, pc := pc, gosp := 0x9000, gevb := some gevb } }

/-- Event registers that an event or `vmsetregs` has written. -/
def withG (g0 g1 g2 g3 : Word) (s : State) : State :=
  { s with self := { s.self with gelr := g0, gsr := g1, gosp := g2, gbadva := g3, recorded := true } }

/-- Interrupt bits: pending, globally enabled, locally enabled for the executing processor. -/
def withInts (pending gen len : Nat) (s : State) : State :=
  { s with pending := pending, gen := gen, self := { s.self with len := len } }

/-- Another live processor with identifier 1. -/
def withSecond (s : State) : State := { s with others := [{ s.self with vpid := 1 }] }

/-- Store bytes from outside the machine. -/
def load (la : Word) (bytes : List Byte) (s : State) : State := { s with lm := placeBytes la bytes s.lm }

/-- The translation list of 95_test_vectors.md 2.7 at logical 0x3000. -/
def listMem (s : State) : State :=
  load 0x3000 [0x01, 0x00, 0x00, 0xA7, 0x01, 0x00, 0x00, 0x00, 0x05, 0x00, 0x00, 0xF7, 0x02, 0x00, 0x00, 0x00,
    0x00, 0x31, 0x00, 0x00, 0x00, 0x00, 0x00, 0x80]
    (load 0x3100 [0x23, 0x01, 0x00, 0x77, 0x05, 0x00, 0x24, 0x00, 0, 0, 0, 0, 0, 0, 0, 0] s)

/-- The page tables of 95_test_vectors.md 2.7 with the L1 table at logical 0x8000. -/
def tableMem (s : State) : State :=
  load 0x8004 [0x00, 0x90, 0x00, 0x00, 0xC5, 0x0B, 0x00, 0x01, 0x01, 0xA4, 0x00, 0x00, 0x07, 0x00, 0x00, 0x00]
    (load 0x9004 [0xE0, 0x57, 0x05, 0x00] (load 0xA40C [0xC0, 0x73, 0x20, 0x00] s))

/-- The executing processor under another map. -/
def withMap (map : MapSel) (s : State) : State := { s with self := { s.self with map := map } }

/-- The executing processor in User mode. -/
def inUser (s : State) : State := { s with self := { s.self with um := true } }

/-- The outcome is a next state that meets the test. -/
def nextIs (r : Result) (p : State → Bool) : Bool :=
  match r with
  | .next t => p t
  | .fault _ => false
  | .refused _ => false

/-- The access reaches this logical address. -/
def reaches (a : Access Located) (la : Word) : Bool :=
  match a with
  | .ok t _ => t.la == la
  | .raise _ _ => false
  | .stop _ => false

/-- The walk gives `va` a translation to this logical address. -/
def walksTo (w : Walk) (va la : Word) : Bool :=
  match w with
  | .answer (.hit t) => xlatAddr t va == la
  | .answer .noTranslation => false
  | .answer .invalid => false
  | .badLogical => false
  | .stop _ => false

/-- The access has no meaning, for this reason. -/
def refuses {α : Type} (a : Access α) (r : Refusal) : Bool :=
  match a with
  | .ok _ _ => false
  | .raise _ _ => false
  | .stop st => st == .refused r

/-- The access raises this event. -/
def raises {α : Type} (a : Access α) (e : Event) : Bool :=
  match a with
  | .ok _ _ => false
  | .raise d _ => d == e
  | .stop _ => false

/-- GELR, GSR, R29, GOSP, pc, and Guest mode with interrupts disabled. -/
def record (g0 g1 r29 g2 pc : Word) (t : State) : Bool :=
  t.self.gelr == g0 && t.self.gsr == g1 && getReg 29 t == r29 && t.self.gosp == g2 && t.self.pc == pc &&
    !t.self.um && !t.self.ie

/-- R0 and pc = 0x1004. -/
def result (r0 : Word) (t : State) : Bool := getReg 0 t == r0 && t.self.pc == 0x1004

/-! ### WellFormed: ill-formed terms are refused (30_encoding.md R127) -/

theorem test_wf_refuses_assigned_number : (Instr.trap1Reserved 22).wf = false := by decide
theorem test_wf_refuses_number_ten : (Instr.trap1Reserved 10).wf = false := by decide
theorem test_wf_accepts_reserved_number : (Instr.trap1Reserved 23).wf = true := by decide

/-! ### Decoding: every constructor's word, written out from the encoding figures (1.1, 1.2, 2.1) -/

theorem test_decode_vmversion : decodeWord 0x5480C000 = .ok .vmversion := by decide
theorem test_decode_vmrte : decodeWord 0x5480C004 = .ok .vmrte := by decide
theorem test_decode_vmsetvec : decodeWord 0x5480C008 = .ok .vmsetvec := by decide
theorem test_decode_vmsetie : decodeWord 0x5480C00C = .ok .vmsetie := by decide
theorem test_decode_vmgetie : decodeWord 0x5480C010 = .ok .vmgetie := by decide
theorem test_decode_vmintop : decodeWord 0x5480C014 = .ok .vmintop := by decide
theorem test_decode_vmclrmap : decodeWord 0x5480C108 = .ok .vmclrmap := by decide
theorem test_decode_vmnewmap : decodeWord 0x5480C10C = .ok .vmnewmap := by decide
theorem test_decode_vmcache : decodeWord 0x5480C114 = .ok .vmcache := by decide
theorem test_decode_vmgettime : decodeWord 0x5480C118 = .ok .vmgettime := by decide
theorem test_decode_vmsettime : decodeWord 0x5480C11C = .ok .vmsettime := by decide
theorem test_decode_vmwait : decodeWord 0x5480C200 = .ok .vmwait := by decide
theorem test_decode_vmyield : decodeWord 0x5480C204 = .ok .vmyield := by decide
theorem test_decode_vmstart : decodeWord 0x5480C208 = .ok .vmstart := by decide
theorem test_decode_vmstop : decodeWord 0x5480C20C = .ok .vmstop := by decide
theorem test_decode_vmvpid : decodeWord 0x5480C210 = .ok .vmvpid := by decide
theorem test_decode_vmsetregs : decodeWord 0x5480C214 = .ok .vmsetregs := by decide
theorem test_decode_vmgetregs : decodeWord 0x5480C218 = .ok .vmgetregs := by decide
/-- E3, E4, E5, E6. -/
theorem test_decode_reserved : decodeWord 0x54FFFFFF = .ok (.trap1Reserved 255) ∧
    decodeWord 0x5480C018 = .ok (.trap1Reserved 6) ∧ decodeWord 0x5480C110 = .ok (.trap1Reserved 12) ∧
    decodeWord 0x5480C21C = .ok (.trap1Reserved 23) := by decide
/-- E10, E11, and E12: bit 24 differs. -/
theorem test_decode_trap0 : decodeWord 0x5400C014 = .ok (.trap0 5) ∧
    decodeWord 0x5400DF1C = .ok (.trap0 255) ∧
    decodeWord 0x5500C014 = .error (.baseInstruction 0x5500C014) := by decide
/-- E7, E8: don't-care bits. -/
theorem test_decode_dont_care : decodeWord 0x54BFC014 = .ok .vmintop ∧
    decodeWord 0x5480C017 = .ok .vmintop := by decide
/-- The bytes of 1.1, lowest address first, with a byte after them. -/
theorem test_decode_bytes : decode [0x14, 0xC1, 0x80, 0x54, 0xAA] = .ok (.vmcache, [0xAA]) := by rfl
theorem test_decode_truncated : decode [0x14, 0xC1, 0x80] = .error .truncated := by rfl
/-- The table's `match` word of vmcache, Parse = 00 (30_encoding.md R122). -/
theorem test_decode_table_word : decodeTableWord 32 0x54800114 = some .vmcache := by rfl

/-! ### Privilege (P1) -/

theorem test_P1_vmstop : nextIs (exec .vmstop (user 0x4004 7 0x2000))
    (fun t => record 0x4004 0xC000001B 0x9000 0x7FF0 0x2008 t && getReg 0 t == 7) = true := by decide
theorem test_E3_reserved : nextIs (exec (.trap1Reserved 255) (user 0x4004 7 0x2000))
    (record 0x4004 0xC000001B 0x9000 0x7FF0 0x2008) = true ∧
    exec (.trap1Reserved 255) (guest 0 0 0) = .refused (.reservedTrap1Number 255) := ⟨by decide, rfl⟩

/-! ### Event management (V1 to V5, G1, S1, T1 to T5) -/

theorem test_V3_vmsetvec : nextIs (exec .vmsetvec (guest 0xFEFFFFE0 0 0))
    (fun t => result 0 t && t.self.gevb == some 0xFEFFFFE0) = true := by decide
theorem test_V2_V4_vmsetvec : nextIs (exec .vmsetvec (guestV 0xFEFFFFE4 0 0))
    (fun t => result 0xFFFFFFFF t && t.self.gevb == some 0x2000) = true ∧
    nextIs (exec .vmsetvec (guest 0x10002 0 0)) (result 0xFFFFFFFF) = true := by decide
theorem test_G1_vmgetregs : nextIs (exec .vmgetregs (withG 0x4004 0xC0000003 0x7FF0 0x12345678 (guest 0 0 0)))
    (fun t => result 0x4004 t && getReg 1 t == 0xC0000003 && getReg 2 t == 0x7FF0 &&
      getReg 3 t == 0x12345678) = true := by decide
theorem test_S1_vmsetregs : nextIs (exec .vmsetregs (setReg 3 0xDEADBEEF (guest 0x4000 0xFFFFFFFF 0x7FF0)))
    (fun t => t.self.gelr == 0x4000 && t.self.gsr == 0xFFFFFFFF && t.self.gosp == 0x7FF0 &&
      t.self.gbadva == 0xDEADBEEF && !t.self.um && !t.self.ie) = true := by decide
theorem test_T1_vmrte : nextIs (exec .vmrte (withG 0x4000 0xC0000000 0x7FF0 0 (guest 0 0 0)))
    (fun t => t.self.pc == 0x4000 && t.self.um && t.self.ie && getReg 29 t == 0x7FF0 &&
      t.self.gosp == 0x9000) = true := by decide
theorem test_T3_vmrte : nextIs (exec .vmrte (withG 0x4000 0x3FFFFFFF 0x7FF0 0 (guest 0 0 0)))
    (fun t => t.self.pc == 0x4000 && !t.self.um && !t.self.ie && getReg 29 t == 0x9000 &&
      t.self.gosp == 0x7FF0) = true := by decide
/-- Event registers that nothing has written (40_event_management.md R153). -/
theorem test_vmrte_unwritten : exec .vmrte (guest 0 0 0) = .refused .unwrittenEventRegisters := rfl

/-! ### Interrupt management (I0 to I19, IE1 to IE5), NUM_INT = 32 -/

theorem test_I10_get : nextIs (exec .vmintop (withInts 0x28 0x28 0x28 (guest 6 5 0)))
    (fun t => (t.pending == 0x20 || t.pending == 0x08) && t.gen == t.pending && result 0 t) = true := by
  have h : ∀ b : Bool, nextIs
      (if b then doneWith 0 (takeInterrupt 5 (withInts 0x28 0x28 0x28 (guest 6 5 0)))
        else doneWith 0 (takeInterrupt 3 (withInts 0x28 0x28 0x28 (guest 6 5 0))))
      (fun t => (t.pending == 0x20 || t.pending == 0x08) && t.gen == t.pending && result 0 t) = true := by
    decide
  rcases Nat.mod_two_eq_zero_or_one (Config.draw 0) with h0 | h0
  · have e : exec .vmintop (withInts 0x28 0x28 0x28 (guest 6 5 0)) =
        (let p := ([true, false].getD (Config.draw 0 % 2) true,
            { withInts 0x28 0x28 0x28 (guest 6 5 0) with free := 1 })
          if p.1 then
            if eligible p.2 p.2.self.len 5 then doneWith 0 (takeInterrupt 5 p.2) else doneWith minusOne p.2
          else doneWith 0 (takeInterrupt 3 p.2)) := rfl
    rw [e, h0]
    decide
  · have e : exec .vmintop (withInts 0x28 0x28 0x28 (guest 6 5 0)) =
        (let p := ([true, false].getD (Config.draw 0 % 2) true,
            { withInts 0x28 0x28 0x28 (guest 6 5 0) with free := 1 })
          if p.1 then
            if eligible p.2 p.2.self.len 5 then doneWith 0 (takeInterrupt 5 p.2) else doneWith minusOne p.2
          else doneWith 0 (takeInterrupt 3 p.2)) := rfl
    rw [e, h0]
    decide
theorem test_I3_I6_I14_vmintop :
    nextIs (exec .vmintop (guest 3 31 0)) (fun t => result 0 t && t.self.len == 0x80000000) = true ∧
    nextIs (exec .vmintop (withSecond (withInts 0 0 8 (guest 5 3 1))))
      (fun t => result 0 t && t.self.len == 0 && t.others.all (fun v => v.len == 8)) = true ∧
    nextIs (exec .vmintop (withInts 8 8 0 (guest 8 3 0))) (result 5) = true ∧
    nextIs (exec .vmintop (withInts 0x28 0x28 0x28 (guest 7 0 0))) (result 3) = true ∧
    nextIs (exec .vmintop (withInts 8 8 0 (guest 10 3 0)))
      (fun t => result 0 t && t.pending == 0 && t.gen == 8) = true := by decide
theorem test_IE2_vmgetie : nextIs (exec .vmgetie (guest 5 0 0)) (result 0) = true := by decide
theorem test_IE4_vmsetie :
    nextIs (exec .vmsetie { guest 0xFFFFFFFE 0 0 with self := { (guest 0xFFFFFFFE 0 0).self with ie := true } })
      (fun t => result 1 t && !t.self.ie) = true ∧
    nextIs (exec .vmsetie (guest 1 0 0)) (fun t => result 0 t && t.self.ie) = true := by decide

/-! ### trap0 (TR1, TR2, TR3) -/

theorem test_TR1_trap0 : nextIs (exec (.trap0 3) (user 0x4000 0 0x10000))
    (record 0x4004 0xC0000003 0x9000 0x7FF0 0x10014) = true := by decide
theorem test_TR2_TR3_trap0 : nextIs (exec (.trap0 255) (withG 0 0 0x7FF0 0 (guestV 0 0 0)))
    (record 0x1004 0x000000FF 0x9000 0x7FF0 0x2014) = true ∧
    nextIs (exec (.trap0 0) (guest 0 0 0)) (fun t => (live t).isEmpty) = true := by decide

/-! ### vmcache: C4, C5 with the segment of the initial map for the writable pages (0x0000-0xFFFF) -/

theorem test_C4_vmcache : nextIs (exec .vmcache (guest 3 0xF000 0x1000)) (result 0) = true := by decide
theorem test_C5_vmcache : nextIs (exec .vmcache (guestV 3 0xF000 0x1001))
    (fun t => t.self.gbadva == 0x10000 && t.self.gelr == 0x1000 && t.self.gsr == 0x23 && getReg 0 t == 3 &&
      t.self.pc == 0x2008) = true := by decide

/-! ### Memory management (M1 to M17, N1 to N6) -/

theorem test_M1_M6_list :
    reaches (translate .fetch 0x1004 4 (withMap (.linear 0x3000) (listMem (guest 0 0 0)))) 0x1004 = true ∧
    reaches (translate .load 0x4000FFFF 1 (withMap (.linear 0x3000) (listMem (guest 0 0 0)))) 0x12FFFF
      = true := by decide
theorem test_M2_M4_M8_list :
    raises (translate .fetch 0x1004 4 (inUser (withMap (.linear 0x3000) (listMem (guest 0 0 0)))))
      (.general .userFetch) = true ∧
    raises (translate .store 0x1010 4 (inUser (withMap (.linear 0x3000) (listMem (guest 0 0 0)))))
      (.general (.storeProtection 0x1010)) = true ∧
    raises (translate .load 0x40010000 4 (withMap (.linear 0x3000) (listMem (guest 0 0 0))))
      (.general (.loadProtection 0x40010000)) = true := by decide
theorem test_M11_M15_tables :
    walksTo (walk resetParams (tableMem (guest 0 0 0)).lm (.tables 0x8000) 0x00401234) 0x00401234 0x55234
      = true ∧
    walksTo (walk resetParams (tableMem (guest 0 0 0)).lm (.tables 0x8000) 0x00C0C123) 0x00C0C123 0x204123
      = true := by decide
theorem test_M14_M16_tables :
    raises (translate .load 0x00800010 4 (inUser (withMap (.tables 0x8000) (tableMem (guest 0 0 0)))))
      (.general (.loadUser 0x00800010)) = true ∧
    raises (translate .load 0x01000000 4 (withMap (.tables 0x8000) (tableMem (guest 0 0 0))))
      (.general (.loadProtection 0x01000000)) = true := by decide
/-- Two virtual pages of one logical page with `C` 7 and 6, nothing cached (20_memory.md R87,
70_reset_and_hazards.md R344). -/
theorem test_aliases_in_the_map : refuses (translate .load 0x1000 4 (withMap (.linear 0x3000)
    (load 0x3000 [0x05, 0, 0, 0xF7, 0x01, 0, 0, 0, 0x05, 0, 0, 0xF6, 0x02, 0, 0, 0, 0, 0, 0, 0, 0, 0, 0, 0]
      (guest 0 0 0)))) .cacheAttributeAliases = true := by decide
theorem test_N1_vmnewmap : nextIs (exec .vmnewmap (guest 0x3000 0 0))
    (fun t => result 0 t && t.self.map == .linear 0x3000 && t.self.tc.isEmpty) = true := by decide
theorem test_N3_N4_vmnewmap : nextIs (exec .vmnewmap (guest 0x3004 0 0))
    (fun t => result 0xFFFFFFFF t && t.self.map == .initial) = true ∧
    nextIs (exec .vmnewmap (guest 0x3000 2 0)) (result 0xFFFFFFFF) = true := by decide

/-- The cached 64 KB translation of M6. -/
def cachedM6 : Cached :=
  { vpage := 0x40000000, size := 2,
    answer := .hit { size := 2, page := 0x120000, x := false, w := true, r := true, u := true, c := 7, t := false } }

/-- A state whose processors hold the translation of M6. -/
def withM6 (s : State) : State := withSecond { s with self := { s.self with tc := [cachedM6] } }

theorem test_N5_vmclrmap : nextIs (exec .vmclrmap (withM6 (guest 0x40000000 1 0)))
    (fun t => result 0 t && t.self.tc.isEmpty && t.others.all (fun v => v.tc.isEmpty)) = true := by decide
theorem test_N6_vmclrmap : nextIs (exec .vmclrmap (withM6 (guest 0x40000000 0 0)))
    (fun t => result 0 t && t.self.tc == [cachedM6]) = true := by decide

/-! ### Processor management and environment (TM1, TM2, W1, W2, Y1, ST1, ST2, SP1, ID1, VV1, VV3) -/

theorem test_TM1_vmsettime : nextIs (exec .vmsettime (guest 0xFFFFFFF0 0xFFFFFFFF 0))
    (fun t => t.timer == 0xFFFFFFFFFFFFFFF0 && result 0xFFFFFFF0 t) = true := by decide
theorem test_TM2_vmgettime : nextIs (exec .vmgettime { guest 0 9 0 with timer := 0x0000000180000002 })
    (fun t => result 0x80000002 t && getReg 1 t == 1) = true := by decide
theorem test_W1_vmwait : nextIs (exec .vmwait (guest 0 0 0))
    (fun t => t.self.run == .waiting && t.self.pc == 0x1000) = true := by decide

/-- A waiting processor with interrupt 3 eligible. -/
def waiter (ie : Bool) : State :=
  let s := withInts 8 8 8 (guestV 0 0 0)
  { s with self := { s.self with run := .waiting, ie := ie } }

theorem test_W1_W2_wake :
    nextIs (act (.wake 0) (waiter false)) (fun t => result 3 t && t.pending == 8 && t.gen == 8) = true ∧
    nextIs (act (.wake 0) (waiter true))
      (fun t => getReg 0 t == 3 && t.pending == 0 && t.gen == 0 &&
        record 0x1004 0x40000003 0x9000 0 0x201C t) = true := by decide
theorem test_Y1_vmyield : nextIs (exec .vmyield (guest 7 0 0)) (result 7) = true := by decide
theorem test_ST1_vmstart : nextIs
    (exec .vmstart { guest 0x3000 0x8000 0 with params := { resetParams with maxVp := 2 } })
    (fun t => result 1 t && t.others.all (fun v => v.vpid == 1 && v.pc == 0x3000 && v.regs[29] == 0x8000 &&
      !v.um && !v.ie && v.gevb == none && v.map == .initial)) = true := by decide
theorem test_ST2_vmstart : nextIs
    (exec .vmstart { guest 0x3000 0x8000 0 with params := { resetParams with maxVp := 1 } })
    (fun t => result 0xFFFFFFFF t && t.others.isEmpty) = true := by decide
theorem test_SP1_vmstop : nextIs (exec .vmstop (withSecond (guest 0 0 0)))
    (fun t => (live t).map VP.vpid == [1]) = true := by decide
theorem test_ID1_vmvpid : nextIs (exec .vmvpid (guest 9 0 0)) (result 0) = true := by decide
theorem test_VV2_vmversion : nextIs (exec .vmversion (guest 0x800 0 0))
    (fun t => result 0x700 t && t.ver == 0x700) = true := by decide
theorem test_VV3_vmversion : nextIs
    (exec .vmversion { guest 0x600 0 0 with params := { resetParams with otherVersions := [0x600] } })
    (fun t => result 0x600 t && t.ver == 0x600) = true := by decide

/-! ### Events (X1, X6, X7, X8) and base packets -/

theorem test_X6_X7_machine_check :
    nextIs (act (.machineCheck 0 .dataAbort) (waiter false))
      (fun t => record 0x1000 0x20 0x9000 0 0x2004 t && t.self.mch && t.self.run == .running) = true ∧
    nextIs (act (.machineCheck 0 .shutdown) (withSecond (guest 0 0 0))) (fun t => (live t).isEmpty)
      = true := by decide
/-- Interrupt 3 is delivered to a processor without a vector table. -/
theorem test_X8_deliver : nextIs
    (act (.deliver 0) { withInts 8 8 8 (guest 0 0 0) with
      self := { (withInts 8 8 8 (guest 0 0 0)).self with ie := true } })
    (fun t => t.pending == 0 && t.gen == 0 && (live t).isEmpty) = true := by decide
/-- X1: alignment before translation. -/
theorem test_X1_misaligned_pc : nextIs (packet (user 0x4002 0 0x2000))
    (record 0x4002 0xC000001C 0x9000 0x7FF0 0x2008) = true := by decide
/-- A base load of two little-endian bytes (20_memory.md R63). -/
theorem test_base_load : nextIs
    (baseProgram (.runs (.load 0x100 .b2 fun v => .setReg 5 (v.setWidth 32) (.finish 0x1004)))
      (load 0x100 [0x44, 0x83] (guest 0 0 0)))
    (fun t => getReg 5 t == 0x8344 && t.self.pc == 0x1004) = true := by decide
/-- A `trap1` word as the second word of a base packet (30_encoding.md U31). -/
theorem test_later_trap_word : nextIs
    (step (load 0x1004 [0x10, 0xC2, 0x80, 0x54] ((guestV 0 0 0).withFetchWord 32 0x7F004000)))
    (record 0x1000 0x15 0x9000 0 0x2008) = true := by decide
/-- A stored word is fetched once it is cleaned and the instruction copy dropped (20_memory.md R94). -/
theorem test_base_cache :
    (match runProg (.store 0x100 .b1 7 (.cache .dccleana 0x100 1 (.cache .icinva 0x100 1 (.finish 0x1004))))
        (load 0x100 [6] (inUser (guest 0 0 0))) with
      | .ok _ t => fetchOptions 0x100 t == [some 7]
      | .raise _ _ => false
      | .stop _ => false) = true := by decide

/-! ### A step fetches, decodes and runs the placed word -/

theorem test_step_runs_placed_word : nextIs (step (State.reset.withFetchWord 32 0x54800210))
    (fun t => result 0 t) = true := by decide
/-- E9: Parse = 10 raises 0x15. -/
theorem test_step_other_parse : nextIs (step ((guestV 0 0 0).withFetchWord 32 0x54808014))
    (record 0x1000 0x15 0x9000 0 0x2008) = true := by decide
/-- Program 5: the timer set in one step. -/
theorem test_step_vmsettime : nextIs (step ((guest 0x10 0 0).withFetchWord 32 0x5480011C))
    (fun t => t.timer == 0x10) = true := by decide

/-! ### Witnesses: for each statement, concrete states and operands that meet its hypotheses together, at the
boundaries of each clause. -/

theorem witness_DecodeOfEncodeIsTheInstruction :
    (Instr.trap1Reserved 255).wf = true ∧ (Instr.trap0 255).wf = true := by decide
theorem witness_EncodeOfDecodeIsTheCanonicalWord :
    (decodeWord 0x54FFFFFF = .ok (.trap1Reserved 255) ∧ isTrap1 0x54FFFFFF = true) ∧
    (decodeWord 0x543FFFFF = .ok (.trap0 255) ∧ isTrap1 0x543FFFFF = false) := by decide
theorem witness_Trap1TableRowsMatchUnderTheMask :
    (Instr.vmversion, 0x54800000) ∈ trap1Rows ∧ (Instr.vmgetregs, 0x54800218) ∈ trap1Rows := by decide
theorem witness_WordsWithAnotherParseFieldRaiseInvalidPacket :
    (decodeWord 0x54800014 = .ok .vmintop ∧ parseOf 0x54800014 ≠ 3) ∧
    (decodeWord 0x54808014 = .ok .vmintop ∧ parseOf 0x54808014 ≠ 3) ∧
    (decodeWord 0x7F004000 = .error (.baseInstruction 0x7F004000) ∧ parseOf 0x7F004000 = 1 ∧
      parseOf 0x7F008000 = 2 ∧ decodeWord 0x5480C210 = .ok .vmvpid ∧
      (let s := load 0x1004 (bytesOfWord 0x5480C210) (guestV 0 0 0);
        s.params.baseJudges = false ∧ s.self.gevb = some 0x2000 ∧
        ∃ s1, fetch (s.self.pc + 4) s = .ok (bytesOfWord 0x5480C210) s1)) :=
  ⟨by decide, by decide, by decide, by decide, by decide, by decide, rfl, rfl, _, by exact rfl⟩
theorem witness_UserModeVirtualInstructionsRaisePrivilege :
    (∀ imm, Instr.vmstop ≠ .trap0 imm) ∧ (user 0x4004 7 0x2000).self.um = true ∧
      (user 0x4004 7 0x2000).self.gevb = some 0x2000 := ⟨nofun, rfl, rfl⟩
theorem witness_ReservedTrap1NumbersTrapOrHaveNoMeaning :
    (guest 0 0 0).self.um = false ∧
    ((user 0x4004 7 0x2000).self.um = true ∧ (user 0x4004 7 0x2000).self.gevb = some 0x2000) := by decide
theorem witness_EventEntryWritesTheRecordAndVectors :
    (user 0x4004 7 0x2000).self.gevb = some 0x2000 ∧
    eventBadva (.general (.loadProtection 0xFFFFFFFF)) = some 0xFFFFFFFF := by decide
theorem witness_EventsWithoutAVectorTableStop :
    (guest 0 0 0).self.gevb = none ∧ isMachineCheck (.trap0 0) = false ∧
      isMachineCheck (.machineCheck .nmi) = true := by decide
theorem witness_EntryThenVmrteRestoresTheProcessor :
    ((user 0x4004 7 0x2000).self.gevb = some 0x2000 ∧ (user 0x4004 7 0x2000).params.mcResume = true) ∧
    ((user 0x4004 7 0x2000).self.mch = false ∧ isMachineCheck (.interrupt 0) = false) := by decide
theorem witness_Trap0TakesEventFive :
    (guestV 0 0 0).self.gevb = some 0x2000 ∧ (guest 0 0 0).self.gevb = none := by decide
theorem witness_VmsetvecRegistersTheTableOrFails :
    ((guest 0xFEFFFFE0 0 0).self.um = false ∧ (getReg 0 (guest 0xFEFFFFE0 0 0)).toNat % 4 = 0 ∧
      (getReg 0 (guest 0xFEFFFFE0 0 0)).toNat ≤ 0xFEFFFFE0) ∧
    ¬((getReg 0 (guest 0xFEFFFFE4 0 0)).toNat % 4 = 0 ∧
      (getReg 0 (guest 0xFEFFFFE4 0 0)).toNat ≤ 0xFEFFFFE0) ∧
    ¬((getReg 0 (guest 0x10002 0 0)).toNat % 4 = 0 ∧
      (getReg 0 (guest 0x10002 0 0)).toNat ≤ 0xFEFFFFE0) := by decide
theorem witness_VmgetregsAndVmsetregsCopyTheEventRegisters : (guest 0 0 0).self.um = false := rfl

/-- A Guest-mode processor that has taken a machine check and may not resume. -/
def checked : State :=
  { guest 0 0 0 with
    params := { resetParams with mcResume := false }
    self := { (guest 0 0 0).self with mch := true } }

theorem witness_VmrteRestoresTheSavedState :
    ((withG 0 0x80000000 0 0 (guest 0 0 0)).self.um = false ∧
      (withG 0 0x80000000 0 0 (guest 0 0 0)).self.mch = false ∧
      (withG 0 0x80000000 0 0 (guest 0 0 0)).self.recorded = true ∧
      (withG 0 0x80000000 0 0 (guest 0 0 0)).self.gsr.getLsbD 31 = true) ∧
    ((guest 0 0 0).self.um = false ∧ (guest 0 0 0).self.mch = false ∧ (guest 0 0 0).self.recorded = false) ∧
    (withG 0 0x7FFFFFFF 0 0 (guest 0 0 0)).self.gsr.getLsbD 31 = false ∧
    (checked.self.um = false ∧ checked.self.mch = true ∧ checked.params.mcResume = false) := by decide
theorem witness_VmintopGloballyEnablesAndDisables :
    ((guest 1 31 0).self.um = false ∧ getReg 0 (guest 1 31 0) = 1 ∧
      (getReg 1 (guest 1 31 0)).toNat < (guest 1 31 0).params.numInt ∧
      hasBit (withInts 0x80000000 0 0 (guest 1 31 0)).pending 31 = true ∧ hasBit 0x80000000 31 = true) ∧
    (getReg 0 (guest 2 31 0) = 2 ∧
      (getReg 1 (guest 2 31 0)).toNat < (guest 2 31 0).params.numInt) ∧
    (getReg 0 (guest 2 32 0) = 2 ∧
      (guest 2 32 0).params.numInt ≤ (getReg 1 (guest 2 32 0)).toNat) := by decide
theorem witness_VmintopLocallyEnablesAndDisables :
    ((guest 3 31 0).self.um = false ∧ getReg 0 (guest 3 31 0) = 3 ∧
      (getReg 1 (guest 3 31 0)).toNat < (guest 3 31 0).params.numInt) ∧
    (getReg 0 (guest 4 31 0) = 4 ∧
      (getReg 1 (guest 4 31 0)).toNat < (guest 4 31 0).params.numInt) ∧
    (getReg 0 (guest 4 32 0) = 4 ∧
      (guest 4 32 0).params.numInt ≤ (getReg 1 (guest 4 32 0)).toNat) := by decide
theorem witness_VmintopAffinityEnablesExactlyOneProcessor :
    ((guest 5 31 1).self.um = false ∧ getReg 0 (withSecond (guest 5 31 1)) = 5 ∧
      (getReg 1 (guest 5 31 1)).toNat < (guest 5 31 1).params.numInt ∧
      ∃ v ∈ live (withSecond (guest 5 31 1)), v.vpid = getReg 2 (withSecond (guest 5 31 1))) ∧
    (guest 5 32 1).params.numInt ≤ (getReg 1 (guest 5 32 1)).toNat ∧
    (∀ v ∈ live (withSecond (guest 5 31 2)), v.vpid ≠ getReg 2 (withSecond (guest 5 31 2))) := by decide
theorem witness_VmintopGetTakesAnEligibleInterrupt :
    ((guest 6 3 0).self.um = false ∧ getReg 0 (guest 6 3 0) = 6 ∧
      nextInt (guest 6 3 0) (guest 6 3 0).self.len = none) ∧
    nextInt (withInts 0x28 0x28 0x28 (guest 6 5 0)) 0x28 = some 3 ∧
    nextInt (withInts 0x80000000 0x80000000 0x80000000 (guest 6 31 0)) 0x80000000 = some 31 := by decide
theorem witness_VmintopPeekAndStatusReport :
    ((guest 7 0 0).self.um = false ∧ getReg 0 (guest 7 0 0) = 7) ∧
    (getReg 0 (guest 8 31 0) = 8 ∧ (getReg 1 (guest 8 31 0)).toNat < (guest 8 31 0).params.numInt) ∧
    (guest 8 32 0).params.numInt ≤ (getReg 1 (guest 8 32 0)).toNat := by decide
theorem witness_VmintopPostsAndClears :
    ((guest 9 31 0).self.um = false ∧ getReg 0 (guest 9 31 0) = 9 ∧
      (getReg 1 (guest 9 31 0)).toNat < (guest 9 31 0).params.numInt ∧
      hasBit (withInts 0 0x80000000 0 (guest 9 31 0)).gen 31 = true ∧ hasBit 0x80000000 31 = true) ∧
    (getReg 0 (guest 10 31 0) = 10 ∧
      (getReg 1 (guest 10 31 0)).toNat < (guest 10 31 0).params.numInt) ∧
    (getReg 0 (guest 10 32 0) = 10 ∧
      (guest 10 32 0).params.numInt ≤ (getReg 1 (guest 10 32 0)).toNat) := by decide
theorem witness_VmintopNopAndUnlistedOperations :
    ((guest 0 0 0).self.um = false ∧ getReg 0 (guest 0 0 0) = 0) ∧
    10 < (getReg 0 (guest 11 0 0)).toNat ∧ 10 < (getReg 0 (guest 0xFFFFFFFF 0 0)).toNat := by decide
theorem witness_VmgetieReturnsTheInterruptEnable :
    (guest 0 0 0).self.um = false ∧ (user 0 0 0).self.um = true := by decide
theorem witness_VmsetieSetsAndReturnsTheInterruptEnable : (guest 1 0 0).self.um = false := rfl
theorem witness_VmcacheWholeCacheAndReservedOperations :
    ((guest 0 0 0).self.um = false ∧ (getReg 0 (guest 0 0 0)).toNat ≤ 2) ∧
    (getReg 0 (guest 1 0 0) = 1 ∧ getReg 0 (guest 0 0 0) = 0 ∧
      let s := { guest 0 0 0 with stale := [{ la := 0, old := some 1, cleaned := true, synced := [] }] };
      s.stale ≠ [] ∧ ∀ e ∈ s.stale, e.la = 0 → e.cleaned = true) ∧
    (getReg 0 (guest 2 0 0)).toNat ≤ 2 ∧ 5 < (getReg 0 (guest 6 0 0)).toNat := by decide
/-- A range that wraps, and an empty one. -/
theorem witness_RangePiecesCoverExactlyTheRange : 0x20 < 2 ^ 32 ∧ 0 < 2 ^ 32 := by decide

/-- The translation of the initial map for an address of its segment. -/
def segXlat (va : Word) : Xlat :=
  { size := 0, page := pageBase 0 va, x := true, w := true, r := true, u := true, c := 7, t := false }

theorem segment_walk {va : Word} (h : va.toNat < 0x10000) :
    initialWalk resetParams va = .answer (.hit (segXlat va)) := by
  refine if_pos ?_
  simp only [Bool.and_eq_true, decide_eq_true_eq]
  exact ⟨Nat.zero_le _, by show va.toNat / 4096 < 0 + 16; omega⟩

/-- A machine whose processors all run under the initial map, each having cached no translation but those of
it. -/
structure Plain (s : State) : Prop where
  params : s.params = resetParams
  map : s.self.map = .initial
  maps : ∀ v ∈ live s, v.map = .initial
  cached : ∀ v ∈ live s, ∀ c ∈ v.tc, ∃ va : Word, va.toNat < 0x10000 ∧ c = cachedOf va (.hit (segXlat va))
  own : ∀ c ∈ s.self.tc, ∃ va : Word, va.toNat < 0x10000 ∧ c = cachedOf va (.hit (segXlat va))

theorem Plain.noAlias {s : State} (h : Plain s) (va : Word) : NoAlias s va (segXlat va) := by
  rintro v hv va' t' (⟨-, hw⟩ | ⟨c, hc, -, hw⟩) - -
  · rw [h.params, h.maps v hv] at hw
    simp only [walk, initialWalk] at hw
    split_ifs at hw
    · cases hw
      exact .inl rfl
    · cases hw
  · obtain ⟨b, -, rfl⟩ := h.cached v hv c hc
    cases hw
    exact .inl rfl

theorem Plain.usable {s : State} (h : Plain s) {va : Word} (hv : va.toNat < 0x10000) :
    Usable s va (segXlat va) := by
  refine ⟨by omega, ?_, rfl, by simp [segXlat], h.noAlias va⟩
  rw [h.params, h.map]
  exact segment_walk hv

theorem Plain.agrees {s : State} (h : Plain s) (va : Word) : CacheAgrees s va := by
  intro c hc hv
  obtain ⟨b, hb, rfl⟩ := h.own c hc
  have h1 : pageBase 0 va = pageBase 0 b := by simpa [covers, cachedOf, segXlat] using hv
  have h2 : va.toNat < 0x10000 := by
    have h2 := congrArg BitVec.toNat h1
    have hb' : b.toNat / 4096 * 4096 < 0x10000 := by omega
    simp only [pageBase, BitVec.toNat_shiftLeft, BitVec.toNat_ushiftRight, Nat.shiftLeft_eq,
      Nat.shiftRight_eq_div_pow] at h2
    have := va.isLt
    have := b.isLt
    change va.toNat / 4096 * 4096 % 2 ^ 32 = b.toNat / 4096 * 4096 % 2 ^ 32 at h2
    omega
  rw [h.params, h.map]
  show initialWalk resetParams va = _
  rw [segment_walk h2, segXlat, segXlat, h1]
  rfl

theorem Plain.writeOK {s : State} (h : Plain s) {va : Word} (hv : va.toNat < 0x10000) : WriteOK s va :=
  ⟨_, h.usable hv, rfl⟩

theorem Plain.granted {s : State} (h : Plain s) (acc : AccessKind) {va : Word} {n : Nat}
    (hv : va.toNat < 0x10000) (hl : lmOkRange resetParams (xlatAddr (segXlat va) va) n = true) :
    Granted s acc va n (segXlat va) :=
  ⟨h.agrees va, h.usable hv, ⟨fun _ => rfl, fun _ => rfl, fun _ => rfl⟩, fun _ => rfl, h.params ▸ hl⟩

/-- A processor that has fetched its packet at 0x1000: the page's translation is in `TC`. -/
def fetched (s : State) : State :=
  { s with self := { s.self with tc := [cachedOf 0x1000 (.hit (segXlat 0x1000))] } }

theorem fetched_plain (s : State) (hp : s.params = resetParams) (hm : s.self.map = .initial)
    (ho : s.others = []) (hr : s.self.run = .running) : Plain (fetched s) := by
  have hc : ∀ c ∈ (fetched s).self.tc, ∃ va : Word, va.toNat < 0x10000 ∧
      c = cachedOf va (.hit (segXlat va)) := by
    intro c hc
    exact ⟨0x1000, by decide, List.mem_singleton.1 hc⟩
  have hl : live (fetched s) = [(fetched s).self] := by simp [live, fetched, ho, hr]
  refine ⟨hp, hm, fun v hv => ?_, fun v hv => ?_, hc⟩ <;> rw [hl] at hv <;>
    obtain rfl := List.mem_singleton.1 hv
  · exact hm
  · exact hc

theorem guest_plain (r0 r1 r2 : Word) : Plain (fetched (guest r0 r1 r2)) := fetched_plain _ rfl rfl rfl rfl
theorem guestV_plain (r0 r1 r2 : Word) : Plain (fetched (guestV r0 r1 r2)) :=
  fetched_plain _ rfl rfl rfl rfl
theorem user_plain (pc r0 gevb : Word) : Plain (fetched (user pc r0 gevb)) := fetched_plain _ rfl rfl rfl rfl

/-- Two bytes across a page, and an empty range. -/
theorem witness_VmcacheRangeOperationsComplete :
    (let s := fetched (guest 3 0xFFF 2);
      s.self.um = false ∧ s.self.tc ≠ [] ∧ 3 ≤ (getReg 0 s).toNat ∧ (getReg 0 s).toNat ≤ 5 ∧
      ∀ k, k < (getReg 2 s).toNat →
        CacheAgrees s (byteAt (getReg 1 s) k) ∧ WriteOK s (byteAt (getReg 1 s) k)) ∧
    ((getReg 0 (guest 5 0xFFFFFFFF 0)).toNat ≤ 5 ∧ (getReg 2 (guest 5 0xFFFFFFFF 0)).toNat = 0) := by
  refine ⟨⟨rfl, nofun, by decide, by decide, fun k hk =>
    ⟨(guest_plain 3 0xFFF 2).agrees _, (guest_plain 3 0xFFF 2).writeOK ?_⟩⟩, by decide⟩
  have hk : k < 2 := hk
  rcases k with _ | _ | k
  · decide
  · decide
  · omega
/-- Two bytes across the end of the segment. -/
theorem witness_VmcacheRangeOperationsFault :
    let s := fetched (guestV 4 0xFFFF 2);
    s.self.um = false ∧ s.self.tc ≠ [] ∧ s.self.gevb = some 0x2000 ∧
      3 ≤ (getReg 0 s).toNat ∧ (getReg 0 s).toNat ≤ 5 ∧
      (∀ k, k < (getReg 2 s).toNat → CacheAgrees s (byteAt (getReg 1 s) k) ∧
        (WriteOK s (byteAt (getReg 1 s) k) ∨ NotWritable s (byteAt (getReg 1 s) k))) ∧
      ∃ k, k < (getReg 2 s).toNat ∧ NotWritable s (byteAt (getReg 1 s) k) := by
  have h := guestV_plain 4 0xFFFF 2
  have h1 : NotWritable (fetched (guestV 4 0xFFFF 2)) (byteAt 0xFFFF 1) := .inr (.inl (by decide))
  refine ⟨rfl, nofun, rfl, by decide, by decide, fun k hk => ⟨h.agrees _, ?_⟩, 1, by decide, h1⟩
  have hk : k < 2 := hk
  rcases k with _ | _ | k
  · exact .inl (h.writeOK (by decide))
  · exact .inr h1
  · omega
/-- IDSYNC, and a clean before an invalidation, of the last byte of the segment; the user-level instructions in
User mode. -/
theorem witness_IdsyncMakesFetchesCurrent :
    (memGet (load 0 [1] (guest 0 0 0)).lm 0 = some 1 ∧ (1 : Byte) ≠ 2) ∧
    (∀ op : Word, op = 5 ∨ op = 3 →
      let s := fetched (guest op 0xFFFF 1);
      s.self.um = false ∧ s.self.tc ≠ [] ∧ getReg 0 s = op ∧
      (∀ k, k < (getReg 2 s).toNat →
        CacheAgrees s (byteAt (getReg 1 s) k) ∧ WriteOK s (byteAt (getReg 1 s) k)) ∧
      ∃ k x, k < (getReg 2 s).toNat ∧
        walk s.params s.lm s.self.map (byteAt (getReg 1 s) k) = .answer (.hit x)) ∧
    (let s := fetched (user 0x1000 0 0x2000);
      s.self.um = true ∧ 1 < 2 ^ 32 ∧ ∀ k, k < 1 → CacheAgrees s (byteAt 0xFFFF k) ∧
        ∃ x, Usable s (byteAt 0xFFFF k) x ∧ x.r = true ∧ x.u = true) := by
  have one : ∀ k, k < 1 → (byteAt 0xFFFF k).toNat < 0x10000 := by
    intro k hk
    obtain rfl : k = 0 := by omega
    decide
  refine ⟨by decide, ?_, rfl, by decide, fun k hk =>
    ⟨(user_plain _ _ _).agrees _, _, (user_plain _ _ _).usable (one k hk), rfl, rfl⟩⟩
  rintro op (rfl | rfl)
  · exact ⟨rfl, nofun, rfl, fun k hk => ⟨(guest_plain _ _ _).agrees _, (guest_plain _ _ _).writeOK (one k hk)⟩,
      0, _, by decide, by exact rfl⟩
  · exact ⟨rfl, nofun, rfl, fun k hk => ⟨(guest_plain _ _ _).agrees _, (guest_plain _ _ _).writeOK (one k hk)⟩,
      0, _, by decide, by exact rfl⟩

/-- A machine whose VMM validates maps, with an empty list at logical 0. -/
def validating (base ty : Word) : State :=
  load 0 [0, 0, 0, 0, 0, 0, 0, 0] { guest base ty 0 with params := { resetParams with validate := true } }

/-- Types 0 and 1 without validation; type 0 with a valid map; an unlisted type; a map at an inaccessible
address. -/
theorem witness_VmnewmapSwitchesTheMapOrFails :
    ((guest 0xFFFFFFF8 0 0).self.um = false ∧ NewmapSelects (guest 0xFFFFFFF8 0 0) (.linear 0xFFFFFFF8) ∧
      (guest 0xFFFFFFF8 0 0).params.validate = false) ∧
    NewmapSelects (guest 0xFFFFFFFC 1 0) (.tables 0xFFFFFFFC) ∧
    (NewmapSelects (validating 0 0) (.linear 0) ∧
      validMap (validating 0 0).params (validating 0 0).lm (.linear 0) = true) ∧
    (∀ map, ¬NewmapSelects (guest 0x3000 2 0) map) ∧
    ((validating 0xF0000000 0).params.validate = true ∧
      NewmapSelects (validating 0xF0000000 0) (.linear 0xF0000000) ∧
      validMap (validating 0xF0000000 0).params (validating 0xF0000000 0).lm (.linear 0xF0000000) =
        false) := by
  refine ⟨⟨rfl, .inl ⟨by decide, rfl, by decide, rfl⟩, rfl⟩, .inr ⟨by decide, rfl, by decide, rfl⟩,
    ⟨.inl ⟨by decide, rfl, by decide, rfl⟩, by decide⟩, ?_, rfl,
    .inl ⟨by decide, rfl, by decide, rfl⟩, ?_⟩
  · rintro map (⟨h, -⟩ | ⟨h, -⟩)
    · exact absurd h (by decide)
    · exact absurd h (by decide)
  · have h : chainReaches (.ends .badLogical) .badLogical = true :=
      List.any_eq_true.2 ⟨0, List.mem_range.2 (by decide), by decide⟩
    have hc : mapList (validating 0xF0000000 0).params (validating 0xF0000000 0).lm 0xF0000000 =
        .ends .badLogical := by decide
    simp only [validMap, hc, chainEnd, h, Bool.not_true, Bool.false_and]
/-- A list whose only entry has the reserved size code: R230's three conditions hold
(93_implementation_defined.md U4: undefined when a walk examines it). -/
theorem test_validMap_reserved_size : validMap resetParams
    (load 0 [0, 0, 0, 0, 0, 0, 0x70, 0] (guest 0 0 0)).lm (.linear 0) = true := by decide
/-- Two processors that hold the translation of M6, the other one with a walk for it begun. -/
def walking : State :=
  let s := withM6 (guest 0x40000000 1 0)
  { s with others := [{ s.self with vpid := 1, walks := [cachedM6] }] }

theorem witness_VmclrmapPurgesExactlyTheRange :
    (walking.self.um = false ∧
      (∀ v ∈ walking.self :: walking.others, ∀ c ∈ v.tc ++ v.walks, pageBase c.size c.vpage = c.vpage) ∧
      walking.self.tc = [cachedM6]) ∧
    (∃ v, walking.others = [v] ∧ walking.self.run = .running ∧ v.vpid ≠ walking.self.vpid ∧
      v.walks[0]? = some cachedM6) :=
  ⟨by decide, _, rfl, rfl, by decide, rfl⟩

/-- Logical memory that ends two bytes before the last page of the initial map does. -/
def shortMemory : State := { guest 0 0 0 with params := { resetParams with lmRanges := [(0, 0xFFFE)] } }

/-- The reserved range, an absent translation, an invalid L1 entry, an entry without permission, a page without U
in User mode, a walk that meets an inaccessible entry, and an access that reaches two inaccessible bytes. -/
theorem witness_TranslateRaisesTheCauseOfTheAccessKind :
    (CacheAgrees (fetched (guest 0 0 0)) 0xFEFFFFFF ∧ (fetched (guest 0 0 0)).self.tc ≠ [] ∧
      0xFF000000 ≤ (0xFF000000 : Word).toNat) ∧
    ((0xFEFFFFFF : Word).toNat < 0xFF000000 ∧
      walk (guest 0 0 0).params (guest 0 0 0).lm .initial 0xFEFFFFFF = .answer .noTranslation) ∧
    walk (tableMem (guest 0 0 0)).params (tableMem (guest 0 0 0)).lm (.tables 0x8000) 0x01000000 =
      .answer .invalid ∧
    (∃ x, walk (listMem (guest 0 0 0)).params (listMem (guest 0 0 0)).lm (.linear 0x3000) 0x1000 =
      .answer (.hit x) ∧ x.t = false ∧ ¬Permits .store x) ∧
    (CacheAgrees (withMap (.linear 0x3000) (inUser (listMem (guest 0 0 0)))) 0x1004 ∧
      (withMap (.linear 0x3000) (inUser (listMem (guest 0 0 0)))).self.um = true ∧
      ∃ x, walk (listMem (guest 0 0 0)).params (listMem (guest 0 0 0)).lm (.linear 0x3000) 0x1004 =
        .answer (.hit x) ∧ x.t = false ∧ Permits .fetch x ∧ x.u = false) ∧
    (CacheAgrees (withMap (.linear 0xF0000000) (guest 0 0 0)) 0xFEFFFFFC ∧
      walk (guest 0 0 0).params (guest 0 0 0).lm (.linear 0xF0000000) 0xFEFFFFFC = .badLogical) ∧
    (CacheAgrees shortMemory 0xFFFC ∧ shortMemory.self.um = false ∧
      ∃ x, walk shortMemory.params shortMemory.lm shortMemory.self.map 0xFFFC = .answer (.hit x) ∧
        x.t = false ∧ Permits .load x ∧ lmOkRange shortMemory.params (xlatAddr x 0xFFFC) 4 = false) :=
  ⟨⟨(guest_plain 0 0 0).agrees _, nofun, by decide⟩, by decide, by decide,
    ⟨_, by exact rfl, rfl, fun h => absurd (h.2.1 rfl) (by decide)⟩,
    ⟨nofun, rfl, _, by exact rfl, rfl, ⟨nofun, nofun, fun _ => rfl⟩, rfl⟩, ⟨nofun, by decide⟩,
    nofun, rfl, _, by exact rfl, rfl, ⟨fun _ => rfl, nofun, nofun⟩, by decide⟩
theorem witness_TranslateGrantsAPermittedAccess :
    (fetched (user 0x1000 0 0)).self.um = true ∧
      Granted (fetched (user 0x1000 0 0)) .store 0xFFFC 4 (segXlat 0xFFFC) :=
  ⟨rfl, (user_plain 0x1000 0 0).granted .store (by decide) (by decide)⟩
/-- The fetch of a packet itself, whose translation is already cached. -/
theorem witness_TranslateKeepsWithinTheCachedAnswers :
    reaches (translate .fetch 0x1000 4 (fetched (user 0x1000 0 0))) 0x1000 = true := by decide
/-- A directory entry (S = 0), a terminal entry (S = 5) and an invalid one (S = 7). -/
theorem witness_TableWalkReadsOneEntryPerLevel :
    (lmRead resetParams (tableMem (guest 0 0 0)).lm (0x8000 + BitVec.ofNat 32 (4 * (0x00401234 / 2 ^ 22))) 4 =
        .bytes (bytesOfWord 0x00009000) ∧ (0x00009000 : Word).toNat % 8 = 0 ∧
      (0x9000 : Word).toNat = (0x00009000 : Word).toNat / 2 ^ 12 * 2 ^ 12 ∧
      lmRead resetParams (tableMem (guest 0 0 0)).lm
        (0x9000 + BitVec.ofNat 32 (4 * (0x00401234 % 2 ^ 22 / 2 ^ 12))) 4 =
          .bytes (bytesOfWord 0x000557E0)) ∧
    (lmRead resetParams (tableMem (guest 0 0 0)).lm (0x8000 + BitVec.ofNat 32 (4 * (0x00800010 / 2 ^ 22))) 4 =
        .bytes (bytesOfWord 0x01000BC5) ∧ (0x01000BC5 : Word).toNat % 8 = 5) ∧
    (lmRead resetParams (tableMem (guest 0 0 0)).lm (0x8000 + BitVec.ofNat 32 (4 * (0x01000000 / 2 ^ 22))) 4 =
        .bytes (bytesOfWord 0x00000007) ∧ (0x00000007 : Word).toNat % 8 = 7) := by decide
/-- The terminator, a link, and an entry that matches 0x1FFF and does not match 0x2000. -/
theorem witness_ListWalkFollowsLinksAndFirstMatch :
    (∃ bs, lmRead resetParams (listMem (guest 0 0 0)).lm 0x3108 8 = .bytes bs ∧
      BitVec.ofNat 64 (leNat bs) = 0) ∧
    (∃ bs, lmRead resetParams (listMem (guest 0 0 0)).lm 0x3010 8 = .bytes bs ∧
      (BitVec.ofNat 64 (leNat bs)).getLsbD 63 = true) ∧
    ∃ bs, lmRead resetParams (listMem (guest 0 0 0)).lm 0x3000 8 = .bytes bs ∧
      BitVec.ofNat 64 (leNat bs) = 0x00000001A7000001 ∧
      (0x00000001A7000001 : DWord) ≠ 0 ∧ (0x00000001A7000001 : DWord).getLsbD 63 = false ∧
      ((0x00000001A7000001 : DWord).extractLsb' 52 3).toNat = 0 ∧
      0x1FFF / 2 ^ 12 = ((0x00000001A7000001 : DWord).extractLsb' 32 20).toNat ∧
      0x2000 / 2 ^ 12 ≠ ((0x00000001A7000001 : DWord).extractLsb' 32 20).toNat :=
  ⟨⟨_, by exact rfl, by decide⟩, ⟨_, by exact rfl, by decide⟩, _, by exact rfl, by decide⟩
/-- A link to itself. -/
theorem witness_EndlessListsAreReallyEndless :
    walk resetParams (load 0x3000 [0x00, 0x30, 0, 0, 0, 0, 0, 0x80] (guest 0 0 0)).lm (.linear 0x3000) 0 =
      .stop (.refused .endlessList) := by decide
theorem witness_LogicalStoreIsReadBackLittleEndian :
    8 ≤ 8 ∧ lmOkRange (guest 0 0 0).params 0xFFFFF8 8 = true := by decide
theorem witness_DataAccessesAlignAndMoveTheirBytes :
    ((0xFFFFFFFE : Word).toNat % accessBytes .b4 ≠ 0 ∧ (0x4002 : Word).toNat % 4 ≠ 0) ∧
    ((0xFFF8 : Word).toNat % accessBytes .b8 = 0 ∧
      Granted (fetched (user 0x1000 0 0)) .load 0xFFF8 (accessBytes .b8) (segXlat 0xFFF8) ∧
      Granted (fetched (user 0x1000 0 0)) .store 0xFFF8 (accessBytes .b8) (segXlat 0xFFF8)) :=
  ⟨by decide, by decide, (user_plain 0x1000 0 0).granted .load (by decide) (by decide),
    (user_plain 0x1000 0 0).granted .store (by decide) (by decide)⟩
theorem witness_VmgettimeAndVmsettimeMoveTheTimer :
    ((guest 0 0 0).self.um = false ∧ (guest 0 0 0).params.timerPerVp = false) ∧
    (let s := { guest 0 0 0 with params := { resetParams with timerPerVp := true } };
      s.self.um = false ∧ s.params.timerPerVp = true) := by decide
theorem witness_TimerReadsTheSetValuePlusTheAdvance :
    (guest 0xFFFFFFFF 0xFFFFFFFF 0).self.um = false ∧
      (guest 0xFFFFFFFF 0xFFFFFFFF 0).self.run = .running := by decide
theorem witness_VmwaitSuspendsTheProcessor : (guest 0 0 0).self.um = false := rfl
theorem witness_WakeResumesOrTakesTheInterrupt :
    ((waiter false).self.run = .waiting ∧ (waiter false).params.numInt ≤ 2 ^ 16 ∧
      nextInt (waiter false) (waiter false).self.len = some 3 ∧ (waiter false).self.ie = false) ∧
    ((waiter true).self.run = .waiting ∧ nextInt (waiter true) (waiter true).self.len = some 3 ∧
      (waiter true).self.ie = true ∧ (waiter true).self.um = false ∧
      (waiter true).self.gevb = some 0x2000) ∧
    (let s := { waiter true with self := { (waiter true).self with gevb := none } };
      s.self.run = .waiting ∧ nextInt s s.self.len = some 3 ∧ s.self.ie = true ∧ s.self.gevb = none) := by
  decide
theorem witness_InterruptsAndMachineChecksAreDelivered :
    ((waiter true).self.run = .waiting ∧ (guest 0 0 0).self.run = .running ∧ (guest 0 0 0).self.gevb = none ∧
      McCause.shutdown ≠ .badMapping) ∧
    (let s := withInts 9 9 9 { guest 0 0 0 with self := { (guest 0 0 0).self with ie := true } };
      s.self.run = .running ∧ s.self.ie = true ∧ s.self.gevb = none ∧ nextInt s s.self.len = some 0) ∧
    (withInts 9 9 9 (user 0x4000 0 0x2000)).self.run = .running ∧
      (withInts 9 9 9 (user 0x4000 0 0x2000)).self.ie = true ∧
      (withInts 9 9 9 (user 0x4000 0 0x2000)).self.gevb = some 0x2000 ∧
      nextInt (withInts 9 9 9 (user 0x4000 0 0x2000)) 9 = some 0 := by decide
theorem witness_VmyieldOnlyAdvances : (guest 0 0 0).self.um = false ∧ (user 0 0 0).self.um = true := by
  decide
theorem witness_VmstartCreatesAProcessorOrFails :
    ((guest 0x3000 0x8000 0).self.um = false ∧
      ∃ k, k < (guest 0x3000 0x8000 0).params.maxVp ∧
        ∀ v ∈ live (guest 0x3000 0x8000 0), v.vpid.toNat ≠ k) ∧
    (let s := { guest 0 0 0 with params := { resetParams with maxVp := 1 } };
      s.self.um = false ∧ ∀ k, k < s.params.maxVp → ∃ v ∈ live s, v.vpid.toNat = k) := by
  refine ⟨⟨rfl, 3, by decide⟩, rfl, fun k hk => ⟨_, List.mem_cons_self, ?_⟩⟩
  have hk : k < 1 := hk
  show 0 = k
  omega
theorem witness_VmstopEndsTheProcessor : (guest 0 0 0).self.um = false ∧ (guest 0 0 0).others = [] :=
  ⟨rfl, rfl⟩

/-- A Guest and a User mode processor, both with vector tables, with an interrupt pending and a byte of
memory. -/
def pair (um : Bool) : State :=
  let s := load 0x1000 [0x00] (withInts 0x80000000 1 2 (guestV 0 0 0))
  { s with self := { s.self with um := um, ie := um, gsr := 0xC0000000, recorded := true }
           others := [{ s.self with vpid := 3, um := true, run := .running }] }

/-- The pair with a word as its next packet. -/
def pairAt (um : Bool) (w : Nat) : State := (pair um).withFetchWord 32 w

/-- The invariant of a state of two processors with one vector table and nothing cached. -/
theorem inv_of_two (s : State) (a b : VP) (hs : s.self = a) (ho : s.others = [b])
    (h : paramsOk s.params = true ∧ Memory.wf s.lm ∧ (∀ c ∈ s.lm, lmOk s.params c.1 = true) ∧
      ((live s).map VP.vpid).Nodup ∧ s.pending < 2 ^ s.params.numInt ∧ s.gen < 2 ^ s.params.numInt ∧
      b.run ≠ .stopped)
    (ha : a.vpid.toNat < s.params.maxVp ∧ a.len < 2 ^ s.params.numInt ∧ a.gevb = some 0x2000 ∧ a.tc = [] ∧
      a.walks = [] ∧ a.run = .running)
    (hb : b.vpid.toNat < s.params.maxVp ∧ b.len < 2 ^ s.params.numInt ∧ b.gevb = some 0x2000 ∧ b.tc = [] ∧
      b.walks = [] ∧ b.run = .running) : MachineInv s := by
  obtain ⟨h1, h2, h3, h4, h5, h6, h7⟩ := h
  have ok : ∀ v : VP, v.vpid.toNat < s.params.maxVp ∧ v.len < 2 ^ s.params.numInt ∧ v.gevb = some 0x2000 ∧
      v.tc = [] ∧ v.walks = [] ∧ v.run = .running → VpOk s.params v := by
    rintro v ⟨k1, k2, k3, k4, k6, k5⟩
    refine ⟨k1, k2, fun g hg => ?_, by simp [k4], by simp [k6], by simp [k5]⟩
    obtain rfl : (0x2000 : Word) = g := by simpa [k3] using hg
    decide
  refine ⟨h1, h2, h3, h4, by simpa [ho] using h7, fun v hv => ?_, h5, h6⟩
  rw [hs, ho] at hv
  rcases List.mem_cons.mp hv with rfl | hv
  · exact ok _ ha
  · obtain rfl : v = b := by simpa using hv
    exact ok _ hb

theorem pair_inv_guest (w : Nat) (hw : w = 0x54800004 ∨ w = 0x54800208) : MachineInv (pairAt false w) := by
  rcases hw with rfl | rfl
  · exact inv_of_two _ _ _ rfl rfl (by decide) (by decide) (by decide)
  · exact inv_of_two _ _ _ rfl rfl (by decide) (by decide) (by decide)
theorem pair_inv_user : MachineInv (pairAt true 0x54800200) :=
  inv_of_two _ _ _ rfl rfl (by decide) (by decide) (by decide)

theorem witness_VmvpidReturnsTheIdentifier :
    (guest 0 0 0).self.um = false ∧ (user 0 0 0).self.um = true ∧ MachineInv (pairAt true 0x54800200) :=
  ⟨rfl, rfl, pair_inv_user⟩
/-- A version the VMM can conform to and one it cannot; a machine that conforms to another one. -/
theorem witness_VmversionConformsToTheRequest :
    ((guest 0x700 0 0).self.um = false ∧ getReg 0 (guest 0x700 0 0) ∈ versions (guest 0x700 0 0).params) ∧
    getReg 0 (guest 0x701 0 0) ∉ versions (guest 0x701 0 0).params ∧
    (live { guest 0 0 0 with ver := 0x600 } ≠ [] ∧ { guest 0 0 0 with ver := 0x600 }.ver ≠ 0x700) := by
  decide
/-- A word placed at pc, and a misaligned pc. -/
theorem witness_StepRunsTheDecodedInstruction :
    (∃ s1, fetch 0x1000 ((guest 0 0 0).withFetchWord 32 0x54800210) = .ok [0x10, 0xC2, 0x80, 0x54] s1 ∧
      decode [0x10, 0xC2, 0x80, 0x54] = .ok (.vmvpid, []) ∧
      soloParse (wordOfBytes 0x10 0xC2 0x80 0x54) = true ∧
      ((guest 0 0 0).withFetchWord 32 0x54800210).self.run = .running ∧
      ((guest 0 0 0).withFetchWord 32 0x54800210).ver = 0x700 ∧
      ((guest 0 0 0).withFetchWord 32 0x54800210).agenda = []) ∧
    (let s := (guest 0 0 0).withFetchWord 32 0x7F00C000;
      ∃ s1, fetch s.self.pc s = .ok [0x00, 0xC0, 0x00, 0x7F] s1 ∧
        decode [0x00, 0xC0, 0x00, 0x7F] = .error (.baseInstruction 0x7F00C000)) ∧
    (∃ e s1, fetch (user 0x4002 0 0x2000).self.pc (user 0x4002 0 0x2000) = .raise e s1) :=
  ⟨⟨_, by exact rfl, rfl, by decide, rfl, rfl, rfl⟩, ⟨_, by exact rfl, rfl⟩, _, _, by exact rfl⟩
theorem witness_FetchReturnsTheMappedBytes :
    let s := fetched (user 0xFFFC 0 0x2000);
    (0xFFFC : Word).toNat % 4 = 0 ∧ Granted s .fetch 0xFFFC 4 (segXlat 0xFFFC) ∧
      ∀ k, k < 4 → fetchOptions (byteAt (xlatAddr (segXlat 0xFFFC) 0xFFFC) k).toNat s =
        [memGet s.lm (byteAt (xlatAddr (segXlat 0xFFFC) 0xFFFC) k).toNat] :=
  ⟨by decide, (user_plain 0xFFFC 0 0x2000).granted .fetch (by decide) (by decide), fun _ _ => rfl⟩
theorem witness_ResetMeetsTheMachineInvariant :
    paramsOk resetParams = true ∧ Memory.wf [(0, 0x10), (0xFFFFFF, 0x54)] ∧
      ∀ c ∈ [((0, 0x10) : Host.Cell), (0xFFFFFF, 0x54)], lmOk resetParams c.1 = true := by decide
theorem witness_EveryStepKeepsTheMachineInvariant :
    MachineInv (pairAt false 0x54800208) ∧ ∃ t, step (pairAt false 0x54800208) = .next t :=
  ⟨pair_inv_guest _ (.inr rfl), _, by exact rfl⟩
/-- A vmrte to User mode, an event from User mode, and a new processor. -/
theorem witness_ModeChangesOnlyByEventsAndVmrte :
    (MachineInv (pairAt false 0x54800004) ∧
      ∃ t, step (pairAt false 0x54800004) = .next t ∧ ∃ w ∈ live t, w.vpid = 0 ∧ w.um = true) ∧
    (MachineInv (pairAt true 0x54800200) ∧
      ∃ t, step (pairAt true 0x54800200) = .next t ∧ ∃ w ∈ live t, w.vpid = 0 ∧ w.um = false) ∧
    (MachineInv (pairAt false 0x54800208) ∧ ∃ t, step (pairAt false 0x54800208) = .next t ∧
      (live t).length = 3) :=
  ⟨⟨pair_inv_guest _ (.inl rfl), _, by exact rfl, _, List.mem_cons_self, by decide⟩,
    ⟨pair_inv_user, _, by exact rfl, _, List.mem_cons_self, by decide⟩,
    pair_inv_guest _ (.inr rfl), _, by exact rfl, by exact rfl⟩
/-- The segment of the initial map is all that User mode may write, and a packet of the pair completes. -/
theorem witness_UserModePacketsCannotReachGuestState :
    MachineInv (pairAt true 0x54800200) ∧ (pairAt true 0x54800200).self.um = true ∧
      (pairAt true 0x54800200).self.gevb = some 0x2000 ∧
      HoldsUserPages (pairAt true 0x54800200) (fun a => a < 0x10000) ∧
      ∃ t, packet (pairAt true 0x54800200) = .next t := by
  refine ⟨pair_inv_user, rfl, rfl, ⟨fun m _ va x _ hw _ _ k hk => ?_, nofun⟩, _, by exact rfl⟩
  change initialWalk resetParams va = _ at hw
  simp only [initialWalk] at hw
  split_ifs at hw with h
  · simp only [Bool.and_eq_true, decide_eq_true_eq] at h
    have h1 : va.toNat / 4096 < 0 + 16 := h.2
    cases hw
    have hk : k < 4096 := hk
    show (pageBase 0 va).toNat + k < 0x10000
    simp only [pageBase, BitVec.toNat_shiftLeft, BitVec.toNat_ushiftRight, Nat.shiftLeft_eq,
      Nat.shiftRight_eq_div_pow]
    show va.toNat / 4096 * 4096 % 2 ^ 32 + k < 0x10000
    omega
  · cases hw
/-- A misaligned load after a store and a register write, a packet that decode rejects, and a jump to a
misaligned target. -/
theorem witness_FaultingBasePacketsHaveNoOtherEffect :
    (guestV 0 0 0).self.gevb = some 0x2000 ∧
      (∃ e s1, runPacket (.runs (.setReg 1 9 (.store 0x102 .b2 7 (.load 0x102 .b4 fun _ => .finish 0))))
        (guestV 0 0 0) = .raise e s1) ∧
      (∃ e s1, runPacket (.rejects .registerCollision) (guestV 0 0 0) = .raise e s1) ∧
      ∃ s1, runPacket (.runs (.finish 0x1002)) (guestV 0 0 0) = .ok 0x1002 s1 :=
  ⟨rfl, ⟨_, _, by exact rfl⟩, ⟨_, _, by exact rfl⟩, _, by exact rfl⟩
theorem witness_InstructionsWriteNoMemory : ∃ t, exec .vmstart (guest 0 0 0) = .next t ∧ t.others ≠ [] :=
  ⟨_, by exact rfl, by exact nofun⟩
theorem witness_OnlyGlobenReenablesAnInterrupt :
    ∃ t, exec .vmintop (guest 1 31 0) = .next t ∧ hasBit (guest 1 31 0).gen 31 = false ∧
      hasBit t.gen 31 = true := ⟨_, by exact rfl, by decide⟩

end Sys2Proof.Machine.Test
end

section
/-! PROOFS. The pieces of a byte range (00_scope.md R10, 43_cache_control.md R228). -/

namespace Sys2Proof.Machine

/-- `l` cuts the range of `n` bytes at `a` (modulo 2^32) into consecutive pieces, none of which crosses a 4 KB
page. -/
inductive CutsInto : Word → Nat → List Chunk → Prop
  | nil (a : Word) : CutsInto a 0 []
  | cons {a : Word} {k n : Nat} {l : List Chunk} (inPage : a.toNat % 4096 + k ≤ 4096)
      (rest : CutsInto (byteAt a k) n l) : CutsInto a (k + n) ({ va := a, len := k } :: l)

theorem byteAt_add (a : Word) (i j : Nat) : byteAt a (i + j) = byteAt (byteAt a i) j := by
  simp [byteAt, BitVec.ofNat_add, BitVec.add_assoc]

theorem toNat_byteAt_mod_page (a : Word) (k : Nat) :
    (byteAt a k).toNat % 4096 = (a.toNat + k) % 4096 := by
  simp only [byteAt, BitVec.toNat_add, BitVec.toNat_ofNat]
  omega

/-- Each unit of fuel is good for one page: the first piece ends at a page boundary, and so every later piece
but the last is a whole page. -/
theorem cutRange_cutsInto {fuel : Nat} {a : Word} {n : Nat}
    (hfuel : n ≤ 4096 * fuel - a.toNat % 4096) : CutsInto a n (cutRange fuel a n) := by
  induction fuel generalizing a n with
  | zero =>
    obtain rfl : n = 0 := by omega
    exact .nil a
  | succ fuel ih =>
    rw [cutRange]
    split_ifs with hn
    · exact hn ▸ .nil a
    · generalize hk : min n (4096 - a.toNat % 4096) = k
      have hrest : n - k ≤ 4096 * fuel - (byteAt a k).toNat % 4096 := by
        rw [toNat_byteAt_mod_page]
        omega
      have hcut := CutsInto.cons (a := a) (k := k) (by omega) (ih hrest)
      rwa [Nat.add_sub_cancel' (by omega)] at hcut

theorem rangeChunks_cutsInto (a : Word) (n : Nat) : CutsInto a n (rangeChunks a n) :=
  cutRange_cutsInto (by omega)

namespace CutsInto

variable {a : Word} {n : Nat} {l : List Chunk}

theorem len_sum (h : CutsInto a n l) : (l.map Chunk.len).sum = n := by
  induction h with
  | nil => rfl
  | cons _ _ ih => simp [ih]

theorem in_page (h : CutsInto a n l) : ∀ c ∈ l, c.va.toNat % 4096 + c.len ≤ 4096 := by
  induction h with
  | nil => simp
  | cons inPage _ ih => exact List.forall_mem_cons.2 ⟨inPage, ih⟩

/-- A byte of the range lies in the first piece, or its offset from the end of that piece is its offset in the
remaining range. -/
theorem mem_iff (h : CutsInto a n l) (x : Word) :
    (∃ c ∈ l, ∃ k, k < c.len ∧ x = byteAt c.va k) ↔ ∃ k, k < n ∧ x = byteAt a k := by
  induction h with
  | nil => simp
  | @cons a k n l _ _ ih =>
    rw [List.exists_mem_cons_iff, ih]
    constructor
    · rintro (⟨i, hi, rfl⟩ | ⟨i, hi, rfl⟩)
      · exact ⟨i, Nat.lt_add_right n hi, rfl⟩
      · exact ⟨k + i, Nat.add_lt_add_left hi k, (byteAt_add a k i).symm⟩
    · rintro ⟨i, hi, rfl⟩
      rcases Nat.lt_or_ge i k with hik | hik
      · exact .inl ⟨i, hik, rfl⟩
      · refine .inr ⟨i - k, by omega, ?_⟩
        rw [← byteAt_add, Nat.add_sub_cancel' hik]

end CutsInto

/-- Settles O27: the fuel of `rangeChunks` is enough to cut the whole range, and a range so cut has each of the
three properties by induction on its pieces. -/
theorem rangePiecesCoverExactlyTheRange : Obligations.RangePiecesCoverExactlyTheRange := by
  intro a n _
  have hcut := rangeChunks_cutsInto a n
  exact ⟨hcut.mem_iff, hcut.len_sum, hcut.in_page⟩

end Sys2Proof.Machine
end

section
/-! PROOFS. The machine invariant (Safety.lean, `MachineInv`) under the shared operations. -/

namespace Sys2Proof.Machine

/-! ### The parameters -/

theorem maxVp_of_paramsOk {p : Params} (h : paramsOk p = true) : 1 ≤ p.maxVp ∧ p.maxVp < 2 ^ 32 := by
  simp only [paramsOk, Bool.and_eq_true, decide_eq_true_eq] at h
  omega

/-! ### One processor -/

/-- Being well formed depends on the fields that `VpOk` names, and a processor that does not wait may be in
either mode. -/
theorem VpOk.congr {p : Params} {v w : VP} (h : VpOk p v) (hvpid : w.vpid = v.vpid) (hlen : w.len = v.len)
    (hgevb : w.gevb = v.gevb) (htc : w.tc = v.tc) (hwalks : w.walks = v.walks)
    (hwait : w.run = .waiting → w.um = false) : VpOk p w := by
  obtain ⟨hid, hbits, hvec, hcached, hbegun, -⟩ := h
  exact ⟨hvpid ▸ hid, hlen ▸ hbits, hgevb ▸ hvec, htc ▸ hcached, hwalks ▸ hbegun, hwait⟩

theorem VpOk.len_lt {p : Params} {v : VP} (h : VpOk p v) : v.len < 2 ^ p.numInt := by
  obtain ⟨-, hbits, -, -, -, -⟩ := h
  exact hbits

theorem VpOk.cached_ok {p : Params} {v : VP} (h : VpOk p v) : ∀ c ∈ v.tc, CachedOk c := by
  obtain ⟨-, -, -, hcached, -, -⟩ := h
  exact hcached

theorem VpOk.walks_ok {p : Params} {v : VP} (h : VpOk p v) : ∀ c ∈ v.walks, CachedOk c := by
  obtain ⟨-, -, -, -, hbegun, -⟩ := h
  exact hbegun

theorem VpOk.withTc {p : Params} {v : VP} (h : VpOk p v) {l : List Cached} (hl : ∀ c ∈ l, CachedOk c) :
    VpOk p { v with tc := l } := by
  obtain ⟨hid, hbits, hvec, -, hbegun, hwait⟩ := h
  exact ⟨hid, hbits, hvec, hl, hbegun, hwait⟩

theorem VpOk.withWalks {p : Params} {v : VP} (h : VpOk p v) {l : List Cached} (hl : ∀ c ∈ l, CachedOk c) :
    VpOk p { v with walks := l } := by
  obtain ⟨hid, hbits, hvec, hcached, -, hwait⟩ := h
  exact ⟨hid, hbits, hvec, hcached, hl, hwait⟩

theorem VpOk.withLen {p : Params} {v : VP} (h : VpOk p v) {m : Nat} (hm : m < 2 ^ p.numInt) :
    VpOk p { v with len := m } := by
  obtain ⟨hid, -, hvec, hcached, hbegun, hwait⟩ := h
  exact ⟨hid, hm, hvec, hcached, hbegun, hwait⟩

theorem VpOk.withGevb {p : Params} {v : VP} (h : VpOk p v) {a : Word} (ha : validVector a = true) :
    VpOk p { v with gevb := some a } := by
  obtain ⟨hid, hbits, -, hcached, hbegun, hwait⟩ := h
  exact ⟨hid, hbits, fun g hg => Option.some.inj hg ▸ ha, hcached, hbegun, hwait⟩

/-- A processor may be set waiting only in Guest mode. -/
theorem VpOk.withRun {p : Params} {v : VP} (h : VpOk p v) {r : RunState} (hr : r = .waiting → v.um = false) :
    VpOk p { v with run := r } :=
  h.congr rfl rfl rfl rfl rfl hr

/-- An event leaves the processor in Guest mode, where it may wait. -/
theorem VpOk.enterEvent {p : Params} {v : VP} (h : VpOk p v) (e : Event) (elr g bad : Word) :
    VpOk p (enterEvent e elr g bad v) :=
  h.congr (by simp) (by simp) (by simp) (by simp) (by simp) fun _ => rfl

/-- The return from an event may enter User mode, so the processor must not wait. -/
theorem VpOk.leaveEvent {p : Params} {v : VP} (h : VpOk p v) (hrun : v.run ≠ .waiting) :
    VpOk p (leaveEvent v) :=
  h.congr (by simp) (by simp) (by simp) (by simp) (by simp) fun hw => absurd (leaveEvent_run v ▸ hw) hrun

theorem VpOk.keepCached {p : Params} {v : VP} (h : VpOk p v) {c : Cached} (hc : CachedOk c) :
    VpOk p (keepCached c v) := by
  refine h.withTc ?_
  split_ifs
  · exact h.cached_ok
  · exact List.forall_mem_cons.2 ⟨hc, h.cached_ok⟩

/-- Members that stay after a purge were members before. -/
theorem cachedOk_of_mem_outsideRange {a : Word} {n : Nat} {l : List Cached} (hl : ∀ c ∈ l, CachedOk c) :
    ∀ c ∈ outsideRange a n l, CachedOk c := fun c hc => hl c (List.mem_of_mem_filter hc)

theorem VpOk.purge {p : Params} {v : VP} (h : VpOk p v) (a : Word) (n : Nat) : VpOk p (purge a n v) :=
  h.withTc (cachedOk_of_mem_outsideRange h.cached_ok)

theorem VpOk.purgeWalks {p : Params} {v : VP} (h : VpOk p v) (a : Word) (n : Nat) :
    VpOk p (purgeWalks a n v) :=
  h.withWalks (cachedOk_of_mem_outsideRange h.walks_ok)

/-! ### Updates of one processor or of all -/

/-- The update keeps a processor's identifier, whether it lives, and its being well formed. -/
def KeepsVp (p : Params) (f : VP → VP) : Prop :=
  ∀ v, (f v).vpid = v.vpid ∧ (f v).run = v.run ∧ (VpOk p v → VpOk p (f v))

theorem KeepsVp.id (p : Params) : KeepsVp p id := fun _ => ⟨rfl, rfl, fun h => h⟩

theorem KeepsVp.ite {p : Params} {f : VP → VP} (hf : KeepsVp p f) (c : VP → Bool) :
    KeepsVp p fun v => if c v then f v else v := by
  intro v
  dsimp only
  split_ifs
  · exact hf v
  · exact KeepsVp.id p v

theorem KeepsVp.map_vpid {p : Params} {f : VP → VP} (hf : KeepsVp p f) (l : List VP) :
    (l.map f).map VP.vpid = l.map VP.vpid := by
  rw [List.map_map]
  exact List.map_congr_left fun v _ => (hf v).1

theorem KeepsVp.purge (p : Params) (a : Word) (n : Nat) : KeepsVp p (purge a n) :=
  fun _ => ⟨rfl, rfl, fun h => h.purge a n⟩

theorem KeepsVp.eraseCached (p : Params) (k : Nat) : KeepsVp p fun v => { v with tc := v.tc.eraseIdx k } :=
  fun _ => ⟨rfl, rfl, fun h => h.withTc fun c hc => h.cached_ok c (List.mem_of_mem_eraseIdx hc)⟩

theorem KeepsVp.endWalkOf (p : Params) (k : Nat) : KeepsVp p (endWalkOf k) := by
  intro v
  unfold Machine.endWalkOf
  split
  · exact KeepsVp.id p v
  · rename_i c hc
    refine ⟨rfl, rfl, fun h => ?_⟩
    exact (h.withWalks fun d hd => h.walks_ok d (List.mem_of_mem_eraseIdx hd)).keepCached
      (h.walks_ok c (List.mem_of_getElem? hc))

/-! ### Parts of the invariant -/

theorem map_vpid_live (s : State) :
    (live s).map VP.vpid =
      if s.self.run = .stopped then s.others.map VP.vpid else s.self.vpid :: s.others.map VP.vpid := by
  unfold live
  split_ifs <;> rfl

theorem MachineInv.params_ok {s : State} (h : MachineInv s) : paramsOk s.params = true := by
  obtain ⟨hparams, -, -, -, -, -, -, -⟩ := h
  exact hparams

theorem MachineInv.memory_wf {s : State} (h : MachineInv s) : Memory.wf s.lm := by
  obtain ⟨-, hwf, -, -, -, -, -, -⟩ := h
  exact hwf

theorem MachineInv.memory_ok {s : State} (h : MachineInv s) : ∀ c ∈ s.lm, lmOk s.params c.1 = true := by
  obtain ⟨-, -, hlm, -, -, -, -, -⟩ := h
  exact hlm

theorem MachineInv.vpids_nodup {s : State} (h : MachineInv s) : ((live s).map VP.vpid).Nodup := by
  obtain ⟨-, -, -, hnodup, -, -, -, -⟩ := h
  exact hnodup

theorem MachineInv.others_live {s : State} (h : MachineInv s) : ∀ v ∈ s.others, v.run ≠ .stopped := by
  obtain ⟨-, -, -, -, hothers, -, -, -⟩ := h
  exact hothers

theorem MachineInv.pending_lt {s : State} (h : MachineInv s) : s.pending < 2 ^ s.params.numInt := by
  obtain ⟨-, -, -, -, -, -, hpending, -⟩ := h
  exact hpending

theorem MachineInv.gen_lt {s : State} (h : MachineInv s) : s.gen < 2 ^ s.params.numInt := by
  obtain ⟨-, -, -, -, -, -, -, hgen⟩ := h
  exact hgen

theorem MachineInv.vpOk_self {s : State} (h : MachineInv s) : VpOk s.params s.self := by
  obtain ⟨-, -, -, -, -, hvps, -, -⟩ := h
  exact hvps _ (List.mem_cons_self ..)

theorem MachineInv.vpOk_others {s : State} (h : MachineInv s) : ∀ v ∈ s.others, VpOk s.params v := by
  obtain ⟨-, -, -, -, -, hvps, -, -⟩ := h
  exact (List.forall_mem_cons.1 hvps).2

/-- The timer, the stale bytes, the version, the agenda and the counter of free values do not occur in the
invariant. -/
theorem MachineInv.withRest {s : State} (h : MachineInv s) {timer : DWord} {stale : List StaleByte}
    {ver : Word} {agenda : List Action} {free : Nat} :
    MachineInv { s with timer := timer, stale := stale, ver := ver, agenda := agenda, free := free } := h

theorem MachineInv.withMemory {s : State} (h : MachineInv s) {m : Memory} (hwf : Memory.wf m)
    (hlm : ∀ c ∈ m, lmOk s.params c.1 = true) : MachineInv { s with lm := m } := by
  obtain ⟨hparams, -, -, hnodup, hothers, hvps, hpending, hgen⟩ := h
  exact ⟨hparams, hwf, hlm, hnodup, hothers, hvps, hpending, hgen⟩

theorem MachineInv.withPending {s : State} (h : MachineInv s) {m : Nat} (hm : m < 2 ^ s.params.numInt) :
    MachineInv { s with pending := m } := by
  obtain ⟨hparams, hwf, hlm, hnodup, hothers, hvps, -, hgen⟩ := h
  exact ⟨hparams, hwf, hlm, hnodup, hothers, hvps, hm, hgen⟩

theorem MachineInv.withGen {s : State} (h : MachineInv s) {m : Nat} (hm : m < 2 ^ s.params.numInt) :
    MachineInv { s with gen := m } := by
  obtain ⟨hparams, hwf, hlm, hnodup, hothers, hvps, hpending, -⟩ := h
  exact ⟨hparams, hwf, hlm, hnodup, hothers, hvps, hpending, hm⟩

theorem MachineInv.withVps {s : State} (h : MachineInv s) {v : VP} {l : List VP}
    (hnodup : ((live { s with self := v, others := l }).map VP.vpid).Nodup)
    (hothers : ∀ w ∈ l, w.run ≠ .stopped) (hself : VpOk s.params v) (hvps : ∀ w ∈ l, VpOk s.params w) :
    MachineInv { s with self := v, others := l } := by
  obtain ⟨hparams, hwf, hlm, -, -, -, hpending, hgen⟩ := h
  exact ⟨hparams, hwf, hlm, hnodup, hothers, List.forall_mem_cons.2 ⟨hself, hvps⟩, hpending, hgen⟩

/-- The processor in the seat may change as long as it keeps its identifier and none comes back to life. -/
theorem MachineInv.withSelf {s : State} (h : MachineInv s) {v : VP} (hv : VpOk s.params v)
    (hvpid : v.vpid = s.self.vpid) (hrun : s.self.run = .stopped → v.run = .stopped) :
    MachineInv { s with self := v } := by
  have hnodup := h.vpids_nodup
  refine h.withVps ?_ h.others_live hv h.vpOk_others
  rw [map_vpid_live] at hnodup ⊢
  dsimp only
  by_cases hv : v.run = .stopped
  · rw [if_pos hv]
    split_ifs at hnodup
    · exact hnodup
    · exact hnodup.of_cons
  · rw [if_neg hv, hvpid]
    rwa [if_neg (mt hrun hv)] at hnodup

/-- Updates of the processors that keep each one's identifier, life and form. -/
theorem MachineInv.mapVps {s : State} (h : MachineInv s) {f g : VP → VP} (hf : KeepsVp s.params f)
    (hg : KeepsVp s.params g) : MachineInv { s with self := f s.self, others := s.others.map g } := by
  have hnodup := h.vpids_nodup
  obtain ⟨hvpid, hrun, hself⟩ := hf s.self
  refine h.withVps ?_ ?_ (hself h.vpOk_self) ?_
  · rw [map_vpid_live] at hnodup ⊢
    dsimp only
    rwa [hg.map_vpid, hvpid, hrun]
  · exact List.forall_mem_map.2 fun w hw => (hg w).2.1 ▸ h.others_live w hw
  · exact List.forall_mem_map.2 fun w hw => (hg w).2.2 (h.vpOk_others w hw)

theorem MachineInv.mapLive {s : State} (h : MachineInv s) {f : VP → VP} (hf : KeepsVp s.params f) :
    MachineInv (mapLive f s) := h.mapVps hf hf

theorem MachineInv.onVP {s : State} (h : MachineInv s) (p : Word) {f : VP → VP} (hf : KeepsVp s.params f) :
    MachineInv (onVP p f s) := by
  unfold Machine.onVP
  split_ifs
  · obtain ⟨hvpid, hrun, hself⟩ := hf s.self
    exact h.withSelf (hself h.vpOk_self) hvpid fun hs => hrun.trans hs
  · exact h.mapVps (KeepsVp.id _) (hf.ite fun v => v.vpid == p)

/-! ### The seat -/

theorem run_of_selfIs {p : Word} {s : State} (h : selfIs p s = true) : s.self.run ≠ .stopped := by
  simp only [selfIs, Bool.and_eq_true, bne_iff_ne] at h
  exact h.1

/-- Only a live processor is put into the seat. -/
theorem MachineInv.focus_live {p : Word} {s t : State} (h : MachineInv s) (hf : focus p s = some t) :
    t.self.run ≠ .stopped := by
  rcases focus_cases hf with ⟨rfl, hself⟩ | ⟨-, v, hv, -, rfl⟩
  · exact run_of_selfIs hself
  · exact h.others_live v hv

/-- A processor that leaves the seat goes back to the others, unless it is stopped: identifiers stay distinct
since the one that enters was taken out of them. -/
theorem MachineInv.focus {p : Word} {s t : State} (h : MachineInv s) (hf : focus p s = some t) :
    MachineInv t := by
  have hnodup := h.vpids_nodup
  have hothers := h.others_live
  rcases focus_cases hf with ⟨rfl, -⟩ | ⟨hself, v, hv, hvpid, rfl⟩
  · exact h
  rw [map_vpid_live] at hnodup
  have hrest : ∀ w ∈ s.others.filter (fun q => q.vpid != p), w ∈ s.others ∧ w.vpid ≠ p := fun w hw => by
    simpa using hw
  have hsub : (s.others.filter fun q => q.vpid != p).map VP.vpid |>.Sublist (s.others.map VP.vpid) :=
    List.filter_sublist.map _
  have hfresh : p ∉ (s.others.filter fun q => q.vpid != p).map VP.vpid := by
    simp
  by_cases hstop : s.self.run = .stopped
  · rw [if_pos hstop] at hnodup
    simp only [hstop, if_true]
    refine h.withVps ?_ (fun w hw => hothers w (hrest w hw).1) (h.vpOk_others v hv)
      fun w hw => h.vpOk_others w (hrest w hw).1
    rw [map_vpid_live]
    simp only [hothers v hv, if_false, hvpid]
    exact List.nodup_cons.2 ⟨hfresh, hnodup.sublist hsub⟩
  · have hne : s.self.vpid ≠ p := by
      simpa [selfIs, hstop] using hself
    rw [if_neg hstop] at hnodup
    simp only [hstop, if_false]
    refine h.withVps ?_ (List.forall_mem_cons.2 ⟨hstop, fun w hw => hothers w (hrest w hw).1⟩)
      (h.vpOk_others v hv)
      (List.forall_mem_cons.2 ⟨h.vpOk_self, fun w hw => h.vpOk_others w (hrest w hw).1⟩)
    rw [map_vpid_live]
    simp only [hothers v hv, if_false, hvpid, List.map_cons]
    refine List.nodup_cons.2 ⟨?_, hnodup.sublist (hsub.cons_cons _)⟩
    exact List.not_mem_cons_of_ne_of_not_mem hne.symm hfresh

theorem MachineInv.stopVP {s : State} (h : MachineInv s) : MachineInv (stopVP s) :=
  (h.withSelf (v := { s.self with run := .stopped }) (h.vpOk_self.withRun nofun) rfl fun _ => rfl).withRest

theorem MachineInv.stopVM {s : State} (h : MachineInv s) : MachineInv (stopVM s) :=
  h.withVps List.nodup_nil (List.forall_mem_nil _) (h.vpOk_self.withRun nofun) (List.forall_mem_nil _)

/-- A new processor with an identifier that no live processor has. -/
theorem MachineInv.addVp {s : State} (h : MachineInv s) {v : VP} (hv : VpOk s.params v)
    (hrun : v.run ≠ .stopped) (hfresh : ∀ w ∈ live s, w.vpid ≠ v.vpid) :
    MachineInv { s with others := s.others ++ [v] } := by
  have hlive : live { s with others := s.others ++ [v] } = live s ++ [v] := by
    unfold live
    split_ifs <;> rfl
  refine h.withVps ?_ ?_ h.vpOk_self ?_
  · rw [hlive, List.map_append, List.map_singleton, ← List.concat_eq_append]
    refine h.vpids_nodup.concat fun hmem => ?_
    obtain ⟨w, hw, he⟩ := List.mem_map.1 hmem
    exact hfresh w hw he
  · simpa [or_imp, forall_and] using ⟨h.others_live, hrun⟩
  · simpa [or_imp, forall_and] using ⟨h.vpOk_others, hv⟩

/-! ### Registers of the executing processor -/

theorem MachineInv.setReg {s : State} (h : MachineInv s) (i : Fin 32) (v : Word) :
    MachineInv (setReg i v s) := h.withSelf h.vpOk_self rfl fun hs => hs

theorem MachineInv.setPc {s : State} (h : MachineInv s) (t : Word) : MachineInv (setPc t s) :=
  h.withSelf h.vpOk_self rfl fun hs => hs

theorem MachineInv.advance {s : State} (h : MachineInv s) : MachineInv (advance s) := h.setPc _

theorem MachineInv.setTimer {s : State} (h : MachineInv s) (t : DWord) : MachineInv (setTimer t s) := by
  unfold Machine.setTimer
  split_ifs
  · exact h.withSelf h.vpOk_self rfl fun hs => hs
  · exact h.withRest

/-- A draw from a set that is not empty, as an equation to rewrite with. -/
theorem drawFrom_eq {α : Type} (d : α) {l : List α} (hl : l ≠ []) (s : State) :
    ∃ a ∈ l, ∃ n, drawFrom d l s = (a, { s with free := n }) := by
  obtain ⟨hmem, n, hn⟩ := drawFrom_spec d l s hl
  exact ⟨_, hmem, n, Prod.ext rfl hn⟩

/-! ### Interrupts -/

theorem lt_of_validInt {s : State} {i : Nat} (h : validInt s i = true) : i < s.params.numInt := by
  simpa [validInt] using h

theorem lt_of_eligible {s : State} {len i : Nat} (h : eligible s len i = true) : i < s.params.numInt := by
  simp only [eligible, Bool.and_eq_true] at h
  exact lt_of_validInt h.1.1.1

theorem lt_of_nextInt {s : State} {len n : Nat} (h : nextInt s len = some n) : n < s.params.numInt :=
  lt_of_eligible (List.find?_some h)

theorem lt_of_mem_eligibles {s : State} {len n : Nat} (h : n ∈ eligibles s len) : n < s.params.numInt :=
  lt_of_eligible (List.of_mem_filter h)

theorem MachineInv.putPending {s : State} (h : MachineInv s) {n : Nat} (hn : n < s.params.numInt) (b : Bool) :
    MachineInv { s with pending := putBit s.pending n b } :=
  h.withPending (putBit_lt b h.pending_lt hn)

theorem MachineInv.putGen {s : State} (h : MachineInv s) {n : Nat} (hn : n < s.params.numInt) (b : Bool) :
    MachineInv { s with gen := putBit s.gen n b } :=
  h.withGen (putBit_lt b h.gen_lt hn)

theorem MachineInv.takeInterrupt {s : State} (h : MachineInv s) {n : Nat} (hn : n < s.params.numInt) :
    MachineInv (takeInterrupt n s) := (h.putPending hn false).putGen hn false

theorem VpOk.putLen {p : Params} {v : VP} (h : VpOk p v) {n : Nat} (hn : n < p.numInt) (b : Bool) :
    VpOk p { v with len := putBit v.len n b } :=
  h.withLen (putBit_lt b h.len_lt hn)

/-! ### Events -/

theorem MachineInv.takeEvent {s : State} (h : MachineInv s) (e : Event) (elr : Word) :
    MachineInv (takeEvent e elr s) := by
  rcases takeEvent_cases e elr s with ⟨g, bad, n, -, -, he⟩ | ⟨-, -, he⟩ | ⟨-, -, he⟩ <;> rw [he]
  · exact (h.withSelf (h.vpOk_self.enterEvent e elr g bad) (by simp) (by simp)).withRest
  · exact h.stopVM
  · exact h.stopVP

theorem MachineInv.raiseHere {s : State} (h : MachineInv s) (e : Event) : MachineInv (raiseHere e s) :=
  h.takeEvent e _

/-- The processor runs, since the return may enter User mode. -/
theorem MachineInv.returnFromEvent {s : State} (h : MachineInv s) (hrun : s.self.run ≠ .waiting) :
    MachineInv (returnFromEvent s) :=
  h.withSelf (h.vpOk_self.leaveEvent hrun) (by simp) (by simp)

/-! ### Memory and accesses -/

theorem MachineInv.writeByte {s : State} (h : MachineInv s) {a : Nat} (ha : lmOk s.params a = true) (b : Byte) :
    MachineInv (writeByte a b s) := by
  obtain ⟨m, st, he, rfl | rfl⟩ := writeByte_eq a b s <;> rw [he]
  · exact h.withRest
  · refine (h.withMemory (memSet_wf b h.memory_wf (lmOk_lt h.params_ok ha)) fun c hc => ?_).withRest
    rcases fst_mem_memSet hc with hca | ⟨d, hd, hdc⟩
    · exact hca ▸ ha
    · exact hdc ▸ h.memory_ok d hd

theorem MachineInv.worked {s t : State} (h : MachineInv s) (hw : Worked s t) : MachineInv t := by
  obtain ⟨regs, oth, tc, m, st, n, rfl, hm, hok, htc⟩ := hw
  have hself : MachineInv { s with self := { s.self with regs := regs, other := oth, tc := tc } } :=
    h.withSelf (h.vpOk_self.withTc (htc h.vpOk_self.cached_ok)) rfl fun hs => hs
  exact (hself.withMemory (hm h.params_ok h.memory_wf) (hok h.memory_ok)).withRest

theorem Worked.run {s t : State} (h : Worked s t) : t.self.run = s.self.run := by
  obtain ⟨_, _, _, _, _, _, rfl, -⟩ := h
  rfl

end Sys2Proof.Machine
end

section
/-! PROOFS. The machine invariant under every instruction, packet and action of the environment. -/

namespace Sys2Proof.Machine

/-- The next state, where there is one, meets the machine invariant. -/
def ResultInv (r : Result) : Prop := ∀ t, r = .next t → MachineInv t

theorem MachineInv.next {s : State} (h : MachineInv s) : ResultInv (.next s) := by
  rintro t ⟨⟩
  exact h

theorem ResultInv.refused (r : Refusal) : ResultInv (.refused r) := fun _ h => nomatch h

theorem ResultInv.fault (f : Fault) : ResultInv (.fault f) := fun _ h => nomatch h

theorem ResultInv.stop (st : Stop) : ResultInv st.result := by
  cases st with
  | fault f => exact .fault f
  | refused r => exact .refused r

theorem MachineInv.done {s : State} (h : MachineInv s) : ResultInv (done s) := h.advance.next

theorem MachineInv.doneWith {s : State} (h : MachineInv s) (r : Word) : ResultInv (doneWith r s) :=
  (h.setReg 0 r).done

theorem MachineInv.requireGuest {s : State} (h : MachineInv s) {body : State → Result}
    (hbody : s.self.um = false → ResultInv (body s)) : ResultInv (requireGuest s body) := by
  cases hum : s.self.um with
  | true =>
    rw [requireGuest_user hum]
    exact (h.raiseHere _).next
  | false =>
    rw [requireGuest_guest hum]
    exact hbody hum

/-! ### Event management, environment -/

theorem execVmversion_inv {s : State} (h : MachineInv s) : ResultInv (execVmversion s) := by
  refine h.requireGuest fun _ => ?_
  dsimp only
  split_ifs
  · exact (h.withRest.setReg 0 _).done
  · obtain ⟨v, -, n, hd⟩ := drawFrom_eq 0x700 (l := versions s.params) (List.cons_ne_nil _ _) s
    rw [hd]
    exact (h.withRest.setReg 0 v).done

theorem execVmsetvec_inv {s : State} (h : MachineInv s) : ResultInv (execVmsetvec s) := by
  refine h.requireGuest fun hum => ?_
  dsimp only
  split_ifs with ha
  · exact ((h.withSelf (h.vpOk_self.withGevb ha) rfl fun hs => hs).setReg 0 0).done
  · exact (h.setReg 0 minusOne).done

theorem execVmgetregs_inv {s : State} (h : MachineInv s) : ResultInv (execVmgetregs s) :=
  h.requireGuest fun _ => ((((h.setReg 0 _).setReg 1 _).setReg 2 _).setReg 3 _).done

theorem execVmsetregs_inv {s : State} (h : MachineInv s) : ResultInv (execVmsetregs s) :=
  h.requireGuest fun _ => MachineInv.done (h.withSelf h.vpOk_self rfl fun hs => hs)

theorem execVmrte_inv {s : State} (h : MachineInv s) (hrun : s.self.run = .running) :
    ResultInv (execVmrte s) := by
  refine h.requireGuest fun _ => ?_
  split_ifs
  · exact h.stopVM.next
  · exact (h.returnFromEvent (by simp [hrun])).next
  · exact .refused _

/-! ### Interrupt management -/

theorem intopFail_inv {s : State} (h : MachineInv s) : ResultInv (intopFail s) := h.withRest.doneWith _

theorem intopGlobal_inv {s : State} (h : MachineInv s) (i : Nat) (b : Bool) :
    ResultInv (intopGlobal i b s) := by
  unfold intopGlobal
  split_ifs with hi
  · exact (h.putGen (lt_of_validInt hi) b).doneWith 0
  · exact intopFail_inv h

theorem intopLocal_inv {s : State} (h : MachineInv s) (i : Nat) (b : Bool) :
    ResultInv (intopLocal i b s) := by
  unfold intopLocal
  split_ifs with hi
  · exact (h.withSelf (h.vpOk_self.putLen (lt_of_validInt hi) b) rfl fun hs => hs).doneWith 0
  · exact intopFail_inv h

theorem intopAffinity_inv {s : State} (h : MachineInv s) (i : Nat) (q : Word) :
    ResultInv (intopAffinity i q s) := by
  unfold intopAffinity
  split_ifs with hi
  · rw [Bool.and_eq_true] at hi
    have hlen : KeepsVp s.params fun v => { v with len := putBit v.len i (v.vpid == q) } :=
      fun v => ⟨rfl, rfl, fun hv => hv.putLen (lt_of_validInt hi.1) _⟩
    exact (h.mapLive hlen).doneWith 0
  · exact intopFail_inv h

/-- Both readings of GET take an eligible interrupt, which is valid. -/
theorem intopGet_inv {s : State} (h : MachineInv s) (i : Nat) : ResultInv (intopGet i s) := by
  unfold intopGet
  cases hn : nextInt s s.self.len with
  | none => exact h.doneWith minusOne
  | some n =>
    have hnext := lt_of_nextInt hn
    obtain ⟨asNamed, -, k, hd⟩ := drawFrom_eq true (l := [true, false]) (List.cons_ne_nil _ _) s
    rw [hd]
    have hdrawn : MachineInv { s with free := k } := h.withRest
    dsimp only
    split_ifs with _ _ hi
    · exact (h.takeInterrupt hnext).doneWith 0
    · exact (hdrawn.takeInterrupt (lt_of_eligible hi)).doneWith 0
    · exact hdrawn.doneWith minusOne
    · exact (hdrawn.takeInterrupt hnext).doneWith 0

theorem intopPeek_inv {s : State} (h : MachineInv s) : ResultInv (intopPeek s) := by
  unfold intopPeek
  split
  · exact h.doneWith minusOne
  · exact h.doneWith _

theorem intopStatus_inv {s : State} (h : MachineInv s) (i : Nat) : ResultInv (intopStatus i s) := by
  unfold intopStatus
  split_ifs
  · exact h.doneWith _
  · exact h.doneWith minusOne

theorem intopPending_inv {s : State} (h : MachineInv s) (i : Nat) (b : Bool) :
    ResultInv (intopPending i b s) := by
  unfold intopPending
  split_ifs with hi
  · exact (h.putPending (lt_of_validInt hi) b).doneWith 0
  · exact intopFail_inv h

theorem execVmintop_inv {s : State} (h : MachineInv s) : ResultInv (execVmintop s) := by
  refine h.requireGuest fun _ => ?_
  dsimp only
  cases intOpOf (getReg 0 s) with
  | nop => exact h.doneWith 0
  | globen => exact intopGlobal_inv h _ true
  | globdis => exact intopGlobal_inv h _ false
  | locen => exact intopLocal_inv h _ true
  | locdis => exact intopLocal_inv h _ false
  | affinity => exact intopAffinity_inv h _ _
  | get => exact intopGet_inv h _
  | peek => exact intopPeek_inv h
  | status => exact intopStatus_inv h _
  | post => exact intopPending_inv h _ true
  | clear => exact intopPending_inv h _ false
  | other => exact intopFail_inv h

theorem execVmgetie_inv {s : State} (h : MachineInv s) : ResultInv (execVmgetie s) :=
  h.requireGuest fun _ => h.doneWith _

theorem execVmsetie_inv {s : State} (h : MachineInv s) : ResultInv (execVmsetie s) :=
  h.requireGuest fun _ =>
    (h.withSelf (v := { s.self with ie := (getReg 0 s).getLsbD 0 }) h.vpOk_self rfl fun hs => hs).doneWith _

/-! ### Memory management and cache control -/

theorem execVmnewmap_inv {s : State} (h : MachineInv s) : ResultInv (execVmnewmap s) := by
  have hfail : ResultInv (newmapFail s) := (h.setReg 0 _).done
  refine h.requireGuest fun _ => ?_
  split
  · exact hfail
  · rename_i map _
    split_ifs
    · exact hfail
    · have hself : VpOk s.params { s.self with map := map, tc := [], walks := [] } :=
        (h.vpOk_self.withTc (List.forall_mem_nil _)).withWalks (List.forall_mem_nil _)
      exact ((h.withSelf hself rfl fun hs => hs).setReg 0 0).done

theorem execVmclrmap_inv {s : State} (h : MachineInv s) : ResultInv (execVmclrmap s) := by
  refine h.requireGuest fun _ => ?_
  have hpurged := h.mapLive (KeepsVp.purge s.params (getReg 0 s) (getReg 1 s).toNat)
  exact ((hpurged.withSelf (hpurged.vpOk_self.purgeWalks _ _) rfl fun hs => hs).setReg 0 0).done

/-- A range operation whose cache work keeps the invariant keeps it. -/
theorem rangeOperation_inv {s : State} (h : MachineInv s) {work : List (Nat × Nat) → State → State}
    (hwork : ∀ spans t, MachineInv t → MachineInv (work spans t)) : ResultInv (rangeOperation work s) := by
  unfold rangeOperation
  rcases rangeCheck_cases (getReg 1 s) (getReg 2 s).toNat s with
    ⟨spans, k, hr⟩ | ⟨va, k, hr⟩ | ⟨k, hr⟩ | ⟨st, hr⟩ <;> rw [hr]
  · exact ((hwork spans _ h.withRest).setReg 0 0).done
  · exact (h.withRest.raiseHere _).next
  · exact (h.withRest.raiseHere _).next
  · exact .stop st

/-- Cache work changes only what instruction fetches may still see. -/
theorem execVmcache_inv {s : State} (h : MachineInv s) : ResultInv (execVmcache s) := by
  refine h.requireGuest fun _ => ?_
  cases cacheOpOf (getReg 0 s) with
  | ickill => exact (h.withRest.setReg 0 0).done
  | dckill => exact (h.withRest.setReg 0 0).done
  | l2kill => exact (h.setReg 0 0).done
  | dccleaninva => exact rangeOperation_inv h fun _ _ ht => ht.withRest
  | icinva => exact rangeOperation_inv h fun _ _ ht => ht.withRest
  | idsync => exact rangeOperation_inv h fun _ _ ht => ht.withRest
  | reserved =>
    obtain ⟨v, -, n, hd⟩ := drawFrom_eq 0 (l := [0, minusOne]) (List.cons_ne_nil _ _) s
    rw [hd]
    exact (h.withRest.setReg 0 v).done

/-! ### Processor management -/

theorem execVmgettime_inv {s : State} (h : MachineInv s) : ResultInv (execVmgettime s) :=
  h.requireGuest fun _ => ((h.setReg 0 _).setReg 1 _).done

theorem execVmsettime_inv {s : State} (h : MachineInv s) : ResultInv (execVmsettime s) :=
  h.requireGuest fun _ => (h.setTimer _).done

/-- Only a processor in Guest mode gets past the privilege check, so none waits in User mode. -/
theorem execVmwait_inv {s : State} (h : MachineInv s) (hrun : s.self.run = .running) :
    ResultInv (execVmwait s) :=
  h.requireGuest fun hum =>
    MachineInv.next (h.withSelf (h.vpOk_self.withRun fun _ => hum) rfl (by simp [hrun]))

theorem execVmyield_inv {s : State} (h : MachineInv s) : ResultInv (execVmyield s) :=
  h.requireGuest fun _ => h.done

theorem execVmstop_inv {s : State} (h : MachineInv s) : ResultInv (execVmstop s) :=
  h.requireGuest fun _ => h.stopVP.next

theorem execVmvpid_inv {s : State} (h : MachineInv s) : ResultInv (execVmvpid s) :=
  h.requireGuest fun _ => (h.setReg 0 _).done

theorem mem_freeVpids {s : State} {k : Nat} :
    k ∈ freeVpids s ↔ k < s.params.maxVp ∧ ∀ w ∈ live s, w.vpid.toNat ≠ k := by
  simp [freeVpids]

/-- A new processor is well formed: its local enables are drawn among the valid interrupts, and it has no vector
table, no cached translation and no unfinished walk. -/
theorem newVp_ok {s : State} {k : Word} (hk : k.toNat < s.params.maxVp) : VpOk s.params (newVp k s) :=
  ⟨hk, Nat.mod_lt _ (Nat.two_pow_pos _), nofun, List.forall_mem_nil _, List.forall_mem_nil _, nofun⟩

theorem execVmstart_inv {s : State} (h : MachineInv s) : ResultInv (execVmstart s) := by
  refine h.requireGuest fun _ => ?_
  cases hfree : freeVpids s with
  | nil => exact (h.setReg 0 minusOne).done
  | cons k rest =>
    obtain ⟨id, hid, n, hd⟩ := drawFrom_eq k (List.cons_ne_nil k rest) s
    dsimp only
    rw [hd]
    obtain ⟨hlt, hfresh⟩ := mem_freeVpids.1 (hfree ▸ hid)
    have hword : (BitVec.ofNat 32 id).toNat = id :=
      Nat.mod_eq_of_lt (hlt.trans (maxVp_of_paramsOk h.params_ok).2)
    have hdrawn : MachineInv { s with free := n } := h.withRest
    have hnew := hdrawn.addVp (newVp_ok (k := BitVec.ofNat 32 id) (hword.trans_lt hlt)) nofun
      fun w hw he => hfresh w hw ((congrArg BitVec.toNat he).trans hword)
    exact (hnew.withRest.setReg 0 _).done

/-! ### Every instruction -/

theorem execTrap1Reserved_inv {s : State} (h : MachineInv s) (imm : BitVec 8) :
    ResultInv (execTrap1Reserved imm s) :=
  h.requireGuest (body := fun _ => .refused _) fun _ => .refused _

theorem exec_inv {s : State} (h : MachineInv s) (hrun : s.self.run = .running) (i : Instr) :
    ResultInv (exec i s) := by
  cases i with
  | vmversion => exact execVmversion_inv h
  | vmrte => exact execVmrte_inv h hrun
  | vmsetvec => exact execVmsetvec_inv h
  | vmsetie => exact execVmsetie_inv h
  | vmgetie => exact execVmgetie_inv h
  | vmintop => exact execVmintop_inv h
  | vmclrmap => exact execVmclrmap_inv h
  | vmnewmap => exact execVmnewmap_inv h
  | vmcache => exact execVmcache_inv h
  | vmgettime => exact execVmgettime_inv h
  | vmsettime => exact execVmsettime_inv h
  | vmwait => exact execVmwait_inv h hrun
  | vmyield => exact execVmyield_inv h
  | vmstart => exact execVmstart_inv h
  | vmstop => exact execVmstop_inv h
  | vmvpid => exact execVmvpid_inv h
  | vmsetregs => exact execVmsetregs_inv h
  | vmgetregs => exact execVmgetregs_inv h
  | trap1Reserved imm => exact execTrap1Reserved_inv h imm
  | trap0 imm => exact (h.takeEvent _ _).next

/-! ### Packets -/

/-- A base packet that raises leaves the state it found but for the event; one that completes has worked within
the invariant. -/
theorem baseProgram_inv {s : State} (h : MachineInv s) (b : BasePacket) : ResultInv (baseProgram b s) := by
  have hw := runPacket_worked b s
  unfold baseProgram
  revert hw
  cases runPacket b s with
  | ok target t => exact fun hw => ((h.worked hw).setPc target).next
  | raise e t => exact fun _ => (h.withRest.raiseHere e).next
  | stop st => exact fun _ => .stop st

theorem basePacket_inv {s : State} (h : MachineInv s) (w : Word) : ResultInv (basePacket w s) := by
  have hw := (packetWords_touched w s).worked
  unfold basePacket
  revert hw
  cases packetWords w s with
  | ok ws t => exact fun hw => baseProgram_inv (h.worked hw) _
  | raise e t => exact fun _ => (h.withRest.raiseHere e).next
  | stop st => exact fun _ => .stop st

theorem runWord_inv {s : State} (h : MachineInv s) (hrun : s.self.run = .running) (bytes : List Byte) :
    ResultInv (runWord bytes s) := by
  have hinvalid : ResultInv (.next (raiseHere (.general .invalidPacket) s)) := (h.raiseHere _).next
  unfold runWord
  split
  · split
    · dsimp only
      split_ifs
      · exact exec_inv h hrun _
      · exact basePacket_inv h _
      · exact hinvalid
    · exact hinvalid
  · exact basePacket_inv h _
  · exact hinvalid

theorem packet_inv {s : State} (h : MachineInv s) (hrun : s.self.run = .running) : ResultInv (packet s) := by
  have hw := (fetch_touched s.self.pc s).worked
  unfold packet
  revert hw
  cases fetch s.self.pc s with
  | ok bytes t => exact fun hw => runWord_inv (h.worked hw) (hw.run.trans hrun) bytes
  | raise e t => exact fun hw => ((h.worked hw).raiseHere e).next
  | stop st => exact fun _ => .stop st

/-! ### The environment's actions (60_exceptions.md R280) -/

theorem KeepsVp.tick (p : Params) (d : DWord) : KeepsVp p fun v => { v with timer := v.timer + d } :=
  fun _ => ⟨rfl, rfl, fun h => h⟩

theorem MachineInv.tick {s : State} (h : MachineInv s) (p : Word) (d : DWord) : MachineInv (tick p d s) := by
  unfold Machine.tick
  split_ifs
  · exact h.onVP p (KeepsVp.tick _ d)
  · exact h.withRest

/-- What a walk answers is of a whole page. -/
theorem MachineInv.fillCached {s : State} (h : MachineInv s) (p va : Word) :
    MachineInv (fillCached p va s) := by
  refine h.onVP p fun v => ?_
  split
  · rename_i hwalk
    exact ⟨rfl, rfl, fun hv => hv.keepCached (cachedOf_ok hwalk)⟩
  · exact KeepsVp.id _ v
  · exact KeepsVp.id _ v

theorem MachineInv.beginWalk {s : State} (h : MachineInv s) (p va : Word) :
    MachineInv (beginWalk p va s) := by
  refine h.onVP p fun v => ?_
  split
  · rename_i hwalk
    exact ⟨rfl, rfl, fun hv => hv.withWalks (List.forall_mem_cons.2 ⟨cachedOf_ok hwalk, hv.walks_ok⟩)⟩
  · exact KeepsVp.id _ v
  · exact KeepsVp.id _ v

theorem lt_of_deliverable {s : State} {n : Nat} (h : deliverable s = some n) : n < s.params.numInt := by
  unfold deliverable at h
  split_ifs at h
  exact lt_of_nextInt h

theorem MachineInv.deliver {s : State} (h : MachineInv s) {n : Nat} (hn : n < s.params.numInt) :
    MachineInv (deliver n s) := (h.takeInterrupt hn).takeEvent _ _

theorem MachineInv.machineCheck {s : State} (h : MachineInv s) (hlive : s.self.run ≠ .stopped) (c : McCause) :
    MachineInv (machineCheck c s) :=
  MachineInv.takeEvent
    (h.withSelf (v := { s.self with run := .running }) (h.vpOk_self.withRun nofun) rfl
      fun hs => absurd hs hlive) _ _

/-- A waiting processor wakes into Guest mode, and takes an eligible interrupt where they are enabled. -/
theorem MachineInv.wake {s : State} (h : MachineInv s) (hlive : s.self.run ≠ .stopped) :
    MachineInv (wake s) := by
  unfold Machine.wake
  cases hl : eligibles s s.self.len with
  | nil => exact h
  | cons n rest =>
    have hn : n < s.params.numInt := lt_of_mem_eligibles (hl ▸ List.mem_cons_self ..)
    obtain ⟨pick, -, k, hd⟩ := drawFrom_eq n (List.cons_ne_nil n rest) s
    dsimp only
    rw [hd]
    have hrun : MachineInv { s with self := { s.self with run := .running }, free := k } :=
      h.withSelf (v := { s.self with run := .running }) (h.vpOk_self.withRun nofun) rfl
        fun hs => absurd hs hlive
    have hwoken := hrun.setReg 0 (BitVec.ofNat 32 pick)
    split_ifs
    · exact (hwoken.takeInterrupt hn).takeEvent _ _
    · exact hwoken.advance

theorem act_inv {s : State} (h : MachineInv s) (a : Action) : ResultInv (act a s) := by
  cases a with
  | run p =>
    dsimp only [act]
    cases hf : focus p s with
    | none => exact h.next
    | some s1 =>
      dsimp only
      split_ifs with hrun
      · exact packet_inv (h.focus hf) hrun
      · exact h.next
  | arrive n =>
    dsimp only [act]
    split_ifs with hn
    · exact (h.putPending (lt_of_validInt hn) true).next
    · exact h.next
  | deliver p =>
    dsimp only [act]
    cases hf : focus p s with
    | none => exact h.next
    | some s1 =>
      cases hn : deliverable s1 with
      | none => simpa only [hn] using h.next
      | some n => simpa only [hn] using ((h.focus hf).deliver (lt_of_deliverable hn)).next
  | wake p =>
    dsimp only [act]
    cases hf : focus p s with
    | none => exact h.next
    | some s1 =>
      dsimp only
      split_ifs
      · exact ((h.focus hf).wake (h.focus_live hf)).next
      · exact h.next
  | machineCheck p c =>
    dsimp only [act]
    cases hf : focus p s with
    | none => exact h.next
    | some s1 =>
      dsimp only
      split_ifs
      · exact ((h.focus hf).machineCheck (h.focus_live hf) c).next
      · exact h.next
  | tick p d => exact (h.tick p d).next
  | dropCached p k => exact (h.onVP p (KeepsVp.eraseCached _ k)).next
  | fillCached p va => exact (h.fillCached p va).next
  | beginWalk p va => exact (h.beginWalk p va).next
  | finishWalk p k => exact (h.onVP p (KeepsVp.endWalkOf _ k)).next
  | stopVM => exact h.stopVM.next
  | deviceWrite la b =>
    dsimp only [act]
    split_ifs with hla
    · exact (h.writeByte hla b).next
    · exact h.next

theorem machineStep_inv {s : State} (h : MachineInv s) : ResultInv (machineStep s) := by
  unfold machineStep
  split_ifs
  · exact .fault _
  · exact .refused _
  · split
    · exact act_inv h.withRest _
    · split
      · exact act_inv h _
      · exact .fault _

/-- Settles O55: each instruction, packet and action of the environment is made of operations that keep the
invariant. -/
theorem everyStepKeepsTheMachineInvariant : Obligations.EveryStepKeepsTheMachineInvariant :=
  fun _ t h hstep => machineStep_inv h t hstep

end Sys2Proof.Machine
end

section
/-! PROOFS. The machine invariant where a machine starts (10_state.md R44, 70_reset_and_hazards.md R330). -/

namespace Sys2Proof.Machine

theorem initial_vpOk {p : Params} (h : paramsOk p = true) (entry sp : Word) : VpOk p (VP.initial entry sp) :=
  ⟨(maxVp_of_paramsOk h).1, Nat.two_pow_pos _, nofun, List.forall_mem_nil _, List.forall_mem_nil _, nofun⟩

/-- The first processor is alone, and no interrupt is pending or enabled. -/
theorem initial_inv {p : Params} (h : paramsOk p = true) (entry sp : Word) {image : Memory}
    (hwf : Memory.wf image) (hlm : ∀ c ∈ image, lmOk p c.1 = true) :
    MachineInv (State.initial p entry sp image) :=
  ⟨h, hwf, hlm, List.nodup_singleton _, List.forall_mem_nil _, List.forall_mem_singleton.2 (initial_vpOk h entry sp),
    Nat.two_pow_pos _, Nat.two_pow_pos _⟩

/-- Settles O54: the parameters of `State.reset` are valid and its image is empty. -/
theorem resetMeetsTheMachineInvariant : Obligations.ResetMeetsTheMachineInvariant :=
  ⟨initial_inv (p := resetParams) (by decide) 0x1000 0x9000 reset_memory_wf (List.forall_mem_nil _),
    fun _ entry sp _ hp hwf hlm => initial_inv hp entry sp hwf hlm⟩

end Sys2Proof.Machine
end

section
/-! PROOFS. Base packets that raise and that complete (42_trap0_and_base_isa.md R201, decision D1). -/

namespace Sys2Proof.Machine

/-- The entry sequence writes the event record of 60_exceptions.md R284. -/
theorem enterEvent_entered (e : Event) (elr g bad : Word) (v : VP) :
    EnteredEvent e elr g v (enterEvent e elr g bad v) := by
  refine ⟨rfl, ⟨by simp, by simp, by simp, gsrImage_reserved _ _ _⟩, fun hum => ?_, fun hum => ?_,
    fun i hi => ?_, rfl, rfl, rfl, rfl, rfl⟩
  · simp [hum]
  · simp [hum]
  · have h29 : (29 : Nat) ≠ i := fun h => hi (Fin.ext h.symm)
    cases hum : v.um <;> simp [hum, h29]

/-- The entry sequence changes the event record, the mode, `pc`, R29 and the counter of free values. -/
theorem OnlyChanges.enterEvent (e : Event) (elr g bad : Word) (s : State) (n : Nat) :
    OnlyChanges entryParts s { s with self := enterEvent e elr g bad s.self, free := n } := by
  intro p hp
  cases p with
  | reg i =>
    have h29 : i ≠ 29 := fun h => hp (h ▸ List.mem_cons_self ..)
    obtain ⟨-, -, -, -, hregs, -⟩ := enterEvent_entered e elr g bad s.self
    exact hregs i h29
  | pc | gelr | gsr | gosp | gbadva | um | ie | mch | recorded => exact absurd (by decide) hp
  | memory => exact fun _ => rfl
  | gevb | map | tc | walks | len | other | run | vpid | ownTimer => simp [sameAt]
  | _ => rfl

/-- With a vector table, taking an event writes the record, with GBADVA where the event defines it, and changes
nothing else. -/
theorem takeEvent_entered (e : Event) (elr : Word) {g : Word} {s : State} (hg : s.self.gevb = some g) :
    EnteredEvent e elr g s.self (takeEvent e elr s).self ∧
      (∀ va, eventBadva e = some va → (takeEvent e elr s).self.gbadva = va) ∧
      OnlyChanges entryParts s (takeEvent e elr s) := by
  rcases takeEvent_cases e elr s with ⟨g', bad, n, hg', hbad, he⟩ | ⟨hnone, -⟩ | ⟨hnone, -⟩
  · obtain rfl : g' = g := Option.some.inj (hg'.symm.trans hg)
    rw [he]
    exact ⟨enterEvent_entered e elr g' bad s.self, hbad, .enterEvent e elr g' bad s n⟩
  · exact absurd (hnone.symm.trans hg) nofun
  · exact absurd (hnone.symm.trans hg) nofun

/-- What the requests of a base packet may change, as a frame. -/
theorem OnlyChanges.worked {s t : State} (h : Worked s t) :
    OnlyChanges ([Part.pc, .tc, .other, .memory, .stale] ++ (List.finRange 32).map Part.reg) s t := by
  obtain ⟨regs, oth, tc, m, st, n, rfl, -⟩ := h
  intro p hp
  cases p with
  | reg i => exact absurd (List.mem_append_right _ (List.mem_map_of_mem (List.mem_finRange i))) hp
  | tc | other | memory | stale => exact absurd (List.mem_append_left _ (by decide)) hp
  | _ => rfl

/-- Settles O58: a packet that raises takes its event in the state before it, and one that completes changes what
its requests may change and then `pc`. -/
theorem faultingBasePacketsHaveNoOtherEffect : Obligations.FaultingBasePacketsHaveNoOtherEffect := by
  intro b g s s1 hg
  have hworked := runPacket_worked b s
  constructor
  · intro e hraise
    refine ⟨raiseHere e (abandon s s1), by rw [baseProgram, hraise], ?_⟩
    obtain ⟨hentered, hbadva, hframe⟩ := takeEvent_entered e s.self.pc (s := abandon s s1) hg
    exact ⟨hentered, hbadva, ((OnlyChanges.refl _ s).free s1.free).trans hframe⟩
  · intro target hok
    rw [hok] at hworked
    exact ⟨setPc target s1, by rw [baseProgram, hok], rfl, (OnlyChanges.refl _ s1).setPc target (by simp),
      (OnlyChanges.worked hworked).setPc target (by simp)⟩

end Sys2Proof.Machine
end

section
/-! PROOFS. Translate (20_memory.md R69): which accesses raise, and which are granted. -/

namespace Sys2Proof.Machine

variable {acc : AccessKind} {va : Word} {n : Nat} {s s1 : State} {l : Lookup} {x : Xlat}

theorem permitted_iff : permitted acc x = true ↔ Permits acc x := by
  cases acc <;> simp [permitted, Permits]

/-- A permission of any kind makes a translation valid (R84). -/
theorem Permits.valid (h : Permits acc x) : xlatValid x = true := by
  obtain ⟨hr, hw, hx⟩ := h
  rw [xlatValid_iff]
  cases acc with
  | load => exact .inl (hr rfl)
  | store => exact .inr (.inl (hw rfl))
  | fetch => exact .inr (.inr (hx rfl))

/-! ### Steps 3 to 7 of Translate, on the answer of Lookup -/

theorem checkAccess_invalid (hv : xlatValid x = false) :
    checkAccess acc va n (.hit x) s = .raise (.general (protCause acc va)) s := by
  simp [checkAccess, hv]

theorem checkAccess_notPermitted (ht : x.t = false) (hp : ¬Permits acc x) :
    checkAccess acc va n (.hit x) s = .raise (.general (protCause acc va)) s := by
  cases hv : xlatValid x with
  | false => exact checkAccess_invalid hv
  | true => simp [checkAccess, hv, ht, permitted_iff, hp]

theorem checkAccess_notUser (ht : x.t = false) (hp : Permits acc x) (hum : s.self.um = true)
    (hu : x.u = false) : checkAccess acc va n (.hit x) s = .raise (.general (userCause acc va)) s := by
  simp [checkAccess, hp.valid, ht, permitted_iff.2 hp, hum, hu]

theorem checkAccess_inaccessible (ht : x.t = false) (hp : Permits acc x)
    (hu : s.self.um = true → x.u = true) (hl : lmOkRange s.params (xlatAddr x va) n = false) :
    checkAccess acc va n (.hit x) s = .raise (badLogical acc va s).1 (badLogical acc va s).2 := by
  have huser : (s.self.um && !x.u) = false := by simpa using hu
  simp only [checkAccess, hp.valid, ht, permitted_iff.2 hp, huser, hl]
  rfl

/-- Everything a check that grants says of the translation. -/
theorem checkAccess_ok {a : Located} (h : checkAccess acc va n l s = .ok a s1) :
    ∃ x, l = .hit x ∧ s1 = s ∧ a = { la := xlatAddr x va, c := x.c } ∧ Permits acc x ∧ x.t = false ∧
      (s.self.um = true → x.u = true) ∧ lmOkRange s.params (xlatAddr x va) n = true := by
  cases l with
  | noTranslation => cases h
  | invalid => cases h
  | hit x =>
    simp only [checkAccess] at h
    split_ifs at h with hvalid htrusted hpermitted huser hlm
    split at h
    · cases h
    · cases h
      exact ⟨x, rfl, rfl, rfl, permitted_iff.1 (by simpa using hpermitted), by simpa using htrusted,
        by simpa using huser, by simpa using hlm⟩

/-- The two ways an inaccessible logical address is reported (R85). -/
theorem badLogical_fst (acc : AccessKind) (va : Word) (s : State) :
    (badLogical acc va s).1 = .machineCheck .badMapping ∨
      (badLogical acc va s).1 = .general (protCause acc va) := by
  simpa [badLogical] using (drawFrom_spec (Event.machineCheck .badMapping)
    [.machineCheck .badMapping, .general (protCause acc va)] s (by simp)).1

/-! ### Translate -/

theorem translate_reserved (h : 0xFF000000 ≤ va.toNat) :
    translate acc va n s = .raise (.general (protCause acc va)) s := by
  simp [translate, reservedVa, h]

/-- Where no cached answer differs from the walk, Translate checks and keeps the walk's answer. -/
theorem translate_of_answer (hlt : va.toNat < 0xFF000000) (ha : CacheAgrees s va)
    (hw : walk s.params s.lm s.self.map va = .answer l) :
    translate acc va n s =
      checkAccess acc va n l { s with self := keepCached (cachedOf va l) s.self } := by
  simp [translate, reservedVa_eq_false.2 hlt, lookup_agrees ha, hw]

theorem translate_of_badLogical (hlt : va.toNat < 0xFF000000) (ha : CacheAgrees s va)
    (hw : walk s.params s.lm s.self.map va = .badLogical) :
    translate acc va n s = .raise (badLogical acc va s).1 (badLogical acc va s).2 := by
  simp [translate, reservedVa_eq_false.2 hlt, lookup_agrees ha, hw]

theorem translate_raise_frame {e : Event} (h : translate acc va n s = .raise e s1) :
    OnlyChanges [.tc] s s1 := by
  have ht := translate_touched acc va n s
  rw [h] at ht
  exact .touched ht

theorem translate_ok_frame {a : Located} (h : translate acc va n s = .ok a s1) :
    OnlyChanges [.tc] s s1 := by
  have ht := translate_touched acc va n s
  rw [h] at ht
  exact .touched ht

/-- A granted access was checked on the answer of the walk or of a cached member that covers it (R70). -/
theorem translate_ok_checked {a : Located} (h : translate acc va n s = .ok a s1) :
    va.toNat < 0xFF000000 ∧ ∃ l k,
      (walk s.params s.lm s.self.map va = .answer l ∨ ∃ c ∈ s.self.tc, covers va c = true ∧ c.answer = l) ∧
      checkAccess acc va n l { s with self := keepCached (cachedOf va l) s.self, free := k } = .ok a s1 := by
  unfold translate at h
  split_ifs at h with hres
  refine ⟨reservedVa_eq_false.1 (by simpa using hres), ?_⟩
  obtain ⟨hanswer, k, hstate⟩ := lookup_spec va s
  split at h
  · cases h
  · cases h
  · rename_i l s2 hlookup
    rw [hlookup] at hanswer hstate
    obtain rfl : s2 = { s with free := k } := hstate
    refine ⟨l, k, ?_, h⟩
    obtain hw | ⟨c, hc, hcov, hl⟩ := hanswer
    · exact .inl hw.symm
    · exact .inr ⟨c, hc, hcov, (Walk.answer.inj hl).symm⟩

/-- Settles O34: each failing check of Translate, taken in its order, raises its cause; an inaccessible logical
address, of an entry or of the access, is reported in one of two ways. -/
theorem translateRaisesTheCauseOfTheAccessKind : Obligations.TranslateRaisesTheCauseOfTheAccessKind := by
  refine ⟨fun va => ⟨rfl, rfl, rfl, rfl, rfl, rfl⟩, fun acc va n s => ⟨translate_reserved, ?_, ?_⟩⟩
  · refine fun hlt hagree => ⟨fun hwalk => ?_, fun x hx ht hp hum hu => ?_⟩
    · have hraise : ∃ s1, translate acc va n s = .raise (.general (protCause acc va)) s1 := by
        obtain hnone | hinvalid | ⟨x, hx, ⟨hr, hw, hxx⟩ | ⟨ht, hp⟩⟩ := hwalk
        · exact ⟨_, translate_of_answer hlt hagree hnone⟩
        · exact ⟨_, translate_of_answer hlt hagree hinvalid⟩
        · exact ⟨_, (translate_of_answer hlt hagree hx).trans
            (checkAccess_invalid (by simp [xlatValid, hr, hw, hxx]))⟩
        · exact ⟨_, (translate_of_answer hlt hagree hx).trans (checkAccess_notPermitted ht hp)⟩
      obtain ⟨s1, h⟩ := hraise
      exact ⟨s1, h, translate_raise_frame h⟩
    · have h := (translate_of_answer (n := n) hlt hagree hx).trans (checkAccess_notUser ht hp hum hu)
      exact ⟨_, h, translate_raise_frame h⟩
  · intro hlt hagree hbad
    have hraise : ∃ t s1, translate acc va n s = .raise (badLogical acc va t).1 s1 := by
      obtain hentry | ⟨x, hx, ht, hp, hu, hl⟩ := hbad
      · exact ⟨_, _, translate_of_badLogical hlt hagree hentry⟩
      · exact ⟨_, _, (translate_of_answer hlt hagree hx).trans (checkAccess_inaccessible ht hp hu hl)⟩
    obtain ⟨t, s1, h⟩ := hraise
    refine ⟨s1, ?_, translate_raise_frame h⟩
    obtain hmc | hprot := badLogical_fst acc va t
    · exact .inl (hmc ▸ h)
    · exact .inr (hprot ▸ h)

/-- Settles O35: a permitted access passes every check, and every check that grants says what it passed. -/
theorem translateGrantsAPermittedAccess : Obligations.TranslateGrantsAPermittedAccess := by
  refine ⟨fun acc va n s x hg => ⟨_, translate_granted hg, translate_ok_frame (translate_granted hg)⟩,
    fun acc va n s s1 a h => ?_⟩
  obtain ⟨hlt, l, k, hsource, hchecked⟩ := translate_ok_checked h
  obtain ⟨x, rfl, -, rfl, hp, ht, hu, hl⟩ := checkAccess_ok hchecked
  exact ⟨hlt, translate_ok_frame h, x, hsource, rfl, rfl, hp, ht, hu, hl⟩

end Sys2Proof.Machine
end

section
/-! PROOFS. Page table entries and table walks (20_memory.md R77, R78, R81, R82). -/

namespace Sys2Proof.Machine

theorem leNat_bytesOfWord (w : Word) : leNat (bytesOfWord w) = w.toNat := by
  simp only [bytesOfWord, leNat, BitVec.extractLsb'_toNat, Nat.shiftRight_eq_div_pow]
  have := w.isLt
  omega

theorem readWord_of_bytes {p : Params} {m : Memory} {la e : Word}
    (h : lmRead p m la 4 = .bytes (bytesOfWord e)) : readWord p m la = some e := by
  simp [readWord, h, leNat_bytesOfWord]

/-! ### Entries -/

/-- The size code in the low three bits of an entry (R74, R77). -/
theorem sizeCode_of_mod {e : Word} {z : SizeCode} (h : e.toNat % 8 = z.val) :
    sizeCode (e.extractLsb' 0 3) = some z := by
  simp [sizeCode, h, z.isLt]

theorem sizeCode_of_mod_seven {e : Word} (h : e.toNat % 8 = 7) : sizeCode (e.extractLsb' 0 3) = none := by
  simp [sizeCode, h]

theorem termXlat_fields (z : SizeCode) (e : Word) : PteFields z e (termXlat z e) := by
  refine ⟨rfl, pageBase_toNat z e, rfl, rfl, rfl, ?_, rfl, rfl⟩
  simp only [termXlat, BitVec.toNat_setWidth, BitVec.extractLsb'_toNat, Nat.shiftRight_eq_div_pow]
  omega

/-- Bits `31 : k` of a directory entry are the address of the L2 table (R77). -/
theorem dropLow_eq {e t : Word} {k : Nat} (h : t.toNat = e.toNat / 2 ^ k * 2 ^ k) :
    (e >>> k) <<< k = t := by
  apply BitVec.eq_of_toNat_eq
  rw [BitVec.toNat_shiftLeft, BitVec.toNat_ushiftRight, Nat.shiftLeft_eq, Nat.shiftRight_eq_div_pow, ← h,
    Nat.mod_eq_of_lt t.isLt]

/-! ### Walks -/

section

variable {p : Params} {m : Memory} {base va e1 e2 t2 : Word} {z : SizeCode}

theorem tableWalk_invalid (h1 : tableEntry p m base va = some e1) (hz : e1.toNat % 8 = 7) :
    tableWalk p m base va = .answer .invalid := by
  simp only [tableWalk, h1, sizeCode_of_mod_seven hz]

theorem tableWalk_terminal (h1 : tableEntry p m base va = some e1) (hz : e1.toNat % 8 = z.val)
    (h5 : 5 ≤ z.val) : tableWalk p m base va = .answer (.hit (termXlat z e1)) := by
  simp only [tableWalk, h1, sizeCode_of_mod hz, h5, if_true]

theorem tableWalk_directory (h1 : tableEntry p m base va = some e1) (hz : e1.toNat % 8 = z.val)
    (h4 : z.val ≤ 4) (ht : t2.toNat = e1.toNat / 2 ^ (12 - 2 * z.val) * 2 ^ (12 - 2 * z.val))
    (h2 : readWord p m (t2 + BitVec.ofNat 32 (4 * (va.toNat % 2 ^ 22 / 2 ^ (12 + 2 * z.val)))) = some e2) :
    tableWalk p m base va = .answer (.hit (termXlat z e2)) := by
  have h5 : ¬5 ≤ z.val := by omega
  simp only [tableWalk, h1, sizeCode_of_mod hz, h5, if_false, tableWalk2, dropLow_eq ht, pageBytes, h2]

end

/-- Settles O36: the page of a table translation is aligned, so no bit of it meets one of the offset. -/
theorem pageSizeSelectsTheLogicalPageBits : Obligations.PageSizeSelectsTheLogicalPageBits := by
  intro z e va
  rw [xlatAddr_toNat (t := termXlat z e) (pageBase_pageBase z e)]
  exact congrArg (· + _) (pageBase_toNat z e)

/-- Settles O37: the size code of the L1 entry makes it invalid, terminal or a directory entry. -/
theorem tableWalkReadsOneEntryPerLevel : Obligations.TableWalkReadsOneEntryPerLevel := by
  intro p m base va e1 e2 t2 hread
  have h1 : tableEntry p m base va = some e1 := readWord_of_bytes hread
  refine ⟨tableWalk_invalid h1, fun z hz h5 => ?_, fun z hz h4 ht hread2 => ?_⟩
  · exact ⟨_, tableWalk_terminal h1 hz h5, termXlat_fields z e1⟩
  · exact ⟨_, tableWalk_directory h1 hz h4 ht (readWord_of_bytes hread2), termXlat_fields z e2⟩

end Sys2Proof.Machine
end

section
/-! PROOFS. List walks (20_memory.md R72, R73, R75). -/

namespace Sys2Proof.Machine

section

variable {p : Params} {m : Memory} {va ptr : Word} {e : DWord} {z : SizeCode}

/-! ### Entries -/

theorem readEntry_of_bytes {bs : List Byte} (h : lmRead p m ptr 8 = .bytes bs) :
    readEntry p m ptr = some (BitVec.ofNat 64 (leNat bs)) := by
  simp [readEntry, h]

theorem listSize_eq_some (h : (e.extractLsb' 52 3).toNat = z.val) : listSize e = some z := by
  simp only [listSize, sizeCode, h, z.isLt, dite_true]

/-- A page number followed by zeros loses its low bits below the page size (R74, R82). -/
theorem pageBase_pageNumber (z : SizeCode) (n : BitVec 20) :
    (pageBase z (n ++ 0#12)).toNat = n.toNat / 2 ^ (2 * z.val) * 2 ^ (12 + 2 * z.val) := by
  have hn : (n ++ 0#12).toNat = 2 ^ 12 * n.toNat := by
    rw [BitVec.toNat_append, BitVec.toNat_ofNat, Nat.zero_mod, Nat.or_zero, Nat.shiftLeft_eq, mul_comm]
  rw [pageBase_toNat, hn, Nat.pow_add, Nat.mul_div_mul_left _ _ (Nat.two_pow_pos 12)]

/-- An entry matches where the page numbers agree above the page size (R72). -/
theorem listMatch_iff : pageBase z va = pageBase z (listVirtual e) ↔
    va.toNat / 2 ^ (12 + 2 * z.val) = (e.extractLsb' 32 20).toNat / 2 ^ (2 * z.val) := by
  rw [← BitVec.toNat_inj, pageBase_toNat, listVirtual, pageBase_pageNumber]
  exact Nat.mul_left_inj (Nat.two_pow_pos _).ne'

theorem listXlat_addr (z : SizeCode) (e : DWord) (va : Word) : (xlatAddr (listXlat z e) va).toNat =
    (e.extractLsb' 0 20).toNat / 2 ^ (2 * z.val) * 2 ^ (12 + 2 * z.val) +
      va.toNat % 2 ^ (12 + 2 * z.val) := by
  rw [xlatAddr_toNat (t := listXlat z e) (pageBase_pageBase z _)]
  exact congrArg (· + _) (pageBase_pageNumber z _)

/-! ### One entry of the loop -/

variable {fuel : Nat}

theorem listWalk_badLogical (hr : readEntry p m ptr = none) :
    listWalk p m va (fuel + 1) ptr = .badLogical := by
  simp only [listWalk, hr]

theorem listWalk_terminator (hr : readEntry p m ptr = some 0) :
    listWalk p m va (fuel + 1) ptr = .answer .noTranslation := by
  simp only [listWalk, hr, if_true]

theorem listWalk_link (hr : readEntry p m ptr = some e) (hl : e.getLsbD 63 = true) :
    listWalk p m va (fuel + 1) ptr = listWalk p m va fuel (e.extractLsb' 0 32) := by
  have h0 : e ≠ 0 := by
    rintro rfl
    simp at hl
  simp only [listWalk, hr, h0, hl, if_false, if_true]

theorem listWalk_reservedSize (hr : readEntry p m ptr = some e) (h0 : e ≠ 0) (hl : e.getLsbD 63 = false)
    (hz : listSize e = none) : listWalk p m va (fuel + 1) ptr = .stop (.refused .reservedPageSize) := by
  simp only [listWalk, hr, h0, hl, hz, if_false, Bool.false_eq_true]

theorem listWalk_page (hr : readEntry p m ptr = some e) (h0 : e ≠ 0) (hl : e.getLsbD 63 = false)
    (hz : listSize e = some z) :
    listWalk p m va (fuel + 1) ptr =
      if pageBase z va = pageBase z (listVirtual e) then .answer (.hit (listXlat z e))
      else listWalk p m va fuel (ptr + 8) := by
  simp only [listWalk, hr, h0, hl, hz, if_false, Bool.false_eq_true]

/-- Everything one entry of the loop of R72 can do, whatever the fuel: it gives the result, or the loop goes on at
another entry. -/
theorem listWalk_succ_cases (p : Params) (m : Memory) (va ptr : Word) :
    (∃ w, ∀ fuel, listWalk p m va (fuel + 1) ptr = w) ∨
      ∃ next, ∀ fuel, listWalk p m va (fuel + 1) ptr = listWalk p m va fuel next := by
  simp only [listWalk]
  split
  · exact .inl ⟨_, fun _ => rfl⟩
  · split_ifs
    · exact .inl ⟨_, fun _ => rfl⟩
    · exact .inr ⟨_, fun _ => rfl⟩
    · split
      · exact .inl ⟨_, fun _ => rfl⟩
      · split_ifs
        · exact .inl ⟨_, fun _ => rfl⟩
        · exact .inr ⟨_, fun _ => rfl⟩

/-! ### More fuel, and cycles -/

/-- A loop that ends keeps its result under more fuel. -/
theorem listWalk_mono {f g : Nat} (hfg : f ≤ g)
    (h : listWalk p m va f ptr ≠ .stop (.refused .endlessList)) :
    listWalk p m va g ptr = listWalk p m va f ptr := by
  induction f generalizing g ptr with
  | zero => exact absurd rfl h
  | succ f ih =>
    obtain ⟨g, rfl⟩ := Nat.exists_eq_add_of_le' (show 1 ≤ g by omega)
    obtain ⟨w, hw⟩ | ⟨next, hnext⟩ := listWalk_succ_cases p m va ptr
    · rw [hw, hw]
    · rw [hnext] at h ⊢
      rw [hnext]
      exact ih (by omega) h

/-- The loop comes from the entry at `a` to the one at `b`, over at least one entry and none that ends it. -/
def LeadsTo (p : Params) (m : Memory) (va a b : Word) : Prop :=
  ∃ k, 0 < k ∧ ∀ fuel, listWalk p m va (fuel + k) a = listWalk p m va fuel b

theorem LeadsTo.single {a b : Word} (h : ∀ fuel, listWalk p m va (fuel + 1) a = listWalk p m va fuel b) :
    LeadsTo p m va a b := ⟨1, Nat.one_pos, h⟩

theorem LeadsTo.trans {a b c : Word} (hab : LeadsTo p m va a b) (hbc : LeadsTo p m va b c) :
    LeadsTo p m va a c := by
  obtain ⟨i, hi, hab⟩ := hab
  obtain ⟨j, _, hbc⟩ := hbc
  exact ⟨j + i, by omega, fun fuel => by rw [← add_assoc, hab, hbc]⟩

/-- A loop that comes back to an entry never ends: with the fuel of any number of rounds it runs out as it does
with none. -/
theorem LeadsTo.endless {a : Word} (h : LeadsTo p m va a a) (fuel : Nat) :
    listWalk p m va fuel a = .stop (.refused .endlessList) := by
  obtain ⟨k, hk, hround⟩ := h
  have hrounds : ∀ n, listWalk p m va (n * k) a = .stop (.refused .endlessList) := by
    intro n
    induction n with
    | zero => rw [Nat.zero_mul]; rfl
    | succ n ih => rw [Nat.succ_mul, hround, ih]
  by_contra hne
  have hmore := listWalk_mono (Nat.le_mul_of_pos_right fuel hk) hne
  exact hne (hmore ▸ hrounds fuel)

/-! ### The walk of a list map is the loop -/

theorem length_le_of_nodup {l : List Word} (h : l.Nodup) : l.length ≤ 2 ^ 32 := by
  simpa only [List.length_map, Fintype.card_fin] using
    (h.map (f := BitVec.toFin) fun _ _ => BitVec.eq_of_toFin_eq).length_le_card

/-- The chain that `listChain` unrolls is walked like the loop with at least its fuel: where it stops at an entry
seen before, the loop comes back to that entry; and its fuel outlasts the addresses that are not seen yet. -/
theorem chainWalk_listChain (p : Params) (m : Memory) (va : Word) {fuel more : Nat} {seen : List Word}
    {ptr : Word} (hmore : fuel ≤ more) (hfuel : 2 ^ 32 < fuel + seen.length) (hnodup : seen.Nodup)
    (hseen : ∀ a ∈ seen, LeadsTo p m va a ptr) :
    chainWalk va (listChain p m fuel seen ptr) = listWalk p m va more ptr := by
  induction fuel generalizing more seen ptr with
  | zero =>
    have := length_le_of_nodup hnodup
    omega
  | succ fuel ih =>
    obtain ⟨more, rfl⟩ := Nat.exists_eq_add_of_le' (show 1 ≤ more by omega)
    rw [listChain]
    split_ifs with hmem
    · exact ((hseen ptr hmem).endless _).symm
    · have goOn : ∀ next, (∀ f, listWalk p m va (f + 1) ptr = listWalk p m va f next) →
          chainWalk va (listChain p m fuel (ptr :: seen) next) = listWalk p m va more next := by
        intro next hstep
        have hlead := LeadsTo.single hstep
        refine ih (by omega) (by rw [List.length_cons]; omega) (hnodup.cons hmem) ?_
        exact List.forall_mem_cons.2 ⟨hlead, fun a ha => (hseen a ha).trans hlead⟩
      cases hr : readEntry p m ptr with
      | none => exact (listWalk_badLogical hr).symm
      | some e =>
        dsimp only
        unfold listEntry
        split_ifs with h0 hl
        · exact (listWalk_terminator (h0 ▸ hr)).symm
        · exact (goOn _ fun f => listWalk_link hr hl).trans (listWalk_link hr hl).symm
        · have hl := Bool.eq_false_of_not_eq_true hl
          cases hz : listSize e with
          | none => exact (listWalk_reservedSize hr h0 hl hz).symm
          | some z =>
            have hpage := fun f => listWalk_page (va := va) (fuel := f) hr h0 hl hz
            rw [hpage]
            dsimp only [chainWalk]
            split_ifs with hm
            · rfl
            · exact goOn _ fun f => (hpage f).trans (if_neg hm)

/-- The walk of a list map is the loop of R72, with any fuel above the number of addresses. -/
theorem walk_linear (p : Params) (m : Memory) (va base : Word) {fuel : Nat} (h : 2 ^ 32 + 1 ≤ fuel) :
    walk p m (.linear base) va = listWalk p m va fuel base :=
  chainWalk_listChain p m va h (by simp) List.nodup_nil (by simp)

end

/-- Settles O38: one entry of the loop in each of its cases, and the walk of a list map as the loop. -/
theorem listWalkFollowsLinksAndFirstMatch : Obligations.ListWalkFollowsLinksAndFirstMatch := by
  refine ⟨fun p m va ptr fuel bs e hread he => ?_, fun p m va base => walk_linear p m va base le_rfl⟩
  have hr : readEntry p m ptr = some e := he ▸ readEntry_of_bytes hread
  refine ⟨fun h0 => listWalk_terminator (h0 ▸ hr), fun hl => listWalk_link hr hl, fun z h0 hl hz => ?_⟩
  have hpage := listWalk_page (va := va) (fuel := fuel) hr h0 hl (listSize_eq_some hz)
  refine ⟨fun hm => ?_, fun hm => ?_⟩
  · exact ⟨listXlat z e, hpage.trans (if_pos (listMatch_iff.2 hm)), listXlat_addr z e va,
      rfl, rfl, rfl, rfl, rfl, rfl⟩
  · exact hpage.trans (if_neg (mt listMatch_iff.1 hm))

/-- Settles O39: the walk is the loop with every fuel above the number of addresses, and a loop that runs out of
more fuel runs out of less. -/
theorem endlessListsAreReallyEndless : Obligations.EndlessListsAreReallyEndless := by
  intro p m va base
  refine ⟨fun h fuel => ?_, fun h => (walk_linear p m va base le_rfl).trans (h _)⟩
  by_contra hne
  have hmore := listWalk_mono (Nat.le_max_left fuel (2 ^ 32 + 1)) hne
  rw [← walk_linear p m va base (Nat.le_max_right fuel _), h] at hmore
  exact hne hmore.symm

end Sys2Proof.Machine
end

section
/-! PROOFS. Logical stores, and the loads, stores and fetches of a packet (20_memory.md R62 to R66, R94). -/

namespace Sys2Proof.Machine

/-! ### Little-endian quantities -/

theorem leBytes_succ (n v : Nat) : leBytes (n + 1) v = BitVec.ofNat 8 v :: leBytes n (v / 256) := by
  simp only [leBytes, List.range_succ_eq_map, List.map_cons, List.map_map, Nat.shiftRight_eq_div_pow,
    List.cons.injEq]
  refine ⟨by simp, List.map_congr_left fun k _ => ?_⟩
  rw [Nat.div_div_eq_div_mul, Function.comp_apply, Nat.mul_succ, Nat.pow_add, mul_comm]

theorem leNat_leBytes (n v : Nat) : leNat (leBytes n v) = v % 256 ^ n := by
  induction n generalizing v with
  | zero => simp [leBytes, leNat, Nat.mod_one]
  | succ n ih => rw [leBytes_succ, leNat, ih, BitVec.toNat_ofNat, pow_succ' 256, Nat.mod_mul]

/-- Byte `k` of a little-endian quantity. -/
theorem leNat_byte (l : List Byte) {k : Nat} (hk : k < l.length) :
    BitVec.ofNat 8 (leNat l / 256 ^ k) = l[k] := by
  induction l generalizing k with
  | nil => exact absurd hk (Nat.not_lt_zero k)
  | cons b rest ih =>
    have hb := b.isLt
    cases k with
    | zero =>
      apply BitVec.eq_of_toNat_eq
      rw [BitVec.toNat_ofNat, pow_zero, Nat.div_one, leNat, List.getElem_cons_zero]
      omega
    | succ k =>
      have hdiv : leNat (b :: rest) / 256 = leNat rest := by
        rw [leNat]
        omega
      rw [pow_succ', ← Nat.div_div_eq_div_mul, hdiv, List.getElem_cons_succ]
      exact ih (Nat.lt_of_succ_lt_succ hk)

/-! ### The bytes of a logical store -/

/-- A store to distinct addresses leaves each of its bytes. -/
theorem memGet_writeBytes {l : List (Nat × Byte)} (hl : (l.map Prod.fst).Nodup) {a : Nat} {b : Byte}
    (h : (a, b) ∈ l) (s : State) : memGet (writeBytes l s).lm a = some b := by
  induction l generalizing s with
  | nil => simp at h
  | cons c rest ih =>
    obtain ⟨hc, hrest⟩ := List.nodup_cons.1 hl
    obtain rfl | h := List.mem_cons.1 h
    · obtain ⟨m, st, heq, hframe⟩ := writeBytes_eq rest (writeByte a b s)
      rw [writeBytes, heq]
      simp [hframe a hc]
    · exact ih hrest h _

/-- A store writes the list of its addresses, each with its byte. -/
theorem lmWrite_pairs (la : Word) (n v : Nat) : (lmAddrs la n).zip (leBytes n v) =
    (List.range n).map fun k => ((byteAt la k).toNat, BitVec.ofNat 8 (v / 256 ^ k)) := by
  simp only [lmAddrs, leBytes, byteAt, List.zip_map', Nat.shiftRight_eq_div_pow, Nat.pow_mul,
    Nat.reducePow]

theorem lmAddrs_eq (la : Word) (n : Nat) : lmAddrs la n = (List.range n).map fun k => (byteAt la k).toNat := rfl

theorem byteAt_inj {la : Word} {i j : Nat} (hi : i < 2 ^ 32) (hj : j < 2 ^ 32)
    (h : (byteAt la i).toNat = (byteAt la j).toNat) : i = j := by
  simp only [byteAt, BitVec.toNat_add, BitVec.toNat_ofNat] at h
  omega

theorem lmWrite_keys_nodup (la : Word) {n : Nat} (v : Nat) (hn : n ≤ 8) :
    (((lmAddrs la n).zip (leBytes n v)).map Prod.fst).Nodup := by
  rw [lmWrite_pairs, List.map_map]
  refine List.nodup_range.map_on fun i hi j hj h => byteAt_inj ?_ ?_ h
  all_goals simp only [List.mem_range] at hi hj; omega

/-- A store leaves its bytes, the lowest first. -/
theorem memGet_lmWrite (la : Word) {n : Nat} (v : Nat) (s : State) (hn : n ≤ 8) {k : Nat} (hk : k < n) :
    memGet (lmWrite la n v s).lm (byteAt la k).toNat = some (BitVec.ofNat 8 (v / 256 ^ k)) := by
  refine memGet_writeBytes (lmWrite_keys_nodup la v hn) ?_ s
  rw [lmWrite_pairs]
  exact List.mem_map.2 ⟨k, List.mem_range.2 hk, rfl⟩

/-- Everything `LMWrite` does: it changes memory at its own addresses and the record of stale bytes. -/
theorem lmWrite_eq (la : Word) (n v : Nat) (s : State) :
    ∃ m st, lmWrite la n v s = { s with lm := m, stale := st } ∧
      ∀ a, (∀ k, k < n → a ≠ (byteAt la k).toNat) → memGet m a = memGet s.lm a := by
  obtain ⟨m, st, heq, hframe⟩ := writeBytes_eq ((lmAddrs la n).zip (leBytes n v)) s
  refine ⟨m, st, heq, fun a ha => hframe a ?_⟩
  rw [lmWrite_pairs]
  simpa [eq_comm] using ha

theorem memGet_lmWrite_of_ne {la : Word} {n v a : Nat} {s : State}
    (ha : ∀ k, k < n → a ≠ (byteAt la k).toNat) :
    memGet (lmWrite la n v s).lm a = memGet s.lm a := by
  obtain ⟨m, st, heq, hframe⟩ := lmWrite_eq la n v s
  rw [heq]
  exact hframe a ha

theorem OnlyChanges.lmWrite (la : Word) (n v : Nat) (s : State) :
    OnlyChanges [.memory, .stale] s (lmWrite la n v s) := by
  obtain ⟨m, st, heq, -⟩ := lmWrite_eq la n v s
  rw [heq]
  intro p hp
  cases p with
  | memory | stale => exact absurd (by decide) hp
  | _ => rfl

/-- A store is read back from where it was made. -/
theorem readByte_lmWrite (la : Word) {n : Nat} (v : Nat) (s : State) (hn : n ≤ 8) :
    (lmAddrs la n).map (readByte (lmWrite la n v s).lm) = leBytes n v := by
  rw [lmAddrs_eq, List.map_map, leBytes]
  refine List.map_congr_left fun k hk => ?_
  rw [Function.comp_apply, readByte, memGet_lmWrite la v s hn (List.mem_range.1 hk), Nat.shiftRight_eq_div_pow,
    Nat.pow_mul]
  rfl

theorem lmRead_of_ok {p : Params} {m : Memory} {la : Word} {n : Nat} (h : lmOkRange p la n = true) :
    lmRead p m la n = .bytes ((lmAddrs la n).map (readByte m)) := if_pos h

/-! ### Loads and stores -/

theorem accessBytes_le (z : AccessSize) : accessBytes z ≤ 8 := by
  cases z <;> decide

section

variable {s s1 s2 : State} {va : Word} {z : AccessSize} {v : DWord} {a : Located} {bs : List Byte}

theorem memRead_misaligned (h : va.toNat % accessBytes z ≠ 0) :
    memRead va z s = .raise (.general (.misalignedLoad va)) s := by
  simp [memRead, h]

theorem memWrite_misaligned (h : va.toNat % accessBytes z ≠ 0) :
    memWrite va z v s = .raise (.general (.misalignedStore va)) s := by
  simp [memWrite, h]

theorem fetch_misaligned (h : va.toNat % 4 ≠ 0) : fetch va s = .raise (.general .misalignedPc) s := by
  simp [fetch, h]

theorem memRead_of_translate (h : va.toNat % accessBytes z = 0)
    (ht : translate .load va (accessBytes z) s = .ok a s1) :
    memRead va z s = .ok (leNat ((lmAddrs a.la (accessBytes z)).map (readByte s1.lm))) s1 := by
  simp [memRead, h, ht, lmRead_of_ok (translate_lmOk ht).2]

theorem memWrite_of_translate (h : va.toNat % accessBytes z = 0)
    (ht : translate .store va (accessBytes z) s = .ok a s1) :
    memWrite va z v s = .ok () (lmWrite a.la (accessBytes z) v.toNat s1) := by
  simp [memWrite, h, ht]

theorem fetch_of_translate (h : va.toNat % 4 = 0) (ht : translate .fetch va 4 s = .ok a s1)
    (hb : fetchBytes (lmAddrs a.la 4) s1 = (bs, s2)) : fetch va s = .ok bs s2 := by
  simp [fetch, h, ht, hb]

end

/-- Where each address has one content to return, a fetch draws nothing and returns what memory holds. -/
theorem fetchBytes_current {l : List Nat} {s : State} (h : ∀ a ∈ l, fetchOptions a s = [memGet s.lm a]) :
    fetchBytes l s = (l.map (readByte s.lm), s) := by
  induction l with
  | nil => rfl
  | cons a rest ih =>
    obtain ⟨ha, hrest⟩ := List.forall_mem_cons.1 h
    simp [fetchBytes, ha, ih hrest, readByte]

/-- Settles O40: the bytes of a store are at distinct addresses, so each is read back and no other is touched. -/
theorem logicalStoreIsReadBackLittleEndian : Obligations.LogicalStoreIsReadBackLittleEndian := by
  refine fun s la n v hn => ⟨fun k hk => memGet_lmWrite la v s hn hk, fun a ha => memGet_lmWrite_of_ne ha,
    fun hok => ⟨?_, leNat_leBytes n v⟩⟩
  rw [lmRead_of_ok hok, readByte_lmWrite la v s hn]

/-- Settles O41: alignment is checked before Translate, and a granted access reads or writes at the address that
Translate gives. -/
theorem dataAccessesAlignAndMoveTheirBytes : Obligations.DataAccessesAlignAndMoveTheirBytes := by
  intro va z v s
  refine ⟨fun h => ⟨memRead_misaligned h, memWrite_misaligned h⟩, fetch_misaligned, fun x halign => ⟨?_, ?_⟩⟩
  · intro hg
    have ht := translate_granted hg
    refine ⟨_, _, memRead_of_translate halign ht, ?_, fun k hk => ?_, translate_ok_frame ht⟩
    · simpa [lmAddrs] using leNat_lt ((lmAddrs (xlatAddr x va) (accessBytes z)).map (readByte s.lm))
    · rw [leNat_byte _ (by simpa [lmAddrs] using hk)]
      simp [lmAddrs, byteAt]
  · intro hg
    have ht := translate_granted hg
    refine ⟨_, memWrite_of_translate halign ht, fun k hk => memGet_lmWrite _ _ _ (accessBytes_le z) hk,
      fun a ha => memGet_lmWrite_of_ne ha, ?_⟩
    have hkept := (translate_ok_frame ht).mono (qs := [.tc, .memory, .stale]) (by simp)
    exact hkept.trans ((OnlyChanges.lmWrite _ _ _ _).mono (by simp))

/-- Settles O53: keeping the translation in `TC` changes nothing a fetch may return. -/
theorem fetchReturnsTheMappedBytes : Obligations.FetchReturnsTheMappedBytes := by
  intro s va x halign hg hcurrent
  have ht := translate_granted hg
  have hbytes : ∀ a ∈ lmAddrs (xlatAddr x va) 4, fetchOptions a s = [memGet s.lm a] := by
    simpa [lmAddrs_eq] using hcurrent
  have hfetch := fetch_of_translate halign ht (fetchBytes_current hbytes)
  rw [lmAddrs_eq, List.map_map] at hfetch
  exact ⟨_, hfetch, translate_ok_frame ht⟩

end Sys2Proof.Machine
end

section
/-! PROOFS. Words and their fields (30_encoding.md R120, R121, R126): a word whose don't-care bits are 0 is
given by its upper half, its Parse field and its number. -/

namespace Sys2Proof

/-- Bits 31:16 of a word, where the codes of `trap1` and `trap0` are. -/
def upperHalf (w : Word) : BitVec 16 := w.extractLsb' 16 16

/-- The word with this upper half, Parse field and number, its don't-care bits 0. -/
def fieldWord (hi : BitVec 16) (parse : BitVec 2) (n : BitVec 8) : Word :=
  hi ++ parse ++ 0#1 ++ n.extractLsb' 3 5 ++ 0#3 ++ n.extractLsb' 0 3 ++ 0#2

/-! ### The fields of a word -/

@[simp] theorem upperHalf_fieldWord (hi : BitVec 16) (parse : BitVec 2) (n : BitVec 8) :
    upperHalf (fieldWord hi parse n) = hi := by
  rw [upperHalf, fieldWord]
  iterate 5 rw [BitVec.extractLsb'_append_eq_of_le (by decide)]
  exact BitVec.extractLsb'_append_eq_left

@[simp] theorem imm8Of_fieldWord (hi : BitVec 16) (parse : BitVec 2) (n : BitVec 8) :
    imm8Of (fieldWord hi parse n) = n := by
  have hhigh : (fieldWord hi parse n).extractLsb' 8 5 = n.extractLsb' 3 5 := by
    rw [fieldWord]
    iterate 3 rw [BitVec.extractLsb'_append_eq_of_le (by decide)]
    exact BitVec.extractLsb'_append_eq_right
  have hlow : (fieldWord hi parse n).extractLsb' 2 3 = n.extractLsb' 0 3 := by
    rw [fieldWord, BitVec.extractLsb'_append_eq_of_le (by decide)]
    exact BitVec.extractLsb'_append_eq_right
  rw [imm8Of, hhigh, hlow]
  exact BitVec.extractLsb'_append_extractLsb'

theorem fieldWord_inj {hi hi' : BitVec 16} {parse : BitVec 2} {n n' : BitVec 8} :
    fieldWord hi parse n = fieldWord hi' parse n' ↔ hi = hi' ∧ n = n' := by
  refine ⟨fun h => ⟨?_, ?_⟩, fun ⟨hhi, hn⟩ => by rw [hhi, hn]⟩
  · simpa using congrArg upperHalf h
  · simpa using congrArg imm8Of h

/-- Every word is its fields and its don't-care bits. -/
theorem word_eq_fields (w : Word) :
    w = upperHalf w ++ w.extractLsb' 14 2 ++ w.extractLsb' 13 1 ++ (imm8Of w).extractLsb' 3 5 ++
      w.extractLsb' 5 3 ++ (imm8Of w).extractLsb' 0 3 ++ w.extractLsb' 0 2 := by
  rw [upperHalf, imm8Of, BitVec.extractLsb'_append_eq_left, BitVec.extractLsb'_append_eq_right]
  iterate 6 rw [BitVec.extractLsb'_append_extractLsb'_eq_extractLsb' (by rfl)]
  exact BitVec.extractLsb'_eq_self.symm

/-! ### Masks -/

/-- A mask of the number's bits and of bits in the upper half drops everything else. -/
theorem and_fieldMask (w : Word) (mask : BitVec 16) :
    w &&& fieldWord mask 0#2 0xFF#8 = fieldWord (upperHalf w &&& mask) 0#2 (imm8Of w) := by
  have hhigh : (0xFF#8).extractLsb' 3 5 = BitVec.allOnes 5 := rfl
  have hlow : (0xFF#8).extractLsb' 0 3 = BitVec.allOnes 3 := rfl
  conv_lhs => rw [word_eq_fields w, fieldWord]
  iterate 6 rw [BitVec.and_append]
  simp only [hhigh, hlow, BitVec.and_zero, BitVec.and_allOnes, fieldWord]

/-- `match | 0xC000` sets Parse = `11` (30_encoding.md R122). -/
theorem fieldWord_or_parse (hi : BitVec 16) (n : BitVec 8) :
    fieldWord hi 0#2 n ||| 0xC000#32 = fieldWord hi 3#2 n := by
  have hparse : 0xC000#32 = 0#16 ++ 3#2 ++ 0#1 ++ 0#5 ++ 0#3 ++ 0#3 ++ 0#2 := rfl
  rw [hparse, fieldWord, fieldWord]
  iterate 6 rw [BitVec.or_append]
  simp only [BitVec.or_zero, BitVec.zero_or]

/-- The leading bits are a code exactly when masking them out leaves the code followed by zeros. -/
theorem leadingBits_eq_iff {k m : Nat} (x : BitVec (k + m)) (code : BitVec k) :
    x.extractLsb' m k = code ↔ x &&& (BitVec.allOnes k ++ 0#m) = code ++ 0#m := by
  conv_rhs =>
    rw [← BitVec.extractLsb'_append_extractLsb' (x := x), BitVec.and_append, BitVec.and_allOnes,
      BitVec.and_zero]
  exact (BitVec.append_left_inj _).symm

/-- The leading bits of a word are those of its upper half. -/
theorem upperHalf_extractLsb' (w : Word) {m k : Nat} (h : m + k ≤ 16) :
    (upperHalf w).extractLsb' m k = w.extractLsb' (16 + m) k := by
  ext i hi
  simp only [upperHalf, BitVec.getElem_extractLsb', BitVec.getLsbD_extractLsb', ← Nat.add_assoc,
    Bool.and_eq_right_iff_imp, decide_eq_true_eq]
  omega

/-- Rule R122's mask of the code alone. -/
theorem isTrap1_iff_and (w : Word) : isTrap1 w = true ↔ w &&& 0xFF800000#32 = 0x54800000#32 :=
  beq_iff_eq.trans (leadingBits_eq_iff (k := 9) (m := 23) w _)

theorem isTrap1_iff_upperHalf (w : Word) : isTrap1 w = true ↔ upperHalf w &&& 0xFF80#16 = 0x5480#16 := by
  rw [isTrap1, beq_iff_eq, ← upperHalf_extractLsb' w (m := 7) (by decide)]
  exact leadingBits_eq_iff (k := 9) (m := 7) _ _

theorem isTrap0_iff_upperHalf (w : Word) : isTrap0 w = true ↔ upperHalf w &&& 0xFFC0#16 = 0x5400#16 := by
  rw [isTrap0, beq_iff_eq, ← upperHalf_extractLsb' w (m := 6) (by decide)]
  exact leadingBits_eq_iff (k := 10) (m := 6) _ _

theorem isTrap1_fieldWord (hi : BitVec 16) (parse : BitVec 2) (n : BitVec 8) :
    isTrap1 (fieldWord hi parse n) = (hi &&& 0xFF80#16 == 0x5480#16) := by
  rw [Bool.eq_iff_iff, isTrap1_iff_upperHalf, upperHalf_fieldWord, beq_iff_eq]

theorem isTrap0_fieldWord (hi : BitVec 16) (parse : BitVec 2) (n : BitVec 8) :
    isTrap0 (fieldWord hi parse n) = (hi &&& 0xFFC0#16 == 0x5400#16) := by
  rw [Bool.eq_iff_iff, isTrap0_iff_upperHalf, upperHalf_fieldWord, beq_iff_eq]

/-! ### The words of the encoder -/

theorem trap1Word_eq_fieldWord (n : BitVec 8) : trap1Word n = fieldWord 0x5480#16 3#2 n := rfl

theorem trap0Word_eq_fieldWord (n : BitVec 8) : trap0Word n = fieldWord 0x5400#16 3#2 n := rfl

/-- 30_encoding.md R122: a word is the `trap1` with number `n` exactly when the table's mask leaves the `match`
word of `n`. -/
theorem and_trap1Mask_eq_iff (w : Word) (n : BitVec 8) :
    w &&& 0xFF801F1C#32 = fieldWord 0x5480#16 0#2 n ↔ isTrap1 w = true ∧ imm8Of w = n := by
  have hmask : 0xFF801F1C#32 = fieldWord 0xFF80#16 0#2 0xFF#8 := rfl
  rw [hmask, and_fieldMask, fieldWord_inj, isTrap1_iff_upperHalf]

/-- A `trap1` word under the table's mask, with Parse = `11`, is the canonical word of its number. -/
theorem trap1Word_imm8Of {w : Word} (h : isTrap1 w = true) :
    trap1Word (imm8Of w) = (w &&& 0xFF801F1C#32) ||| 0xC000#32 := by
  rw [(and_trap1Mask_eq_iff w _).2 ⟨h, rfl⟩, fieldWord_or_parse, trap1Word_eq_fieldWord]

/-- A `trap0` word without its don't-care bits, with Parse = `11`, is the canonical word of its number. -/
theorem trap0Word_imm8Of {w : Word} (h : isTrap0 w = true) :
    trap0Word (imm8Of w) = (w &&& 0xFFC01F1C#32) ||| 0xC000#32 := by
  have hmask : 0xFFC01F1C#32 = fieldWord 0xFFC0#16 0#2 0xFF#8 := rfl
  rw [hmask, and_fieldMask, (isTrap0_iff_upperHalf w).1 h, fieldWord_or_parse, trap0Word_eq_fieldWord]

end Sys2Proof
end

section
/-! PROOFS. The decoder and the encoder (30_encoding.md R121, R122, R127, R130, R131). -/

namespace Sys2Proof

/-! ### The map of `trap1` numbers -/

theorem encode_trap1Instr (n : BitVec 8) : encode (trap1Instr n) = trap1Word n := by
  unfold trap1Instr
  split
  case h_19 => rfl
  all_goals exact congrArg trap1Word (BitVec.eq_of_toNat_eq (Eq.symm ‹_›))

theorem trap1Instr_injective : Function.Injective trap1Instr := by
  intro n n' h
  have hword : trap1Word n = trap1Word n' := by
    rw [← encode_trap1Instr, ← encode_trap1Instr, h]
  rw [trap1Word_eq_fieldWord, trap1Word_eq_fieldWord, fieldWord_inj] at hword
  exact hword.2

theorem trap1Instr_ne_trap0 (n imm : BitVec 8) : trap1Instr n ≠ .trap0 imm := by
  unfold trap1Instr
  split <;> nofun

theorem reservedTrap1_iff_toNat (n : BitVec 8) :
    reservedTrap1 n ↔ n.toNat = 6 ∨ n.toNat = 7 ∨ n.toNat = 8 ∨ n.toNat = 9 ∨ n.toNat = 12 ∨ 23 ≤ n.toNat := by
  simp [reservedTrap1, ← BitVec.toNat_inj]

theorem trap1Instr_wf (n : BitVec 8) : (trap1Instr n).wf = true := by
  unfold trap1Instr
  split
  case h_19 =>
    refine decide_eq_true ((reservedTrap1_iff_toNat n).2 ?_)
    simp only [imp_false] at *
    omega
  all_goals rfl

theorem trap1Instr_of_reserved {n : BitVec 8} (h : reservedTrap1 n) : trap1Instr n = .trap1Reserved n := by
  rw [reservedTrap1_iff_toNat] at h
  unfold trap1Instr
  split
  case h_19 => rfl
  all_goals omega

/-- Every well-formed instruction is the `trap1` of a number or a `trap0`. -/
theorem Instr.eq_of_wf {i : Instr} (h : i.wf = true) : (∃ n, i = trap1Instr n) ∨ ∃ n, i = .trap0 n := by
  cases i with
  | trap0 n => exact .inr ⟨n, rfl⟩
  | trap1Reserved n => exact .inl ⟨n, (trap1Instr_of_reserved (of_decide_eq_true h)).symm⟩
  | vmversion => exact .inl ⟨0, rfl⟩
  | vmrte => exact .inl ⟨1, rfl⟩
  | vmsetvec => exact .inl ⟨2, rfl⟩
  | vmsetie => exact .inl ⟨3, rfl⟩
  | vmgetie => exact .inl ⟨4, rfl⟩
  | vmintop => exact .inl ⟨5, rfl⟩
  | vmclrmap => exact .inl ⟨10, rfl⟩
  | vmnewmap => exact .inl ⟨11, rfl⟩
  | vmcache => exact .inl ⟨13, rfl⟩
  | vmgettime => exact .inl ⟨14, rfl⟩
  | vmsettime => exact .inl ⟨15, rfl⟩
  | vmwait => exact .inl ⟨16, rfl⟩
  | vmyield => exact .inl ⟨17, rfl⟩
  | vmstart => exact .inl ⟨18, rfl⟩
  | vmstop => exact .inl ⟨19, rfl⟩
  | vmvpid => exact .inl ⟨20, rfl⟩
  | vmsetregs => exact .inl ⟨21, rfl⟩
  | vmgetregs => exact .inl ⟨22, rfl⟩

/-! ### The decoder -/

/-- Everything the decoder accepts. -/
theorem decodeWord_eq_ok_iff {w : Word} {i : Instr} :
    decodeWord w = .ok i ↔
      (isTrap1 w = true ∧ i = trap1Instr (imm8Of w)) ∨
      (isTrap1 w = false ∧ isTrap0 w = true ∧ i = .trap0 (imm8Of w)) := by
  unfold decodeWord
  cases isTrap1 w <;> cases isTrap0 w <;> simp [eq_comm]

theorem decodeWord_trap1Word (n : BitVec 8) : decodeWord (trap1Word n) = .ok (trap1Instr n) :=
  decodeWord_eq_ok_iff.2 (.inl ⟨isTrap1_fieldWord 0x5480#16 3#2 n,
    by rw [trap1Word_eq_fieldWord, imm8Of_fieldWord]⟩)

theorem decodeWord_trap0Word (n : BitVec 8) : decodeWord (trap0Word n) = .ok (.trap0 n) :=
  decodeWord_eq_ok_iff.2 (.inr ⟨isTrap1_fieldWord 0x5400#16 3#2 n, isTrap0_fieldWord 0x5400#16 3#2 n,
    by rw [trap0Word_eq_fieldWord, imm8Of_fieldWord]⟩)

theorem decodeWord_eq_trap1Instr_iff {w : Word} {n : BitVec 8} :
    decodeWord w = .ok (trap1Instr n) ↔ isTrap1 w = true ∧ imm8Of w = n := by
  rw [decodeWord_eq_ok_iff]
  constructor
  · rintro (⟨h1, hn⟩ | ⟨-, -, hn⟩)
    · exact ⟨h1, (trap1Instr_injective hn).symm⟩
    · exact absurd hn (trap1Instr_ne_trap0 n _)
  · rintro ⟨h1, rfl⟩
    exact .inl ⟨h1, rfl⟩

theorem wordOfBytes_bytesOfWord (w : Word) :
    wordOfBytes (w.extractLsb' 0 8) (w.extractLsb' 8 8) (w.extractLsb' 16 8) (w.extractLsb' 24 8) = w := by
  rw [wordOfBytes]
  iterate 3 rw [BitVec.extractLsb'_append_extractLsb'_eq_extractLsb' (by rfl)]
  exact BitVec.extractLsb'_eq_self

theorem decode_bytesOfWord {w : Word} {i : Instr} (h : decodeWord w = .ok i) (rest : List Byte) :
    decode (bytesOfWord w ++ rest) = .ok (i, rest) := by
  simp only [bytesOfWord, decode, List.cons_append, List.nil_append, wordOfBytes_bytesOfWord, h]

/-- Settles O1: a well-formed instruction is the `trap1` of a number or a `trap0`, and the decoder finds the number
in the canonical word. -/
theorem decodeOfEncodeIsTheInstruction : Obligations.DecodeOfEncodeIsTheInstruction := by
  intro i rest hwf
  obtain ⟨n, rfl⟩ | ⟨n, rfl⟩ := Instr.eq_of_wf hwf
  · rw [encode_trap1Instr]
    exact ⟨decode_bytesOfWord (decodeWord_trap1Word n) rest, Laws.soloParse_trap1Word n⟩
  · exact ⟨decode_bytesOfWord (decodeWord_trap0Word n) rest, Laws.soloParse_trap0Word n⟩

/-- Settles O2: a decoded word is a `trap1` or a `trap0` word, and its canonical word is what the mask leaves of it,
with Parse = `11`. -/
theorem encodeOfDecodeIsTheCanonicalWord : Obligations.EncodeOfDecodeIsTheCanonicalWord := by
  intro w i hdecode
  obtain ⟨htrap1, rfl⟩ | ⟨htrap1, htrap0, rfl⟩ := decodeWord_eq_ok_iff.1 hdecode
  · refine ⟨trap1Instr_wf _, fun _ => ?_, fun h => absurd (htrap1.symm.trans h) nofun⟩
    rw [encode_trap1Instr, trap1Word_imm8Of htrap1]
  · exact ⟨rfl, fun h => absurd (htrap1.symm.trans h) nofun, fun _ => trap0Word_imm8Of htrap0⟩

/-- The rows of the `trap1` table are those of the assigned numbers. -/
theorem trap1Rows_eq_map :
    Machine.trap1Rows = [0, 1, 2, 3, 4, 5, 10, 11, 13, 14, 15, 16, 17, 18, 19, 20, 21, 22].map
      fun n => (trap1Instr n, fieldWord 0x5480#16 0#2 n) := rfl

/-- 30_encoding.md R127: the decoder gives a reserved number, and only such a one, its own instruction. -/
theorem trap1Instr_eq_reserved_iff {m n : BitVec 8} :
    trap1Instr m = .trap1Reserved n ↔ m = n ∧ reservedTrap1 n := by
  constructor
  · intro h
    have hwf : (Instr.trap1Reserved n).wf = true := h ▸ trap1Instr_wf m
    have hn : reservedTrap1 n := of_decide_eq_true hwf
    exact ⟨trap1Instr_injective (h.trans (trap1Instr_of_reserved hn).symm), hn⟩
  · rintro ⟨rfl, hn⟩
    exact trap1Instr_of_reserved hn

/-- Settles O3: the row of a number is its `trap1` instruction with its `match` word, and the numbers without a row
are the reserved ones. -/
theorem trap1TableRowsMatchUnderTheMask : Obligations.Trap1TableRowsMatchUnderTheMask := by
  constructor
  · intro i m hrow
    rw [trap1Rows_eq_map] at hrow
    obtain ⟨n, -, hn⟩ := List.mem_map.1 hrow
    obtain ⟨rfl, rfl⟩ := Prod.mk.inj hn
    refine ⟨?_, fun w => ?_⟩
    · rw [encode_trap1Instr, fieldWord_or_parse, trap1Word_eq_fieldWord]
    · rw [decodeWord_eq_trap1Instr_iff, and_trap1Mask_eq_iff]
  · intro w n
    rw [← isTrap1_iff_and]
    constructor
    · intro h
      obtain ⟨htrap1, hi⟩ | ⟨-, -, hi⟩ := decodeWord_eq_ok_iff.1 h
      · obtain ⟨himm, hn⟩ := trap1Instr_eq_reserved_iff.1 hi.symm
        exact ⟨htrap1, himm, hn⟩
      · exact absurd hi nofun
    · rintro ⟨htrap1, himm, hn⟩
      rw [← trap1Instr_of_reserved hn]
      exact decodeWord_eq_trap1Instr_iff.2 ⟨htrap1, himm⟩

/-- Settles O4: the decoder runs on each word. -/
theorem sampleWordsDecodeAsTheSpecSays : Obligations.SampleWordsDecodeAsTheSpecSays := by
  unfold Obligations.SampleWordsDecodeAsTheSpecSays
  decide

end Sys2Proof
end

section
/-! PROOFS. What the processor makes of a trap word (30_encoding.md R125, R127). -/

namespace Sys2Proof.Machine

/-! ### Words that are no packet by themselves -/

theorem runWord_of_decode {w : Word} {i : Instr} (h : decodeWord w = .ok i) (s : State) :
    runWord (bytesOfWord w) s =
      if soloParse w then exec i s
      else if s.params.baseJudges then basePacket w s
      else .next (raiseHere (.general .invalidPacket) s) := by
  have hdecode : decode (bytesOfWord w) = .ok (i, []) := by
    simpa using decode_bytesOfWord h []
  unfold runWord
  rw [hdecode]
  dsimp only [bytesOfWord]
  rw [wordOfBytes_bytesOfWord]

theorem runWord_of_base {w : Word} (h : decodeWord w = .error (.baseInstruction w)) (s : State) :
    runWord (bytesOfWord w) s = basePacket w s := by
  simp only [bytesOfWord, runWord, decode, wordOfBytes_bytesOfWord, h]

theorem laterWord_of_decode {x : Word} {j : Instr} {s : State} (h : decodeWord x = .ok j)
    (hbase : s.params.baseJudges = false) :
    laterWord x s = .raise (.general .invalidPacket) s := by
  have htrap : isTrap1 x = true ∨ isTrap0 x = true :=
    (decodeWord_eq_ok_iff.1 h).imp And.left fun h => h.2.1
  refine if_pos ?_
  rw [Bool.and_eq_true, Bool.or_eq_true, hbase]
  exact ⟨htrap, rfl⟩

/-- A trap word met behind a word that continues its packet raises 0x15 before anything else of the packet. -/
theorem basePacket_of_laterTrap {w x : Word} {j : Instr} {s s1 : State} (hcont : continues w = true)
    (hx : decodeWord x = .ok j) (hbase : s.params.baseJudges = false)
    (hfetch : fetch (s.self.pc + 4) s = .ok (bytesOfWord x) s1) :
    basePacket w s = .next (raiseHere (.general .invalidPacket) (abandon s s1)) := by
  have htouched := fetch_touched (s.self.pc + 4) s
  rw [hfetch] at htouched
  have hbase1 : s1.params.baseJudges = false := by rw [(Worked.touched htouched).params, hbase]
  have hword : fetchWord (s.self.pc + 4) s = .ok x s1 := by
    simp only [fetchWord, hfetch, bytesOfWord, wordOfBytes_bytesOfWord]
  have hlater : fetchLater (s.self.pc + 4) s = .raise (.general .invalidPacket) s1 := by
    simp only [fetchLater, hword, laterWord_of_decode hx hbase1]
  simp only [basePacket, packetWords, laterWords, hcont, hlater, if_true]

/-- Settles O5: a trap word with another Parse field is judged at once, and one behind a base word is found by the
fetch of that packet's second word. -/
theorem wordsWithAnotherParseFieldRaiseInvalidPacket :
    Obligations.WordsWithAnotherParseFieldRaiseInvalidPacket := by
  constructor
  · intro w i s hdecode hparse
    have hsolo : ¬ soloParse w = true := mt beq_iff_eq.1 hparse
    rw [runWord_of_decode hdecode, if_neg hsolo]
    exact ⟨fun hbase => by simp [hbase], fun hbase => by simp [hbase]⟩
  · intro w x j g s s1 hw hparse hx hbase hg hfetch
    have hcont : continues w = true := by simpa [continues] using hparse
    refine ⟨_, (runWord_of_base hw s).trans (basePacket_of_laterTrap hcont hx hbase hfetch), ?_⟩
    obtain ⟨hentered, -, hframe⟩ :=
      takeEvent_entered (.general .invalidPacket) s.self.pc (s := abandon s s1) hg
    exact ⟨hentered, ((OnlyChanges.refl _ s).free s1.free).trans hframe⟩

/-! ### Reserved `trap1` numbers -/

/-- Settles O7: the instruction is its privilege check and, behind it, the refusal. -/
theorem reservedTrap1NumbersTrapOrHaveNoMeaning : Obligations.ReservedTrap1NumbersTrapOrHaveNoMeaning := by
  intro imm s
  rw [exec_trap1Reserved, execTrap1Reserved]
  refine ⟨fun hguest => requireGuest_guest hguest _, fun g huser hg => ?_⟩
  obtain ⟨hentered, -, hframe⟩ := takeEvent_entered (.general .privilege) s.self.pc hg
  exact ⟨_, requireGuest_user huser _, hentered, hframe⟩

end Sys2Proof.Machine
end

section
/-! PROOFS. The instructions of event management: vmsetvec, vmgetregs, vmsetregs, vmrte
(40_event_management.md R150 to R154). -/

namespace Sys2Proof.Machine

/-! ### What each writes to the seat -/

/-- `GEVB <- a`. -/
theorem OnlyChanges.withGevb (s : State) (a : Option Word) :
    OnlyChanges [.gevb] s { s with self := { s.self with gevb := a } } := by
  intro p hp
  cases p with
  | gevb => exact absurd (by decide) hp
  | memory => exact fun _ => rfl
  | _ => rfl

/-- `G[0..3] <- ...`, which marks the event registers as written. -/
theorem OnlyChanges.withEventRegisters (s : State) (g0 g1 g2 g3 : Word) :
    OnlyChanges [.gelr, .gsr, .gosp, .gbadva, .recorded] s
      { s with self := { s.self with gelr := g0, gsr := g1, gosp := g2, gbadva := g3, recorded := true } } := by
  intro p hp
  cases p with
  | gelr | gsr | gosp | gbadva | recorded => exact absurd (by decide) hp
  | memory => exact fun _ => rfl
  | _ => rfl

theorem OnlyChanges.stopVM (s : State) : OnlyChanges [.run, .others] s (stopVM s) := by
  intro p hp
  cases p with
  | run | others => exact absurd (by decide) hp
  | memory => exact fun _ => rfl
  | _ => rfl

theorem OnlyChanges.returnFromEvent (s : State) :
    OnlyChanges [.pc, .um, .ie, .reg 29, .gosp] s (returnFromEvent s) := by
  intro p hp
  cases p with
  | reg i =>
    have h29 : (29 : Nat) ≠ i := fun h => hp (by simp [Fin.ext_iff, ← h])
    cases hum : gsrUm s.self.gsr <;> simp [sameAt, getReg, hum, h29]
  | pc | um | ie | gosp => exact absurd (by decide) hp
  | memory => exact fun _ => rfl
  | gelr | gsr | gbadva | gevb | map | tc | walks | len | mch | recorded | other | run | vpid | ownTimer =>
    simp [sameAt]
  | _ => rfl

@[simp] theorem live_stopVM (s : State) : live (stopVM s) = [] := rfl

/-! ### vmsetvec -/

theorem validVector_iff {a : Word} : validVector a = true ↔ a.toNat % 4 = 0 ∧ a.toNat ≤ 0xFEFFFFE0 := by
  simp [validVector]

/-- Settles O13: `validVector` is the condition on the table, and each branch writes R0 and `pc`. -/
theorem vmsetvecRegistersTheTableOrFails : Obligations.VmsetvecRegistersTheTableOrFails := by
  intro s hguest
  rw [exec_vmsetvec, execVmsetvec_guest hguest, ← validVector_iff]
  constructor
  · intro hvalid
    rw [if_pos hvalid]
    have hframe : OnlyChanges [.gevb, .reg 0, .pc] s _ :=
      (OnlyChanges.withGevb s (some (getReg 0 s))).mono (by simp)
    exact ⟨_, rfl, rfl, by simp, rfl, (hframe.setReg 0 0 (by simp)).advance (by simp)⟩
  · intro hinvalid
    rw [if_neg hinvalid]
    exact ⟨_, rfl, by simp [minusOne], rfl,
      ((OnlyChanges.refl _ s).setReg 0 minusOne (by simp)).advance (by simp)⟩

/-! ### vmgetregs and vmsetregs -/

/-- Settles O14: the four writes of `vmgetregs` go to distinct registers, and `vmsetregs` writes the event registers
at once. -/
theorem vmgetregsAndVmsetregsCopyTheEventRegisters :
    Obligations.VmgetregsAndVmsetregsCopyTheEventRegisters := by
  intro s hguest
  constructor
  · rw [exec_vmgetregs, execVmgetregs_guest hguest]
    refine ⟨_, rfl, by simp, by simp, by simp, by simp, rfl, ?_⟩
    refine OnlyChanges.advance ?_ (by simp)
    exact ((((OnlyChanges.refl _ s).setReg 0 _ (by simp)).setReg 1 _ (by simp)).setReg 2 _ (by simp)).setReg 3 _
      (by simp)
  · rw [exec_vmsetregs, execVmsetregs_guest hguest]
    exact ⟨_, rfl, rfl, rfl, rfl, rfl, rfl, rfl,
      ((OnlyChanges.withEventRegisters s _ _ _ _).mono (by simp)).advance (by simp)⟩

/-! ### vmrte -/

/-- 40_event_management.md R154: the return is honoured unless a machine check has been taken and resumption is not
allowed. -/
theorem execVmrte_honoured {s : State} (hguest : s.self.um = false)
    (hresume : s.self.mch = false ∨ s.params.mcResume = true) :
    execVmrte s =
      if s.self.recorded then .next (returnFromEvent s) else .refused .unwrittenEventRegisters := by
  rw [execVmrte_guest hguest, if_neg (by rcases hresume with h | h <;> simp [h])]

/-- Settles O15: the three clauses are the three branches of `vmrte`. -/
theorem vmrteRestoresTheSavedState : Obligations.VmrteRestoresTheSavedState := by
  intro s hguest
  rw [exec_vmrte]
  refine ⟨fun hresume hrecorded => ?_, fun hresume hrecorded => ?_, fun hmch hresume => ?_⟩
  · rw [execVmrte_honoured hguest hresume, if_pos hrecorded]
    refine ⟨_, rfl, rfl, rfl, rfl, fun hum => ?_, fun hum => ?_, .returnFromEvent s⟩
    · have hswap : gsrUm s.self.gsr = true := hum
      simp [getReg, hswap]
    · have hkeep : gsrUm s.self.gsr = false := hum
      simp [getReg, hkeep]
  · rw [execVmrte_honoured hguest hresume, hrecorded]
    rfl
  · rw [execVmrte_guest hguest, if_pos (by simp [hmch, hresume])]
    exact ⟨_, rfl, live_stopVM s, .stopVM s⟩

end Sys2Proof.Machine
end

section
/-! PROOFS. How the mode of each processor follows from the processors before (60_exceptions.md R302): under events,
returns and the other shared operations. -/

namespace Sys2Proof.Machine

/-! ### The mode of one processor -/

/-- `w` is `v` after an event taken in User mode: in Guest mode at a vector of `v`'s table, with interrupts disabled
and the stack pointers exchanged. -/
def EntersGuest (v w : VP) : Prop :=
  v.um = true ∧ w.um = false ∧ w.ie = false ∧
    (∃ g n, v.gevb = some g ∧ n ∈ [1, 2, 5, 7] ∧ w.pc = g + BitVec.ofNat 32 (4 * n)) ∧
    gsrUm w.gsr = true ∧ w.regs[29] = v.gosp ∧ w.gosp = v.regs[29]

/-- `w` is `v` after a `vmrte` to User mode from written event registers (40_event_management.md R153). -/
def EntersUser (v w : VP) : Prop :=
  v.um = false ∧ w.um = true ∧ v.recorded = true ∧ gsrUm v.gsr = true ∧ w.ie = gsrIe v.gsr ∧
    w.pc = v.gelr ∧ w.regs[29] = v.gosp ∧ w.gosp = v.regs[29]

/-- What one step may do to the mode of a processor. -/
def ModeStep (v w : VP) : Prop := w.um = v.um ∨ EntersGuest v w ∨ EntersUser v w

theorem eventNumber_mem (e : Event) : eventNumber e ∈ [1, 2, 5, 7] := by
  cases e <;> simp [eventNumber]

theorem enterEvent_modeStep {g : Word} {v : VP} (hg : v.gevb = some g) (e : Event) (elr bad : Word) :
    ModeStep v (enterEvent e elr g bad v) := by
  cases hum : v.um with
  | false => exact .inl (by simp [hum])
  | true =>
    obtain ⟨-, ⟨hgsr, -⟩, hswap, -, -, hie, huser, -, -, hpc⟩ := enterEvent_entered e elr g bad v
    exact .inr (.inl
      ⟨hum, huser, hie, ⟨g, eventNumber e, hg, eventNumber_mem e, hpc⟩, hgsr.trans hum, hswap hum⟩)

theorem leaveEvent_modeStep {v : VP} (hguest : v.um = false) (hrecorded : v.recorded = true) :
    ModeStep v (leaveEvent v) := by
  cases hum : gsrUm v.gsr with
  | false => exact .inl (by simp [hum, hguest])
  | true => exact .inr (.inr ⟨hguest, hum, hrecorded, hum, rfl, rfl, by simp [hum], by simp [hum]⟩)

/-! ### The modes of all processors -/

/-- `w` is a new processor of Guest mode, or comes from a live processor of `s` by a step of the mode. -/
def ModeExplained (s : State) (w : VP) : Prop :=
  ((∀ v ∈ live s, v.vpid ≠ w.vpid) ∧ w.um = false ∧ w.ie = false) ∨
    ∃ v ∈ live s, v.vpid = w.vpid ∧ ModeStep v w

/-- The mode of every live processor of `t` is explained by `s`. -/
def ModesExplained (s t : State) : Prop := ∀ w ∈ live t, ModeExplained s w

/-- Every other processor of `t` is one of `s` in the same mode. -/
def KeepsOtherModes (s t : State) : Prop := ∀ w ∈ t.others, ∃ v ∈ s.others, v.vpid = w.vpid ∧ w.um = v.um

/-- No processor of `t` is new, and each is in the mode it had in `s`. -/
def KeepsModes (s t : State) : Prop :=
  (t.self.run ≠ .stopped → s.self.run ≠ .stopped) ∧ t.self.vpid = s.self.vpid ∧ t.self.um = s.self.um ∧
    KeepsOtherModes s t

theorem mem_live {v : VP} {s : State} : v ∈ live s ↔ (v = s.self ∧ s.self.run ≠ .stopped) ∨ v ∈ s.others := by
  unfold live
  split_ifs with h <;> simp [h]

theorem KeepsOtherModes.refl (s : State) : KeepsOtherModes s s := fun w hw => ⟨w, hw, rfl, rfl⟩

theorem KeepsModes.refl (s : State) : KeepsModes s s := ⟨id, rfl, rfl, .refl s⟩

theorem KeepsModes.trans {s t u : State} (h1 : KeepsModes s t) (h2 : KeepsModes t u) : KeepsModes s u := by
  obtain ⟨hlive1, hvpid1, hum1, hothers1⟩ := h1
  obtain ⟨hlive2, hvpid2, hum2, hothers2⟩ := h2
  refine ⟨hlive1 ∘ hlive2, hvpid2.trans hvpid1, hum2.trans hum1, fun w hw => ?_⟩
  obtain ⟨v, hv, hvw, hmode⟩ := hothers2 w hw
  obtain ⟨u, hu, huv, hmode'⟩ := hothers1 v hv
  exact ⟨u, hu, huv.trans hvw, hmode.trans hmode'⟩

/-- The seat makes a step of the mode, and the others keep theirs. -/
theorem ModesExplained.of_seat {s t : State} (hlive : t.self.run ≠ .stopped → s.self.run ≠ .stopped)
    (hvpid : t.self.vpid = s.self.vpid) (hmode : ModeStep s.self t.self) (hothers : KeepsOtherModes s t) :
    ModesExplained s t := by
  intro w hw
  rcases mem_live.1 hw with ⟨rfl, hrun⟩ | hw
  · exact .inr ⟨s.self, mem_live.2 (.inl ⟨rfl, hlive hrun⟩), hvpid.symm, hmode⟩
  · obtain ⟨v, hv, hvw, hum⟩ := hothers w hw
    exact .inr ⟨v, mem_live.2 (.inr hv), hvw, .inl hum⟩

theorem KeepsModes.explained {s t : State} (h : KeepsModes s t) : ModesExplained s t := by
  obtain ⟨hlive, hvpid, hum, hothers⟩ := h
  exact .of_seat hlive hvpid (.inl hum) hothers

/-- A state is as good an explanation as one whose seat differs only where no step of the mode looks. -/
theorem ModesExplained.of_source {s s1 t : State} (h : ModesExplained s1 t) (hothers : s1.others = s.others)
    (hrun : s1.self.run = .stopped ↔ s.self.run = .stopped) (hvpid : s1.self.vpid = s.self.vpid)
    (hmode : ∀ w, ModeStep s1.self w → ModeStep s.self w) : ModesExplained s t := by
  intro w hw
  rcases h w hw with ⟨hnew, hguest⟩ | ⟨v, hv, hvw, hstep⟩
  · refine .inl ⟨fun v hv => ?_, hguest⟩
    rcases mem_live.1 hv with ⟨rfl, hlive⟩ | hv
    · exact hvpid ▸ hnew s1.self (mem_live.2 (.inl ⟨rfl, mt hrun.1 hlive⟩))
    · exact hnew v (mem_live.2 (.inr (hothers ▸ hv)))
  · rcases mem_live.1 hv with ⟨rfl, hlive⟩ | hv
    · exact .inr ⟨s.self, mem_live.2 (.inl ⟨rfl, mt hrun.2 hlive⟩), hvpid ▸ hvw, hmode w hstep⟩
    · exact .inr ⟨v, mem_live.2 (.inr (hothers ▸ hv)), hvw, hstep⟩

/-- No step of the mode depends on cached translations or free values. -/
theorem ModesExplained.of_touched {s s1 t : State} (h : ModesExplained s1 t) (htouched : Touched s s1) :
    ModesExplained s t := by
  obtain ⟨tc, n, rfl, -⟩ := htouched
  exact h.of_source rfl Iff.rfl rfl fun _ hstep => hstep

/-! ### The seat -/

/-- Another processor in the seat: the live processors are the same. -/
theorem mem_live_focus {p : Word} {s t : State} (h : MachineInv s) (hf : focus p s = some t) (v : VP) :
    v ∈ live t ↔ v ∈ live s := by
  rcases focus_cases hf with ⟨rfl, -⟩ | ⟨-, u, hu, rfl, rfl⟩
  · exact Iff.rfl
  have hnodup : (s.others.map VP.vpid).Nodup := by
    have hlive := h.vpids_nodup
    rw [map_vpid_live] at hlive
    split_ifs at hlive
    · exact hlive
    · exact hlive.of_cons
  have hothers : v ∈ s.others ↔ v = u ∨ v ∈ s.others.filter fun q => q.vpid != u.vpid := by
    rw [List.mem_filter, bne_iff_ne]
    constructor
    · intro hv
      by_cases hvu : v.vpid = u.vpid
      · exact .inl (List.inj_on_of_nodup_map hnodup hv hu hvu)
      · exact .inr ⟨hv, hvu⟩
    · rintro (rfl | ⟨hv, -⟩)
      · exact hu
      · exact hv
  rw [mem_live, mem_live, hothers]
  by_cases hstop : s.self.run = .stopped
  · simp [hstop, h.others_live u hu]
  · simp only [hstop, if_false, List.mem_cons, ne_eq, h.others_live u hu, not_false_iff, and_true]
    tauto

theorem ModesExplained.of_focus {p : Word} {s s1 t : State} (ht : ModesExplained s1 t) (h : MachineInv s)
    (hf : focus p s = some s1) : ModesExplained s t := by
  intro w hw
  rcases ht w hw with ⟨hnew, hguest⟩ | ⟨v, hv, hvw, hstep⟩
  · exact .inl ⟨fun v hv => hnew v ((mem_live_focus h hf v).2 hv), hguest⟩
  · exact .inr ⟨v, (mem_live_focus h hf v).1 hv, hvw, hstep⟩

/-! ### Updates of processors -/

/-- The update keeps a processor's identifier, whether it lives, and its mode. -/
def KeepsMode (f : VP → VP) : Prop := ∀ v, (f v).vpid = v.vpid ∧ (f v).run = v.run ∧ (f v).um = v.um

theorem KeepsMode.map {f : VP → VP} (hf : KeepsMode f) {l : List VP} :
    ∀ w ∈ l.map f, ∃ v ∈ l, v.vpid = w.vpid ∧ w.um = v.um :=
  List.forall_mem_map.2 fun v hv => ⟨v, hv, (hf v).1.symm, (hf v).2.2⟩

theorem KeepsModes.mapLive {f : VP → VP} (hf : KeepsMode f) (s : State) : KeepsModes s (mapLive f s) := by
  obtain ⟨hvpid, hrun, hum⟩ := hf s.self
  exact ⟨fun hlive => hrun ▸ hlive, hvpid, hum, hf.map⟩

theorem KeepsModes.onVP {f : VP → VP} (hf : KeepsMode f) (p : Word) (s : State) : KeepsModes s (onVP p f s) := by
  unfold Machine.onVP
  split_ifs
  · obtain ⟨hvpid, hrun, hum⟩ := hf s.self
    exact ⟨fun hlive => hrun ▸ hlive, hvpid, hum, .refl s⟩
  · have hite : KeepsMode fun v => if v.vpid == p then f v else v := by
      intro v
      dsimp only
      split_ifs
      · exact hf v
      · exact ⟨rfl, rfl, rfl⟩
    exact ⟨id, rfl, rfl, hite.map⟩

theorem KeepsModes.worked {s t : State} (h : Worked s t) : KeepsModes s t := by
  obtain ⟨_, _, _, _, _, _, rfl, -⟩ := h
  exact .refl s

theorem KeepsModes.setTimer (t : DWord) (s : State) : KeepsModes s (setTimer t s) := by
  unfold Machine.setTimer
  split_ifs <;> exact .refl s

theorem KeepsModes.writeByte (a : Nat) (b : Byte) (s : State) : KeepsModes s (writeByte a b s) := by
  obtain ⟨m, st, he, -⟩ := writeByte_eq a b s
  rw [he]
  exact .refl s

/-- A processor that stops leaves no mode to explain. -/
theorem KeepsModes.stopVP (s : State) : KeepsModes s (stopVP s) :=
  ⟨fun hrun => absurd rfl hrun, rfl, rfl, .refl s⟩

theorem KeepsModes.stopVM (s : State) : KeepsModes s (stopVM s) :=
  ⟨fun hrun => absurd rfl hrun, rfl, rfl, List.forall_mem_nil _⟩

/-- A new processor with an identifier that no live processor has. -/
theorem ModesExplained.addVp {s t : State} (h : ModesExplained s t) {v : VP}
    (hfresh : ∀ w ∈ live s, w.vpid ≠ v.vpid) (hum : v.um = false) (hie : v.ie = false) :
    ModesExplained s { t with others := t.others ++ [v] } := by
  intro w hw
  rcases mem_live.1 hw with hself | hothers
  · exact h w (mem_live.2 (.inl hself))
  · rcases List.mem_append.1 hothers with hold | hnew
    · exact h w (mem_live.2 (.inr hold))
    · obtain rfl := List.mem_singleton.1 hnew
      exact .inl ⟨hfresh, hum, hie⟩

/-! ### Events -/

theorem takeEvent_modes (e : Event) (elr : Word) (s : State) : ModesExplained s (takeEvent e elr s) := by
  rcases takeEvent_cases e elr s with ⟨g, bad, n, hg, -, he⟩ | ⟨-, -, he⟩ | ⟨-, -, he⟩ <;> rw [he]
  · exact .of_seat (by simp) (by simp) (enterEvent_modeStep hg e elr bad) (.refl s)
  · exact (KeepsModes.stopVM s).explained
  · exact (KeepsModes.stopVP s).explained

/-- An event taken in Guest mode stays there. -/
theorem KeepsModes.takeEvent {s t : State} (h : KeepsModes s t) (hguest : s.self.um = false) (e : Event)
    (elr : Word) : KeepsModes s (takeEvent e elr t) := by
  rcases takeEvent_cases e elr t with ⟨g, bad, n, -, -, he⟩ | ⟨-, -, he⟩ | ⟨-, -, he⟩ <;> rw [he]
  · obtain ⟨hlive, hvpid, -, hothers⟩ := h
    exact ⟨by simpa using hlive, by simpa using hvpid, hguest.symm, hothers⟩
  · exact h.trans (.stopVM t)
  · exact h.trans (.stopVP t)

theorem raiseHere_modes (e : Event) (s : State) : ModesExplained s (raiseHere e s) := takeEvent_modes e _ s

theorem returnFromEvent_modes {s : State} (hguest : s.self.um = false) (hrecorded : s.self.recorded = true) :
    ModesExplained s (returnFromEvent s) :=
  .of_seat (by simp) (by simp) (leaveEvent_modeStep hguest hrecorded) (.refl s)

end Sys2Proof.Machine
end

section
/-! PROOFS. How the mode of each processor follows from the processors before: under every instruction, packet and
action of the environment. -/

namespace Sys2Proof.Machine

/-- The modes of the next state, where there is one, are explained by `s`. -/
def ResultModes (s : State) (r : Result) : Prop := ∀ t, r = .next t → ModesExplained s t

theorem ResultModes.next {s t : State} (h : ModesExplained s t) : ResultModes s (.next t) := by
  rintro _ ⟨⟩
  exact h

theorem ResultModes.refused (s : State) (r : Refusal) : ResultModes s (.refused r) := fun _ h => nomatch h

theorem ResultModes.stop (s : State) (st : Stop) : ResultModes s st.result := by
  cases st with
  | fault f => exact fun _ h => nomatch h
  | refused r => exact .refused s r

theorem ResultModes.keeps {s t : State} (h : KeepsModes s t) : ResultModes s (.next t) := .next h.explained

theorem ResultModes.done {s t : State} (h : KeepsModes s t) : ResultModes s (done t) := .keeps h

theorem ResultModes.doneWith {s t : State} {r : Word} (h : KeepsModes s t) : ResultModes s (doneWith r t) := .keeps h

/-- What the processor does after an access is explained by the state before the access. -/
theorem ResultModes.of_touched {s s1 : State} {r : Result} (h : ResultModes s1 r) (htouched : Touched s s1) :
    ResultModes s r := fun t ht => (h t ht).of_touched htouched

/-- In User mode a virtual instruction is an event, so its body may assume Guest mode. -/
theorem ResultModes.requireGuest {s : State} {body : State → Result}
    (hbody : s.self.um = false → ResultModes s (body s)) : ResultModes s (requireGuest s body) := by
  cases hum : s.self.um with
  | true =>
    rw [requireGuest_user hum]
    exact .next (raiseHere_modes _ s)
  | false =>
    rw [requireGuest_guest hum]
    exact hbody hum

/-! ### Instructions -/

theorem execVmversion_modes (s : State) : ResultModes s (execVmversion s) := by
  refine .requireGuest fun _ => ?_
  dsimp only
  split_ifs
  · exact .done (.refl s)
  · obtain ⟨v, -, n, hd⟩ := drawFrom_eq 0x700 (l := versions s.params) (List.cons_ne_nil _ _) s
    rw [hd]
    exact .done (.refl s)

theorem execVmsetvec_modes (s : State) : ResultModes s (execVmsetvec s) := by
  refine .requireGuest fun _ => ?_
  dsimp only
  split_ifs
  · exact .done (.refl s)
  · exact .done (.refl s)

/-- The only instruction that enters User mode. -/
theorem execVmrte_modes (s : State) : ResultModes s (execVmrte s) := by
  refine .requireGuest fun hguest => ?_
  split_ifs with _ hrecorded
  · exact .keeps (.stopVM s)
  · exact .next (returnFromEvent_modes hguest hrecorded)
  · exact .refused s _

/-- AFFINITY changes local enables of several processors. -/
theorem intopAffinity_modes (i : Nat) (q : Word) (s : State) : ResultModes s (intopAffinity i q s) := by
  unfold intopAffinity
  split_ifs
  · have hlen : KeepsMode fun v => { v with len := putBit v.len i (v.vpid == q) } := fun _ => ⟨rfl, rfl, rfl⟩
    exact .doneWith (.mapLive hlen s)
  · exact .doneWith (.refl s)

theorem intopGet_modes (i : Nat) (s : State) : ResultModes s (intopGet i s) := by
  unfold intopGet
  cases nextInt s s.self.len with
  | none => exact .doneWith (.refl s)
  | some n =>
    obtain ⟨asNamed, -, k, hd⟩ := drawFrom_eq true (l := [true, false]) (List.cons_ne_nil _ _) s
    rw [hd]
    dsimp only
    split_ifs <;> exact .doneWith (.refl s)

theorem execVmintop_modes (s : State) : ResultModes s (execVmintop s) := by
  refine .requireGuest fun _ => ?_
  dsimp only
  cases intOpOf (getReg 0 s) with
  | nop => exact .doneWith (.refl s)
  | affinity => exact intopAffinity_modes _ _ s
  | get => exact intopGet_modes _ s
  | peek =>
    dsimp only [intopPeek]
    split <;> exact .doneWith (.refl s)
  | globen | globdis =>
    dsimp only [intopGlobal]
    split_ifs <;> exact .doneWith (.refl s)
  | locen | locdis =>
    dsimp only [intopLocal]
    split_ifs <;> exact .doneWith (.refl s)
  | status =>
    dsimp only [intopStatus]
    split_ifs <;> exact .doneWith (.refl s)
  | post | clear =>
    dsimp only [intopPending]
    split_ifs <;> exact .doneWith (.refl s)
  | other => exact .doneWith (.refl s)

theorem execVmnewmap_modes (s : State) : ResultModes s (execVmnewmap s) := by
  refine .requireGuest fun _ => ?_
  split
  · exact .done (.refl s)
  · split_ifs
    · exact .done (.refl s)
    · exact .done (.refl s)

theorem execVmclrmap_modes (s : State) : ResultModes s (execVmclrmap s) := by
  have hpurge : KeepsMode (purge (getReg 0 s) (getReg 1 s).toNat) := fun _ => ⟨rfl, rfl, rfl⟩
  exact .requireGuest fun _ => .done (KeepsModes.mapLive hpurge s)

/-- A range operation raises, or does its cache work. -/
theorem rangeOperation_modes {s : State} {work : List (Nat × Nat) → State → State}
    (hwork : ∀ spans t, KeepsModes t (work spans t)) : ResultModes s (rangeOperation work s) := by
  unfold rangeOperation
  rcases rangeCheck_cases (getReg 1 s) (getReg 2 s).toNat s with
    ⟨spans, k, hr⟩ | ⟨va, k, hr⟩ | ⟨k, hr⟩ | ⟨st, hr⟩ <;> rw [hr]
  · exact .done (hwork spans { s with free := k })
  · exact .next (raiseHere_modes _ { s with free := k })
  · exact .next (raiseHere_modes _ { s with free := k })
  · exact .stop s st

theorem execVmcache_modes (s : State) : ResultModes s (execVmcache s) := by
  refine .requireGuest fun _ => ?_
  cases cacheOpOf (getReg 0 s) with
  | ickill | dckill | l2kill => exact .done (.refl s)
  | dccleaninva | icinva | idsync => exact rangeOperation_modes fun _ t => .refl t
  | reserved =>
    obtain ⟨v, -, n, hd⟩ := drawFrom_eq 0 (l := [0, minusOne]) (List.cons_ne_nil _ _) s
    rw [hd]
    exact .done (.refl s)

/-- The new processor has an identifier that was free. -/
theorem execVmstart_modes {s : State} (h : MachineInv s) : ResultModes s (execVmstart s) := by
  refine .requireGuest fun _ => ?_
  cases hfree : freeVpids s with
  | nil => exact .done (.refl s)
  | cons k rest =>
    obtain ⟨id, hid, n, hd⟩ := drawFrom_eq k (List.cons_ne_nil k rest) s
    dsimp only
    rw [hd]
    obtain ⟨hlt, hfresh⟩ := mem_freeVpids.1 (hfree ▸ hid)
    have hword : (BitVec.ofNat 32 id).toNat = id :=
      Nat.mod_eq_of_lt (hlt.trans (maxVp_of_paramsOk h.params_ok).2)
    have hseat : KeepsModes s (advance (setReg 0 (BitVec.ofNat 32 id) { s with free := n + newVpFree })) := .refl s
    have hnew : ∀ w ∈ live s, w.vpid ≠ BitVec.ofNat 32 id :=
      fun w hw he => hfresh w hw ((congrArg BitVec.toNat he).trans hword)
    exact .next (hseat.explained.addVp (v := newVp (BitVec.ofNat 32 id) { s with free := n }) hnew rfl rfl)

theorem exec_modes {s : State} (h : MachineInv s) (hrun : s.self.run = .running) (i : Instr) :
    ResultModes s (exec i s) := by
  cases i with
  | vmversion => exact execVmversion_modes s
  | vmrte => exact execVmrte_modes s
  | vmsetvec => exact execVmsetvec_modes s
  | vmintop => exact execVmintop_modes s
  | vmclrmap => exact execVmclrmap_modes s
  | vmnewmap => exact execVmnewmap_modes s
  | vmcache => exact execVmcache_modes s
  | vmstart => exact execVmstart_modes h
  | vmsettime =>
    apply ResultModes.requireGuest
    exact fun _ => .done (.setTimer _ s)
  | vmwait =>
    apply ResultModes.requireGuest
    exact fun _ => .keeps ⟨fun _ => by simp [hrun], rfl, rfl, .refl s⟩
  | vmstop =>
    apply ResultModes.requireGuest
    exact fun _ => .keeps (.stopVP s)
  | vmsetie | vmgetie =>
    apply ResultModes.requireGuest
    exact fun _ => .doneWith (.refl s)
  | vmgettime | vmyield | vmvpid | vmsetregs | vmgetregs =>
    apply ResultModes.requireGuest
    exact fun _ => .done (.refl s)
  | trap1Reserved imm => exact .requireGuest (body := fun _ => .refused _) fun _ => .refused s _
  | trap0 imm => exact .next (takeEvent_modes _ _ s)

/-! ### Packets -/

/-- A base packet that raises takes its event in the state it found, and one that completes keeps the mode. -/
theorem baseProgram_modes (b : BasePacket) (s : State) : ResultModes s (baseProgram b s) := by
  have hworked := runPacket_worked b s
  unfold baseProgram
  revert hworked
  cases runPacket b s with
  | ok target t => exact fun hworked => .keeps (KeepsModes.worked (t := t) hworked)
  | raise e t => exact fun _ => .next (raiseHere_modes e (abandon s t))
  | stop st => exact fun _ => .stop s st

theorem basePacket_modes (w : Word) (s : State) : ResultModes s (basePacket w s) := by
  have htouched := packetWords_touched w s
  unfold basePacket
  revert htouched
  cases packetWords w s with
  | ok ws t => exact fun htouched => (baseProgram_modes _ t).of_touched htouched
  | raise e t => exact fun _ => .next (raiseHere_modes e (abandon s t))
  | stop st => exact fun _ => .stop s st

theorem runWord_modes {s : State} (h : MachineInv s) (hrun : s.self.run = .running) (bytes : List Byte) :
    ResultModes s (runWord bytes s) := by
  have hinvalid : ResultModes s (.next (raiseHere (.general .invalidPacket) s)) := .next (raiseHere_modes _ s)
  unfold runWord
  split
  · split
    · dsimp only
      split_ifs
      · exact exec_modes h hrun _
      · exact basePacket_modes _ s
      · exact hinvalid
    · exact hinvalid
  · exact basePacket_modes _ s
  · exact hinvalid

theorem packet_modes {s : State} (h : MachineInv s) (hrun : s.self.run = .running) : ResultModes s (packet s) := by
  have htouched := fetch_touched s.self.pc s
  unfold packet
  revert htouched
  cases fetch s.self.pc s with
  | ok bytes t =>
    intro htouched
    have hworked := Worked.touched htouched
    exact (runWord_modes (h.worked hworked) (hworked.run.trans hrun) bytes).of_touched htouched
  | raise e t => exact fun htouched => .next ((raiseHere_modes e t).of_touched htouched)
  | stop st => exact fun _ => .stop s st

/-! ### The environment's actions (60_exceptions.md R280) -/

theorem machineCheck_modes {s : State} (hlive : s.self.run ≠ .stopped) (c : McCause) :
    ModesExplained s (machineCheck c s) := by
  have hevent := takeEvent_modes (.machineCheck c) s.self.pc { s with self := { s.self with run := .running } }
  exact hevent.of_source rfl (iff_of_false nofun hlive) rfl fun _ hstep => hstep

/-- A processor waits in Guest mode, and an interrupt that it takes when it wakes leaves it there. -/
theorem KeepsModes.wake {s : State} (hlive : s.self.run ≠ .stopped) (hguest : s.self.um = false) :
    KeepsModes s (wake s) := by
  unfold Machine.wake
  cases eligibles s s.self.len with
  | nil => exact .refl s
  | cons n rest =>
    obtain ⟨pick, -, k, hd⟩ := drawFrom_eq n (List.cons_ne_nil n rest) s
    dsimp only
    rw [hd]
    have hwoken : KeepsModes s (takeInterrupt n
        (setReg 0 (BitVec.ofNat 32 pick) { s with self := { s.self with run := .running }, free := k })) :=
      ⟨fun _ => hlive, rfl, rfl, .refl s⟩
    split_ifs
    · exact hwoken.takeEvent hguest _ _
    · exact hwoken

theorem um_of_wakeable {s : State} (h : MachineInv s) (hw : wakeable s = true) : s.self.um = false := by
  simp only [wakeable, Bool.and_eq_true, beq_iff_eq] at hw
  obtain ⟨-, -, -, -, -, hwait⟩ := h.vpOk_self
  exact hwait hw.1

theorem fillCached_keepsModes (p va : Word) (s : State) : KeepsModes s (fillCached p va s) := by
  refine .onVP (fun v => ?_) p s
  split <;> exact ⟨rfl, rfl, rfl⟩

theorem beginWalk_keepsModes (p va : Word) (s : State) : KeepsModes s (beginWalk p va s) := by
  refine .onVP (fun v => ?_) p s
  split <;> exact ⟨rfl, rfl, rfl⟩

theorem endWalkOf_keepsMode (k : Nat) : KeepsMode (endWalkOf k) := by
  intro v
  unfold endWalkOf
  split <;> exact ⟨rfl, rfl, rfl⟩

theorem tick_keepsModes (p : Word) (d : DWord) (s : State) : KeepsModes s (tick p d s) := by
  unfold tick
  split_ifs
  · exact .onVP (f := fun v => { v with timer := v.timer + d }) (fun _ => ⟨rfl, rfl, rfl⟩) p s
  · exact .refl s

/-- An action on behalf of a processor puts it into the seat, if it lives, and acts there. -/
theorem act_modes {s : State} (h : MachineInv s) (a : Action) : ResultModes s (act a s) := by
  have hnothing : ResultModes s (.next s) := .keeps (.refl s)
  cases a with
  | run p =>
    dsimp only [act]
    cases hf : focus p s with
    | none => exact hnothing
    | some s1 =>
      dsimp only
      split_ifs with hrun
      · exact fun t ht => (packet_modes (h.focus hf) hrun t ht).of_focus h hf
      · exact hnothing
  | arrive n =>
    dsimp only [act]
    split_ifs
    · exact .keeps (.refl s)
    · exact hnothing
  | deliver p =>
    dsimp only [act]
    cases hf : focus p s with
    | none => exact hnothing
    | some s1 =>
      dsimp only
      split
      · exact hnothing
      · rename_i n _
        have hdeliver : ModesExplained s1 (deliver n s1) := takeEvent_modes _ _ (takeInterrupt n s1)
        exact .next (hdeliver.of_focus h hf)
  | wake p =>
    dsimp only [act]
    cases hf : focus p s with
    | none => exact hnothing
    | some s1 =>
      dsimp only
      split_ifs with hw
      · have hwake := KeepsModes.wake (h.focus_live hf) (um_of_wakeable (h.focus hf) hw)
        exact .next (hwake.explained.of_focus h hf)
      · exact hnothing
  | machineCheck p c =>
    dsimp only [act]
    cases hf : focus p s with
    | none => exact hnothing
    | some s1 =>
      dsimp only
      split_ifs
      · exact .next ((machineCheck_modes (h.focus_live hf) c).of_focus h hf)
      · exact hnothing
  | tick p d => exact .keeps (tick_keepsModes p d s)
  | dropCached p k =>
    have herase : KeepsMode fun v => { v with tc := v.tc.eraseIdx k } := fun _ => ⟨rfl, rfl, rfl⟩
    exact .keeps (.onVP herase p s)
  | fillCached p va => exact .keeps (fillCached_keepsModes p va s)
  | beginWalk p va => exact .keeps (beginWalk_keepsModes p va s)
  | finishWalk p k => exact .keeps (.onVP (endWalkOf_keepsMode k) p s)
  | stopVM => exact .keeps (.stopVM s)
  | deviceWrite la b =>
    dsimp only [act]
    split_ifs
    · exact .keeps (.writeByte _ b s)
    · exact hnothing

theorem machineStep_modes {s : State} (h : MachineInv s) : ResultModes s (machineStep s) := by
  unfold machineStep
  split_ifs
  · exact fun _ hfault => nomatch hfault
  · exact .refused s _
  · split
    · exact act_modes (s := { s with agenda := _ }) h.withRest _
    · split
      · exact act_modes h _
      · exact fun _ hfault => nomatch hfault

/-- Settles O56: events enter Guest mode, `vmrte` enters User mode, `vmstart` makes a processor of Guest mode, and
every other operation keeps the modes. -/
theorem modeChangesOnlyByEventsAndVmrte : Obligations.ModeChangesOnlyByEventsAndVmrte :=
  fun _ t h hstep => machineStep_modes h t hstep

end Sys2Proof.Machine
end

section
/-! PROOFS. Rules for the interrupt controller: its bits, the next interrupt, and how an operation completes
(10_state.md R33 to R36, 41_interrupt_management.md R170, R184). -/

namespace Sys2Proof.Machine

/-! ### Frames of the fields that the operations write -/

/-- `GEN <- m`. -/
theorem OnlyChanges.withGen (s : State) (m : Nat) : OnlyChanges [.gen] s { s with gen := m } := by
  intro p hp
  cases p with
  | gen => exact absurd (by decide) hp
  | memory => exact fun _ => rfl
  | _ => rfl

/-- `PENDING <- m`. -/
theorem OnlyChanges.withPending (s : State) (m : Nat) : OnlyChanges [.pending] s { s with pending := m } := by
  intro p hp
  cases p with
  | pending => exact absurd (by decide) hp
  | memory => exact fun _ => rfl
  | _ => rfl

/-- `LEN <- m` of the executing processor. -/
theorem OnlyChanges.withLen (s : State) (m : Nat) :
    OnlyChanges [.len] s { s with self := { s.self with len := m } } := by
  intro p hp
  cases p with
  | len => exact absurd (by decide) hp
  | memory => exact fun _ => rfl
  | _ => rfl

/-- `IE <- b`. -/
theorem OnlyChanges.withIe (s : State) (b : Bool) :
    OnlyChanges [.ie] s { s with self := { s.self with ie := b } } := by
  intro p hp
  cases p with
  | ie => exact absurd (by decide) hp
  | memory => exact fun _ => rfl
  | _ => rfl

/-- `LEN` of every processor. -/
theorem OnlyChanges.mapLen (f : VP → Nat) (s : State) :
    OnlyChanges [.len, .others] s (mapLive (fun v => { v with len := f v }) s) := by
  intro p hp
  cases p with
  | len | others => exact absurd (by decide) hp
  | memory => exact fun _ => rfl
  | _ => rfl

/-- An operation that leaves a result in R0 and completes. -/
theorem OnlyChanges.withResult {ps : List Part} {s t : State} (h : OnlyChanges ps s t) (r : Word) :
    OnlyChanges (ps ++ [.reg 0, .pc]) s (Machine.advance (Machine.setReg 0 r t)) :=
  ((h.mono fun _ hp => List.mem_append_left _ hp).setReg 0 r (by simp)).advance (by simp)

/-! ### Processors and interrupts -/

theorem liveVpid_iff {q : Word} {s : State} : liveVpid q s = true ↔ ∃ v ∈ live s, v.vpid = q := by
  simp [liveVpid]

theorem validInt_iff {s : State} {i : Nat} : validInt s i = true ↔ i < s.params.numInt := by
  simp [validInt]

theorem eligible_iff {s : State} {len i : Nat} :
    eligible s len i = true ↔
      i < s.params.numInt ∧ hasBit s.pending i = true ∧ hasBit s.gen i = true ∧ hasBit len i = true := by
  simp [eligible, validInt_iff, and_assoc]

theorem nextInt_eq_some_iff {s : State} {len n : Nat} :
    nextInt s len = some n ↔ eligible s len n = true ∧ ∀ m, m < n → eligible s len m = false := by
  simp only [nextInt, List.find?_range_eq_some, List.mem_range, Bool.not_eq_true']
  exact ⟨fun ⟨hn, _, hleast⟩ => ⟨hn, hleast⟩, fun ⟨hn, hleast⟩ => ⟨hn, lt_of_eligible hn, hleast⟩⟩

theorem nextInt_eq_none_iff {s : State} {len : Nat} :
    nextInt s len = none ↔ ∀ n, eligible s len n = false := by
  simp only [nextInt, List.find?_range_eq_none, Bool.not_eq_true']
  refine ⟨fun h n => ?_, fun h n _ => h n⟩
  by_contra hn
  have helig : eligible s len n = true := by simpa using hn
  exact hn (h n (lt_of_eligible helig))

/-! ### How an operation completes -/

/-- An operation that only reports: R0 holds the result. -/
theorem doneWith_reports (r : Word) (s : State) :
    ∃ t, doneWith r s = .next t ∧ t.self.pc = s.self.pc + 4 ∧ OnlyChanges [.reg 0, .pc] s t ∧
      getReg 0 t = r :=
  ⟨_, rfl, rfl, (OnlyChanges.refl [] s).withResult r, by simp⟩

/-- 41_interrupt_management.md R184: the failure of an operation. -/
theorem intopFail_completes (s : State) :
    ∃ t, intopFail s = .next t ∧ getReg 0 t ≠ 0 ∧ t.self.pc = s.self.pc + 4 ∧
      OnlyChanges [.reg 0, .pc] s t :=
  ⟨advance (setReg 0 (drawFail s).1 (drawFail s).2), rfl, by simpa using drawFail_ne_zero s, rfl,
    ((OnlyChanges.refl [] s).free (s.free + 1)).withResult _⟩

theorem intopGlobal_valid {s : State} {i : Nat} (hi : i < s.params.numInt) (b : Bool) :
    intopGlobal i b s = doneWith 0 { s with gen := putBit s.gen i b } := if_pos (validInt_iff.2 hi)

theorem intopGlobal_invalid {s : State} {i : Nat} (hi : s.params.numInt ≤ i) (b : Bool) :
    intopGlobal i b s = intopFail s := if_neg (validInt_iff.not.2 hi.not_gt)

theorem intopLocal_valid {s : State} {i : Nat} (hi : i < s.params.numInt) (b : Bool) :
    intopLocal i b s = doneWith 0 { s with self := { s.self with len := putBit s.self.len i b } } :=
  if_pos (validInt_iff.2 hi)

theorem intopLocal_invalid {s : State} {i : Nat} (hi : s.params.numInt ≤ i) (b : Bool) :
    intopLocal i b s = intopFail s := if_neg (validInt_iff.not.2 hi.not_gt)

theorem intopPending_valid {s : State} {i : Nat} (hi : i < s.params.numInt) (b : Bool) :
    intopPending i b s = doneWith 0 { s with pending := putBit s.pending i b } := if_pos (validInt_iff.2 hi)

theorem intopPending_invalid {s : State} {i : Nat} (hi : s.params.numInt ≤ i) (b : Bool) :
    intopPending i b s = intopFail s := if_neg (validInt_iff.not.2 hi.not_gt)

theorem intopAffinity_valid {s : State} {i : Nat} {q : Word} (hi : i < s.params.numInt)
    (hq : ∃ v ∈ live s, v.vpid = q) :
    intopAffinity i q s =
      doneWith 0 (mapLive (fun v => { v with len := putBit v.len i (v.vpid == q) }) s) :=
  if_pos (by rw [validInt_iff.2 hi, liveVpid_iff.2 hq]; rfl)

theorem intopAffinity_invalid {s : State} {i : Nat} {q : Word}
    (h : s.params.numInt ≤ i ∨ ∀ v ∈ live s, v.vpid ≠ q) : intopAffinity i q s = intopFail s := by
  refine if_neg fun hok => ?_
  obtain ⟨hi, hq⟩ := Bool.and_eq_true_iff.1 hok
  obtain ⟨v, hv, hvq⟩ := liveVpid_iff.1 hq
  rcases h with hge | hnone
  · exact (validInt_iff.1 hi).not_ge hge
  · exact hnone v hv hvq

theorem intopStatus_valid {s : State} {i : Nat} (hi : i < s.params.numInt) :
    intopStatus i s = doneWith (statusWord (hasBit s.pending i) (hasBit s.self.len i) (hasBit s.gen i)) s :=
  if_pos (validInt_iff.2 hi)

theorem intopStatus_invalid {s : State} {i : Nat} (hi : s.params.numInt ≤ i) :
    intopStatus i s = doneWith minusOne s := if_neg (validInt_iff.not.2 hi.not_gt)

/-- Everything GET can do where an interrupt is eligible, in either reading of 41_interrupt_management.md R176:
it takes the next interrupt or the eligible one that R1 names, or it reports that the named one is not eligible. -/
theorem intopGet_cases {s : State} {n : Nat} (hn : nextInt s s.self.len = some n) (i : Nat) :
    ∃ m, (∃ k, (k = n ∨ (k = i ∧ eligible s s.self.len k = true)) ∧
        intopGet i s = doneWith 0 (takeInterrupt k { s with free := m })) ∨
      (i ≠ n ∧ eligible s s.self.len i = false ∧ intopGet i s = doneWith minusOne { s with free := m }) := by
  unfold intopGet
  simp only [hn]
  by_cases hin : i = n
  · exact ⟨s.free, .inl ⟨n, .inl rfl, if_pos hin⟩⟩
  obtain ⟨asNamed, -, m, hd⟩ := drawFrom_eq true (l := [true, false]) (List.cons_ne_nil _ _) s
  rw [if_neg hin, hd]
  refine ⟨m, ?_⟩
  cases asNamed with
  | false => exact .inl ⟨n, .inl rfl, rfl⟩
  | true =>
    cases helig : eligible s s.self.len i with
    | true => exact .inl ⟨i, .inr ⟨rfl, helig⟩, if_pos helig⟩
    | false => exact .inr ⟨hin, rfl, if_neg (Bool.eq_false_iff.1 helig)⟩

/-! ### Operands and results -/

/-- 41_interrupt_management.md R181. -/
theorem intOpOf_of_gt {r0 : Word} (h : 10 < r0.toNat) : intOpOf r0 = .other := by
  unfold intOpOf
  split
  case h_12 => rfl
  all_goals omega

/-- Writing back what a register holds. -/
theorem setReg_of_getReg_eq {i : Fin 32} {v : Word} {s : State} (h : getReg i s = v) : setReg i v s = s := by
  subst h
  simp [setReg, getReg]

theorem bitWord_eq (b : Bool) : bitWord b = if b then 1#32 else 0#32 := by
  cases b <;> rfl

/-- The STATUS word has three bits (41_interrupt_management.md R178). -/
theorem statusWord_bits (pending len gen : Bool) :
    (statusWord pending len gen).toNat < 8 ∧ (statusWord pending len gen).getLsbD 0 = pending ∧
      (statusWord pending len gen).getLsbD 1 = len ∧ (statusWord pending len gen).getLsbD 2 = gen := by
  revert pending len gen
  decide

end Sys2Proof.Machine
end

section
/-! PROOFS. The instructions of interrupt management: vmintop, vmgetie, vmsetie
(41_interrupt_management.md R170 to R184). -/

namespace Sys2Proof.Machine

/-! ### vmintop -/

/-- Settles O19: `nextInt` searches the valid numbers in rising order. -/
theorem nextInterruptIsTheLeastEligible : Obligations.NextInterruptIsTheLeastEligible :=
  fun _ _ => ⟨fun _ => nextInt_eq_some_iff, nextInt_eq_none_iff, fun _ => eligible_iff⟩

/-- Settles O16: GLOBEN and GLOBDIS write one bit of `GEN`, and eligibility asks for that bit. -/
theorem vmintopGloballyEnablesAndDisables : Obligations.VmintopGloballyEnablesAndDisables := by
  intro s b hguest hop
  have hrun : exec .vmintop s = intopGlobal (getReg 1 s).toNat b s := by
    rw [exec_vmintop, execVmintop_guest hguest, hop]
    cases b <;> rfl
  rw [hrun]
  refine ⟨fun hi => ?_, fun hi => ?_⟩
  · rw [intopGlobal_valid hi]
    refine ⟨_, rfl, by simp, rfl, by simp, fun j hj => by simp [hj], fun hb hpending len hlen => ?_,
      fun hb len => ?_, (OnlyChanges.withGen s _).withResult 0⟩
    · exact eligible_iff.2 ⟨hi, hpending, by simp [hb], hlen⟩
    · simp [eligible, hb]
  · rw [intopGlobal_invalid hi]
    exact intopFail_completes s

/-- Settles O17: LOCEN and LOCDIS write one bit of the executing processor's `LEN`. -/
theorem vmintopLocallyEnablesAndDisables : Obligations.VmintopLocallyEnablesAndDisables := by
  intro s b hguest hop
  have hrun : exec .vmintop s = intopLocal (getReg 1 s).toNat b s := by
    rw [exec_vmintop, execVmintop_guest hguest, hop]
    cases b <;> rfl
  rw [hrun]
  refine ⟨fun hi => ?_, fun hi => ?_⟩
  · rw [intopLocal_valid hi]
    exact ⟨_, rfl, by simp, rfl, by simp, fun j hj => by simp [hj], (OnlyChanges.withLen s _).withResult 0⟩
  · rw [intopLocal_invalid hi]
    exact intopFail_completes s

/-- Settles O22: POST and CLEAR write one bit of `PENDING`, and eligibility asks for that bit. -/
theorem vmintopPostsAndClears : Obligations.VmintopPostsAndClears := by
  intro s b hguest hop
  have hrun : exec .vmintop s = intopPending (getReg 1 s).toNat b s := by
    rw [exec_vmintop, execVmintop_guest hguest, hop]
    cases b <;> rfl
  rw [hrun]
  refine ⟨fun hi => ?_, fun hi => ?_⟩
  · rw [intopPending_valid hi]
    refine ⟨_, rfl, by simp, rfl, by simp, fun j hj => by simp [hj], fun hb hgen len hlen => ?_,
      (OnlyChanges.withPending s _).withResult 0⟩
    exact eligible_iff.2 ⟨hi, by simp [hb], hgen, hlen⟩
  · rw [intopPending_invalid hi]
    exact intopFail_completes s

/-- Settles O18: AFFINITY writes the same bit of every processor's `LEN`, set for the one that R2 names. -/
theorem vmintopAffinityEnablesExactlyOneProcessor : Obligations.VmintopAffinityEnablesExactlyOneProcessor := by
  intro s hguest hop
  have hrun : exec .vmintop s = intopAffinity (getReg 1 s).toNat (getReg 2 s) s := by
    rw [exec_vmintop, execVmintop_guest hguest, hop]
    rfl
  rw [hrun]
  refine ⟨fun ⟨hi, hq⟩ => ?_, fun hinvalid => ?_⟩
  · rw [intopAffinity_valid hi hq]
    refine ⟨_, rfl, by simp, rfl, by simp, fun j hj => by simp [hj], ?_,
      (OnlyChanges.mapLen _ s).withResult 0⟩
    refine List.forall₂_map_right_iff.2 (List.forall₂_same.2 fun v _ => ?_)
    exact ⟨rfl, by simp, fun j hj => by simp [hj]⟩
  · rw [intopAffinity_invalid hinvalid]
    exact intopFail_completes s

/-- Settles O20: the outcomes of `intopGet_cases`. -/
theorem vmintopGetTakesAnEligibleInterrupt : Obligations.VmintopGetTakesAnEligibleInterrupt := by
  intro s hguest hop
  have hrun : exec .vmintop s = intopGet (getReg 1 s).toNat s := by
    rw [exec_vmintop, execVmintop_guest hguest, hop]
    rfl
  rw [hrun]
  refine ⟨fun hnone => ?_, fun n hn => ?_⟩
  · have hminus : intopGet (getReg 1 s).toNat s = doneWith minusOne s := by rw [intopGet, hnone]
    obtain ⟨t, ht, hpc, hframe, hresult⟩ := doneWith_reports minusOne s
    exact ⟨t, hminus.trans ht, hresult, hpc, hframe⟩
  · obtain ⟨m, ⟨k, hk, htake⟩ | ⟨hother, hineligible, hminus⟩⟩ := intopGet_cases hn (getReg 1 s).toNat
    · have hframe : OnlyChanges [.pending, .gen] s (takeInterrupt k { s with free := m }) :=
        ((OnlyChanges.refl _ s).free m).takeInterrupt k (by simp) (by simp)
      refine ⟨_, htake, rfl, hframe.withResult 0, .inl ⟨k, hk, by simp, by simp, by simp, fun j hj => ?_⟩⟩
      simp [hj]
    · obtain ⟨t, ht, hpc, hframe, hresult⟩ := doneWith_reports minusOne { s with free := m }
      have hall : OnlyChanges [.reg 0, .pc] s t := ((OnlyChanges.refl _ s).free m).trans hframe
      exact ⟨t, hminus.trans ht, hpc, hall.mono (by simp),
        .inr ⟨hother, hineligible, hresult, hall .pending (by simp), hall .gen (by simp)⟩⟩

/-- Settles O21: PEEK reports `nextInt`, and STATUS the three bits of a valid interrupt. -/
theorem vmintopPeekAndStatusReport : Obligations.VmintopPeekAndStatusReport := by
  intro s hguest
  refine ⟨fun hop => ?_, fun hop => ?_⟩
  · have hrun : exec .vmintop s = intopPeek s := by
      rw [exec_vmintop, execVmintop_guest hguest, hop]
      rfl
    rw [hrun, intopPeek]
    cases nextInt s s.self.len with
    | none => exact doneWith_reports minusOne s
    | some n => exact doneWith_reports _ s
  · have hrun : exec .vmintop s = intopStatus (getReg 1 s).toNat s := by
      rw [exec_vmintop, execVmintop_guest hguest, hop]
      rfl
    rw [hrun]
    rcases lt_or_ge (getReg 1 s).toNat s.params.numInt with hi | hi
    · rw [intopStatus_valid hi]
      obtain ⟨t, ht, hpc, hframe, hresult⟩ := doneWith_reports _ s
      exact ⟨t, ht, hpc, hframe, fun _ => hresult ▸ statusWord_bits _ _ _, fun hge => absurd hi hge.not_gt⟩
    · rw [intopStatus_invalid hi]
      obtain ⟨t, ht, hpc, hframe, hresult⟩ := doneWith_reports minusOne s
      exact ⟨t, ht, hpc, hframe, fun hlt => absurd hlt hi.not_gt, fun _ => hresult⟩

/-- Settles O23: NOP writes to R0 the 0 that it holds, and every other number fails. -/
theorem vmintopNopAndUnlistedOperations : Obligations.VmintopNopAndUnlistedOperations := by
  intro s hguest
  rw [exec_vmintop, execVmintop_guest hguest]
  refine ⟨fun hnop => ?_, fun hop => ?_⟩
  · rw [hnop]
    have hsame : doneWith 0 s = done s := congrArg done (setReg_of_getReg_eq hnop)
    exact ⟨_, hsame, hnop, rfl, (OnlyChanges.refl _ s).advance (by simp)⟩
  · rw [intOpOf_of_gt hop]
    exact intopFail_completes s

/-! ### vmgetie and vmsetie -/

/-- Settles O24: the word is a row of the `trap1` table, and the instruction is its privilege check and, behind it,
the report of `IE`. -/
theorem vmgetieReturnsTheInterruptEnable : Obligations.VmgetieReturnsTheInterruptEnable := by
  obtain ⟨hencode, hdecode⟩ := trap1TableRowsMatchUnderTheMask.1 .vmgetie 0x54800010#32 (by decide)
  refine ⟨hencode, hdecode, fun s => ⟨fun hguest => ?_, fun huser => requireGuest_user huser _⟩⟩
  rw [exec_vmgetie, execVmgetie_guest hguest, ← bitWord_eq]
  obtain ⟨t, ht, hpc, hframe, hresult⟩ := doneWith_reports (bitWord s.self.ie) s
  exact ⟨t, ht, hresult, hpc, hframe⟩

/-- Settles O25: `IE` is written from bit 0 of R0, and the old one reported. -/
theorem vmsetieSetsAndReturnsTheInterruptEnable : Obligations.VmsetieSetsAndReturnsTheInterruptEnable := by
  intro s hguest
  rw [exec_vmsetie, execVmsetie_guest hguest, ← bitWord_eq]
  exact ⟨_, rfl, Nat.testBit_zero _, by simp, rfl, (OnlyChanges.withIe s _).withResult _⟩

end Sys2Proof.Machine
end

section
/-! PROOFS. trap0 (42_trap0_and_base_isa.md R200). -/

namespace Sys2Proof.Machine

@[simp] theorem live_stopVP (s : State) : live (stopVP s) = s.others := rfl

theorem OnlyChanges.stopVP (s : State) : OnlyChanges [.run, .stale] s (stopVP s) := by
  intro p hp
  cases p with
  | run | stale => exact absurd (by decide) hp
  | memory => exact fun _ => rfl
  | _ => rfl

/-- Without a vector table an event is a stop, of the whole machine only for a machine check (60_exceptions.md
R286). -/
theorem takeEvent_unconfigured {s : State} (hg : s.self.gevb = none) (e : Event) (elr : Word) :
    takeEvent e elr s = if isMachineCheck e then stopVM s else stopVP s := by
  rw [takeEvent, hg]

theorem EnteredEvent.gsrCause {e : Event} {elr g : Word} {v w : VP} (h : EnteredEvent e elr g v w) :
    gsrCause w.gsr = eventCause e := by
  obtain ⟨-, ⟨-, -, hcause, -⟩, -⟩ := h
  exact hcause

theorem EnteredEvent.pc {e : Event} {elr g : Word} {v w : VP} (h : EnteredEvent e elr g v w) :
    w.pc = vectorAddress g (eventNumber e) := by
  obtain ⟨-, -, -, -, -, -, -, -, -, hpc⟩ := h
  exact hpc

/-- Settles O12: the entry sequence with the event number and the cause of `trap0`, or the stop of the processor. -/
theorem trap0TakesEventFive : Obligations.Trap0TakesEventFive := by
  intro imm s
  refine ⟨fun g hg => ?_, fun hnone => ?_⟩
  · obtain ⟨hentered, -, hframe⟩ := takeEvent_entered (.trap0 imm) (nextPc s) hg
    exact ⟨_, rfl, hentered, hentered.gsrCause, hentered.pc, hframe⟩
  · exact ⟨_, congrArg Host.Outcome.next (takeEvent_unconfigured hnone _ _), live_stopVP s, .stopVP s⟩

end Sys2Proof.Machine
end

section
/-! PROOFS. A step with no action of the environment before it is the next packet of the executing processor
(42_trap0_and_base_isa.md R201, 60_exceptions.md R280). -/

namespace Sys2Proof.Machine

theorem focus_self {s : State} (hlive : s.self.run ≠ .stopped) : focus s.self.vpid s = some s := by
  simp [focus, selfIs, hlive]

/-- A processor that runs is the first that can step when it has the seat. -/
theorem defaultAction_running {s : State} (hrun : s.self.run = .running) :
    defaultAction s = some (.run s.self.vpid) := by
  simp [defaultAction, live, canStep, hrun]

theorem act_run_self {s : State} (hrun : s.self.run = .running) : act (.run s.self.vpid) s = packet s := by
  have hseat : focus s.self.vpid s = some s := focus_self (by simp [hrun])
  simp only [act, hseat, hrun, if_true]

theorem step_eq_packet {s : State} (hrun : s.self.run = .running) (hver : s.ver = 0x700#32)
    (hagenda : s.agenda = []) : step s = packet s := by
  have hlive : (live s).isEmpty = false := by simp [live, hrun]
  simp [step, machineStep, hlive, hver, hagenda, defaultAction_running hrun, act_run_self hrun]

/-- What the decoder accepts is well formed. -/
theorem decode_wf {b0 b1 b2 b3 : Byte} {rest rest' : List Byte} {i : Instr}
    (h : decode (b0 :: b1 :: b2 :: b3 :: rest) = .ok (i, rest')) : i.wf = true := by
  rw [decode] at h
  cases hword : decodeWord (wordOfBytes b0 b1 b2 b3) with
  | error e => simp [hword] at h
  | ok j =>
    obtain ⟨rfl, -⟩ : j = i ∧ rest = rest' := by simpa [hword] using h
    rcases decodeWord_eq_ok_iff.1 hword with ⟨-, rfl⟩ | ⟨-, -, rfl⟩
    · exact trap1Instr_wf _
    · rfl

theorem runWord_solo {b0 b1 b2 b3 : Byte} {rest rest' : List Byte} {i : Instr}
    (hdecode : decode (b0 :: b1 :: b2 :: b3 :: rest) = .ok (i, rest'))
    (hsolo : soloParse (wordOfBytes b0 b1 b2 b3) = true) (s : State) :
    runWord (b0 :: b1 :: b2 :: b3 :: rest) s = exec i s := by
  simp only [runWord, hdecode, hsolo, if_true]

theorem runWord_base {bytes : List Byte} {w : Word} (hdecode : decode bytes = .error (.baseInstruction w))
    (s : State) : runWord bytes s = basePacket w s := by
  rw [runWord, hdecode]

/-- A fetch only keeps translations and reads free values before its packet runs. -/
theorem packet_of_fetch {bytes : List Byte} {s s1 : State} (hfetch : fetch s.self.pc s = .ok bytes s1) :
    packet s = runWord bytes s1 ∧ OnlyChanges [.tc] s s1 := by
  have htouched := fetch_touched s.self.pc s
  rw [hfetch] at htouched
  exact ⟨by rw [packet, hfetch], .touched htouched⟩

theorem packet_of_fault {e : Event} {s s1 : State} (hfetch : fetch s.self.pc s = .raise e s1) :
    packet s = .next (raiseHere e s1) ∧ OnlyChanges [.tc] s s1 := by
  have htouched := fetch_touched s.self.pc s
  rw [hfetch] at htouched
  exact ⟨by rw [packet, hfetch], .touched htouched⟩

/-- Settles O52: the step is the packet at `pc`, and what its fetch answers decides between an instruction of this
model, a base packet and an event. -/
theorem stepRunsTheDecodedInstruction : Obligations.StepRunsTheDecodedInstruction := by
  intro s s1 hrun hver hagenda
  rw [step_eq_packet hrun hver hagenda]
  refine ⟨fun b0 b1 b2 b3 rest i hfetch hdecode hsolo => ?_, fun bs w hfetch hdecode => ?_, fun e hfetch => ?_⟩
  · obtain ⟨hpacket, hframe⟩ := packet_of_fetch hfetch
    exact ⟨decode_wf hdecode, hpacket.trans (runWord_solo hdecode hsolo s1), hframe⟩
  · obtain ⟨hpacket, hframe⟩ := packet_of_fetch hfetch
    exact ⟨hpacket.trans (runWord_base hdecode s1), hframe⟩
  · exact packet_of_fault hfetch

end Sys2Proof.Machine
end

section
/-! PROOFS. What no instruction of the model reaches: memory, the parameters, the environment's actions, and of other
processors all but cached translations and local enables (42_trap0_and_base_isa.md R207, 10_state.md R21, R41). -/

namespace Sys2Proof.Machine

/-! ### What every next state of a result meets -/

/-- The next state, where there is one, meets `P`. -/
def Leads (P : State → Prop) (r : Result) : Prop := ∀ t, r = .next t → P t

theorem Leads.next {P : State → Prop} {t : State} (h : P t) : Leads P (.next t) := by
  rintro _ ⟨⟩
  exact h

theorem Leads.refused {P : State → Prop} (r : Refusal) : Leads P (.refused r) := fun _ h => nomatch h

theorem Leads.stop {P : State → Prop} (st : Stop) : Leads P st.result := by
  cases st with
  | fault f => exact fun _ h => nomatch h
  | refused r => exact .refused r

theorem Leads.done {P : State → Prop} {t : State} (h : P (advance t)) : Leads P (done t) := .next h

theorem Leads.doneWith {P : State → Prop} {t : State} {r : Word} (h : P (advance (setReg 0 r t))) :
    Leads P (doneWith r t) := .next h

/-- A virtual instruction is a privilege violation or its body. -/
theorem Leads.requireGuest {P : State → Prop} {s : State} {body : State → Result}
    (hraise : P (raiseHere (.general .privilege) s)) (hbody : Leads P (body s)) :
    Leads P (Machine.requireGuest s body) := by
  rw [requireGuest_eq]
  split_ifs
  · exact .next hraise
  · exact hbody

/-! ### The reach of an instruction -/

/-- `w` may stand among the other processors after instruction `i`: it stood there before, and only its cached
translations and local enables differ, or `vmstart` created it. -/
def OtherAllowed (i : Instr) (s : State) (w : VP) : Prop :=
  (∃ v ∈ s.others, w = { v with tc := w.tc, len := w.len }) ∨ (i = .vmstart ∧ w.run = .running ∧ w.um = false)

/-- Instruction `i` may lead from `s` to `t` as far as memory, the parameters, the agenda, the executing processor's
identifier and other base-architecture state, and the other processors are concerned. -/
def Confined (i : Instr) (s t : State) : Prop :=
  t.lm = s.lm ∧ t.params = s.params ∧ t.agenda = s.agenda ∧ t.self.vpid = s.self.vpid ∧
    t.self.other = s.self.other ∧ ∀ w ∈ t.others, OtherAllowed i s w

section

variable {i : Instr}

theorem OtherAllowed.of_mem {s : State} {w : VP} (h : w ∈ s.others) : OtherAllowed i s w := .inl ⟨w, h, rfl⟩

theorem Confined.refl (s : State) : Confined i s s := ⟨rfl, rfl, rfl, rfl, rfl, fun _ => .of_mem⟩

/-- The processor in the seat may change but for its identifier and its other base-architecture state. -/
theorem Confined.withSelf {s : State} {v : VP} (hvpid : v.vpid = s.self.vpid) (hother : v.other = s.self.other) :
    Confined i s { s with self := v } := ⟨rfl, rfl, rfl, hvpid, hother, fun _ => .of_mem⟩

theorem Confined.setTimer (d : DWord) (s : State) : Confined i s (setTimer d s) := by
  unfold Machine.setTimer
  split_ifs <;> exact .refl s

/-- An update of every processor that writes cached translations and local enables only. -/
theorem Confined.mapLive {f : VP → VP} (hf : ∀ v, f v = { v with tc := (f v).tc, len := (f v).len }) (s : State) :
    Confined i s (mapLive f s) := by
  refine ⟨rfl, rfl, rfl, ?_, ?_, List.forall_mem_map.2 fun v hv => .inl ⟨v, hv, hf v⟩⟩
  · rw [mapLive_self, hf]
  · rw [mapLive_self, hf]

theorem Confined.stopVM (s : State) : Confined i s (stopVM s) := ⟨rfl, rfl, rfl, rfl, rfl, List.forall_mem_nil _⟩

theorem Confined.takeEvent (e : Event) (elr : Word) (s : State) : Confined i s (takeEvent e elr s) := by
  rcases takeEvent_cases e elr s with ⟨g, bad, n, -, -, he⟩ | ⟨-, -, he⟩ | ⟨-, -, he⟩ <;> rw [he]
  · exact .withSelf (enterEvent_vpid e elr g bad s.self) (enterEvent_other e elr g bad s.self)
  · exact .stopVM s
  · exact .refl s

theorem Leads.guestConfined {s : State} {body : State → Result} (hbody : Leads (Confined i s) (body s)) :
    Leads (Confined i s) (Machine.requireGuest s body) := Leads.requireGuest (.takeEvent _ _ s) hbody

/-! ### The operations of `vmintop` -/

theorem intopAffinity_confined (n : Nat) (q : Word) (s : State) : Leads (Confined i s) (intopAffinity n q s) := by
  unfold intopAffinity
  split_ifs
  · exact .doneWith (.mapLive (fun _ => rfl) s)
  · exact .doneWith (.refl s)

theorem intopGet_confined (n : Nat) (s : State) : Leads (Confined i s) (intopGet n s) := by
  unfold intopGet
  cases nextInt s s.self.len with
  | none => exact .doneWith (.refl s)
  | some m =>
    obtain ⟨asNamed, -, k, hd⟩ := drawFrom_eq true (l := [true, false]) (List.cons_ne_nil _ _) s
    rw [hd]
    dsimp only
    split_ifs <;> exact .doneWith (.refl s)

theorem execVmintop_confined (s : State) : Leads (Confined i s) (execVmintop s) := by
  refine .guestConfined ?_
  dsimp only
  cases intOpOf (getReg 0 s) with
  | nop | other => exact .doneWith (.refl s)
  | affinity => exact intopAffinity_confined _ _ s
  | get => exact intopGet_confined _ s
  | globen | globdis | locen | locdis | status | post | clear =>
    dsimp only [intopGlobal, intopLocal, intopStatus, intopPending]
    split_ifs <;> exact .doneWith (.refl s)
  | peek =>
    dsimp only [intopPeek]
    split <;> exact .doneWith (.refl s)

/-! ### The other instructions with several outcomes -/

theorem execVmversion_confined (s : State) : Leads (Confined i s) (execVmversion s) := by
  refine .guestConfined ?_
  dsimp only
  split_ifs
  · exact .done (.refl s)
  · obtain ⟨v, -, n, hd⟩ := drawFrom_eq 0x700 (l := versions s.params) (List.cons_ne_nil _ _) s
    rw [hd]
    exact .done (.refl s)

theorem execVmsetvec_confined (s : State) : Leads (Confined i s) (execVmsetvec s) := by
  refine .guestConfined ?_
  dsimp only
  split_ifs <;> exact .done (.refl s)

theorem execVmnewmap_confined (s : State) : Leads (Confined i s) (execVmnewmap s) := by
  refine .guestConfined ?_
  split
  · exact .done (.refl s)
  · split_ifs <;> exact .done (.refl s)

theorem execVmrte_confined (s : State) : Leads (Confined i s) (execVmrte s) := by
  refine .guestConfined ?_
  split_ifs
  · exact .next (.stopVM s)
  · exact .next (.withSelf (leaveEvent_vpid s.self) (leaveEvent_other s.self))
  · exact .refused _

theorem execVmclrmap_confined (s : State) : Leads (Confined i s) (execVmclrmap s) :=
  .guestConfined (.done (.mapLive (f := purge (getReg 0 s) (getReg 1 s).toNat) (fun _ => rfl) s))

theorem rangeOperation_confined {s : State} {work : List (Nat × Nat) → State → State}
    (hwork : ∀ spans n, Confined i s (work spans { s with free := n })) :
    Leads (Confined i s) (rangeOperation work s) := by
  have hraise : ∀ e n, Confined i s (raiseHere e { s with free := n }) :=
    fun e n => Confined.takeEvent e s.self.pc { s with free := n }
  unfold rangeOperation
  rcases rangeCheck_cases (getReg 1 s) (getReg 2 s).toNat s with
    ⟨spans, n, hr⟩ | ⟨va, n, hr⟩ | ⟨n, hr⟩ | ⟨st, hr⟩ <;> rw [hr]
  · exact .done (hwork spans n)
  · exact .next (hraise _ n)
  · exact .next (hraise _ n)
  · exact .stop st

theorem execVmcache_confined (s : State) : Leads (Confined i s) (execVmcache s) := by
  refine .guestConfined ?_
  dsimp only
  cases cacheOpOf (getReg 0 s) with
  | ickill | dckill | l2kill => exact .done (.refl s)
  | dccleaninva | icinva | idsync => exact rangeOperation_confined fun _ _ => .refl s
  | reserved =>
    obtain ⟨v, -, n, hd⟩ := drawFrom_eq 0 (l := [0, minusOne]) (List.cons_ne_nil _ _) s
    rw [hd]
    exact .done (.refl s)

/-- The only instruction with a new processor. -/
theorem execVmstart_confined (s : State) : Leads (Confined .vmstart s) (execVmstart s) := by
  refine .guestConfined ?_
  cases freeVpids s with
  | nil => exact .done (.refl s)
  | cons k rest =>
    obtain ⟨id, -, n, hd⟩ := drawFrom_eq k (List.cons_ne_nil k rest) s
    dsimp only
    rw [hd]
    refine .next ⟨rfl, rfl, rfl, rfl, rfl, List.forall_mem_append.2 ⟨fun _ => .of_mem, ?_⟩⟩
    exact List.forall_mem_singleton.2 (.inr ⟨rfl, rfl, rfl⟩)

end

/-! ### Every instruction -/

theorem exec_confined (i : Instr) (s : State) : Leads (Confined i s) (exec i s) := by
  cases i with
  | vmversion => exact execVmversion_confined s
  | vmrte => exact execVmrte_confined s
  | vmintop => exact execVmintop_confined s
  | vmclrmap => exact execVmclrmap_confined s
  | vmcache => exact execVmcache_confined s
  | vmstart => exact execVmstart_confined s
  | vmsetvec => exact execVmsetvec_confined s
  | vmnewmap => exact execVmnewmap_confined s
  | vmsettime =>
    apply Leads.guestConfined
    exact .done (.setTimer _ s)
  | vmsetie | vmgetie | vmgettime | vmyield | vmvpid | vmsetregs | vmgetregs =>
    apply Leads.guestConfined
    exact .done (.refl s)
  | vmwait | vmstop =>
    apply Leads.guestConfined
    exact .next (.refl s)
  | trap1Reserved imm => exact Leads.guestConfined (body := fun _ => .refused _) (.refused _)
  | trap0 imm => exact .next (.takeEvent _ _ s)

/-- Settles O59: memory stays as it is listed, so it does byte by byte. -/
theorem instructionsWriteNoMemory : Obligations.InstructionsWriteNoMemory := by
  intro i s t hexec
  obtain ⟨hlm, hparams, hagenda, hvpid, hother, hothers⟩ := exec_confined i s t hexec
  exact ⟨fun a => by rw [hlm], hparams, hagenda, hvpid, hother, hothers⟩

end Sys2Proof.Machine
end

section
/-! PROOFS. What instruction fetches may still return of overwritten bytes (20_memory.md R94), and how the work of
a cache operation changes it (43_cache_control.md R221 to R226). -/

namespace Sys2Proof.Machine

variable {a : Nat} {s t : State} {spans : List (Nat × Nat)}

/-- Only what fetches may still see of overwritten bytes changes. -/
theorem OnlyChanges.withStale (s : State) (st : List StaleByte) : OnlyChanges [.stale] s { s with stale := st } := by
  intro p hp
  cases p with
  | stale => exact absurd (by decide) hp
  | memory => exact fun _ => rfl
  | _ => rfl

/-! ### What a fetch may return -/

@[simp] theorem fetchOptions_setReg (i : Fin 32) (v : Word) : fetchOptions a (setReg i v s) = fetchOptions a s := rfl

@[simp] theorem fetchOptions_advance : fetchOptions a (advance s) = fetchOptions a s := rfl

theorem mem_fetchOptions {o : Option Byte} :
    o ∈ fetchOptions a s ↔
      o = memGet s.lm a ∨ ∃ e ∈ s.stale, e.la = a ∧ s.self.vpid ∉ e.synced ∧ e.old = o := by
  simp [fetchOptions, and_assoc]

/-- Where the processor is synchronised with every overwrite of a byte, it fetches the present content only. -/
theorem fetchOptions_of_synced (h : ∀ e ∈ s.stale, e.la = a → s.self.vpid ∈ e.synced) :
    fetchOptions a s = [memGet s.lm a] := by
  have hnone : (s.stale.filter fun e => e.la == a && !e.synced.contains s.self.vpid) = [] := by
    simpa [List.filter_eq_nil_iff] using h
  rw [fetchOptions, hnone]
  rfl

/-- A store keeps the content that it overwrites for the fetches of every processor. -/
theorem old_mem_fetchOptions_writeByte {b : Byte} (h : memGet s.lm a ≠ some b) :
    memGet s.lm a ∈ fetchOptions a (writeByte a b s) := by
  rw [writeByte, if_neg h]
  exact mem_fetchOptions.2 (.inr ⟨_, List.mem_cons_self .., rfl, List.not_mem_nil, rfl⟩)

theorem new_mem_fetchOptions_writeByte (b : Byte) : some b ∈ fetchOptions a (writeByte a b s) :=
  mem_fetchOptions.2 (.inl (by simp))

/-! ### Clean, and invalidate -/

theorem inSpans_iff : inSpans spans a = true ↔ ∃ g ∈ spans, g.1 ≤ a ∧ a < g.1 + g.2 := by
  simp [inSpans]

theorem cleanAll_cleaned : ∀ e ∈ (cleanAll s).stale, e.cleaned = true := by
  simp [cleanAll]

theorem cleanSpans_cleaned (h : inSpans spans a = true) :
    ∀ e ∈ (cleanSpans spans s).stale, e.la = a → e.cleaned = true := by
  refine List.forall_mem_map.2 fun d _ => ?_
  split_ifs with hd
  · exact fun _ => rfl
  · rintro rfl
    exact absurd h hd

/-- 43_cache_control.md R221: what has been cleaned is no longer fetched. -/
theorem fetchOptions_dropIcache (h : ∀ e ∈ s.stale, e.la = a → e.cleaned = true) :
    fetchOptions a (dropIcache s) = [memGet s.lm a] := by
  refine fetchOptions_of_synced fun e he hla => ?_
  obtain ⟨hmem, hdirty⟩ := List.mem_filter.1 he
  simp [h e hmem hla] at hdirty

/-- 43_cache_control.md R225: over the spans, what has been cleaned is no longer fetched by the processor. -/
theorem fetchOptions_dropIcacheSpans (hspan : inSpans spans a = true)
    (h : ∀ e ∈ s.stale, e.la = a → e.cleaned = true) :
    fetchOptions a (dropIcacheSpans spans s) = [memGet s.lm a] := by
  refine fetchOptions_of_synced (List.forall_mem_map.2 fun d hd => ?_)
  split_ifs with hsync
  · exact fun _ => List.mem_cons_self ..
  · rintro rfl
    exact absurd (by simp [h d hd rfl, hspan]) hsync

end Sys2Proof.Machine
end

section
/-! PROOFS. The check of a byte range for a cache operation (43_cache_control.md R228): its pieces, each granted or
offending, and what the whole scan then answers. -/

namespace Sys2Proof.Machine

variable {ok : Xlat → Bool} {c : Chunk} {s : State} {va a : Word} {x : Xlat} {n k : Nat} {l : List Chunk}

/-! ### The pieces of a range -/

/-- A byte at an offset that stays in the 4 KB page. -/
theorem byteAt_toNat_inPage (h : va.toNat % 4096 + k < 4096) : (byteAt va k).toNat = va.toNat + k := by
  simp only [byteAt, BitVec.toNat_add, BitVec.toNat_ofNat]
  omega

theorem byteAt_samePage (h : va.toNat % 4096 + k < 4096) : (byteAt va k).toNat / 4096 = va.toNat / 4096 := by
  rw [byteAt_toNat_inPage h]
  omega

@[simp] theorem byteAt_zero (va : Word) : byteAt va 0 = va := by simp [byteAt]

theorem cutRange_len_pos {fuel : Nat} : ∀ c ∈ cutRange fuel a n, 0 < c.len := by
  induction fuel generalizing a n with
  | zero => exact List.forall_mem_nil _
  | succ fuel ih =>
    rw [cutRange]
    split_ifs with hn
    · exact List.forall_mem_nil _
    · exact List.forall_mem_cons.2 ⟨show 0 < min n (4096 - a.toNat % 4096) by omega, ih⟩

theorem rangeChunks_len_pos : ∀ c ∈ rangeChunks a n, 0 < c.len := cutRange_len_pos

/-- A byte of a piece is a byte of the range, and the piece stays in its 4 KB page. -/
theorem rangeChunks_byte (hc : c ∈ rangeChunks a n) {j : Nat} (hj : j < c.len) :
    (∃ k < n, byteAt c.va j = byteAt a k) ∧ c.va.toNat % 4096 + j < 4096 := by
  have hcut := rangeChunks_cutsInto a n
  have hpage := hcut.in_page c hc
  exact ⟨(hcut.mem_iff _).1 ⟨c, hc, j, hj, rfl⟩, by omega⟩

/-- A byte of the range is a byte of a piece that stays in its 4 KB page. -/
theorem exists_rangeChunk (hk : k < n) :
    ∃ c ∈ rangeChunks a n, ∃ j < c.len, byteAt a k = byteAt c.va j ∧ c.va.toNat % 4096 + j < 4096 := by
  obtain ⟨c, hc, j, hj, heq⟩ := ((rangeChunks_cutsInto a n).mem_iff _).2 ⟨k, hk, rfl⟩
  exact ⟨c, hc, j, hj, heq, (rangeChunks_byte hc hj).2⟩

/-- What holds of every byte of a range holds of the first byte of each piece. -/
theorem forall_rangeChunks {P : Word → Prop} (h : ∀ k, k < n → P (byteAt a k)) :
    ∀ c ∈ rangeChunks a n, P c.va := by
  intro c hc
  obtain ⟨⟨k, hk, heq⟩, -⟩ := rangeChunks_byte hc (rangeChunks_len_pos c hc)
  rw [← byteAt_zero c.va, heq]
  exact h k hk

/-- Within a 4 KB page a translation keeps the distances (20_memory.md R82). -/
theorem xlatAddr_byteAt (hx : pageBase x.size x.page = x.page) (h : va.toNat % 4096 + k < 4096) :
    (xlatAddr x (byteAt va k)).toNat = (xlatAddr x va).toNat + k := by
  have hmod : (va.toNat + k) % 4096 = va.toNat % 4096 + k := by omega
  have hdiv : (va.toNat + k) / 4096 = va.toNat / 4096 := by omega
  rw [xlatAddr_toNat hx, xlatAddr_toNat hx, byteAt_toNat_inPage h, Nat.pow_add, show 2 ^ 12 = 4096 from rfl,
    Nat.mod_mul, Nat.mod_mul, hmod, hdiv]
  omega

/-- Whether an address may not be written is one answer for a 4 KB page. -/
theorem NotWritable.of_samePage {b : Word} (h : NotWritable s va) (hp : va.toNat / 4096 = b.toNat / 4096) :
    NotWritable s b := by
  unfold NotWritable at h ⊢
  rw [walk_of_samePage s.params s.lm s.self.map hp] at h
  exact h.imp_left fun hres => by omega

/-! ### One piece -/

theorem checkChunk_granted (ha : CacheAgrees s c.va) (hu : Usable s c.va x) (hok : ok x = true) :
    checkChunk ok c s = (.granted (xlatAddr x c.va).toNat, s) := by
  have hrefusal := xlatRefusal_usable hu
  obtain ⟨hlt, hw, ht, -, -⟩ := hu
  simp [checkChunk, reservedVa_eq_false.2 hlt, lookup_agrees ha, hw, ht, hok, hrefusal]

theorem checkChunk_offends (ha : CacheAgrees s c.va) (hn : NotWritable s c.va) :
    checkChunk Xlat.w c s = (.offends, s) := by
  unfold checkChunk
  cases hres : reservedVa c.va with
  | true => rfl
  | false =>
    obtain hge | hw | hw | ⟨t, hw, hnot, ht⟩ := hn
    · exact absurd (reservedVa_eq_false.1 hres) (by omega)
    · simp [lookup_agrees ha, hw]
    · simp [lookup_agrees ha, hw]
    · simp [lookup_agrees ha, hw, hnot, ht]

/-! ### A list of pieces -/

/-- Everything a scan answers where each piece is granted or offends, and no check draws a value. -/
theorem scanRange_of_verdicts
    (h : ∀ c ∈ l, checkChunk ok c s = (.offends, s) ∨ ∃ la, checkChunk ok c s = (.granted la, s)) :
    ∃ spans bad, scanRange ok l s = .scanned spans bad s ∧
      (∀ c ∈ l, ∀ la, checkChunk ok c s = (.granted la, s) → (la, c.len) ∈ spans) ∧
      ∀ b, b ∈ bad ↔ ∃ c ∈ l, checkChunk ok c s = (.offends, s) ∧ b = (c, false) := by
  induction l with
  | nil => exact ⟨[], [], rfl, by simp, by simp⟩
  | cons c rest ih =>
    obtain ⟨hc, hrest⟩ := List.forall_mem_cons.1 h
    obtain ⟨spans, bad, hscan, hspans, hbad⟩ := ih hrest
    obtain hc | ⟨la, hc⟩ := hc
    · exact ⟨spans, (c, false) :: bad, by simp [scanRange, hc, hscan], by simpa [hc] using hspans, by simp [hc, hbad]⟩
    · refine ⟨(la, c.len) :: spans, bad, by simp [scanRange, hc, hscan], ?_, by simp [hc, hbad]⟩
      refine List.forall_mem_cons.2 ⟨fun la' h' => ?_, fun d hd la' h' => .tail _ (hspans d hd la' h')⟩
      obtain rfl : la = la' := by simpa [hc] using h'
      exact List.mem_cons_self ..

/-- The spans hold the logical address that the walk gives each byte of the range. -/
def SpansReach (s : State) (a : Word) (n : Nat) (spans : List (Nat × Nat)) : Prop :=
  ∀ k x, k < n → walk s.params s.lm s.self.map (byteAt a k) = .answer (.hit x) →
    inSpans spans (xlatAddr x (byteAt a k)).toNat = true

/-- A scan of a range whose every byte is granted finds no offending piece and reaches every byte. -/
theorem scanRange_usable (ha : ∀ k, k < n → CacheAgrees s (byteAt a k))
    (hu : ∀ k, k < n → ∃ x, Usable s (byteAt a k) x ∧ ok x = true) :
    ∃ spans, scanRange ok (rangeChunks a n) s = .scanned spans [] s ∧ SpansReach s a n spans := by
  have hgranted : ∀ c ∈ rangeChunks a n, ∃ x, walk s.params s.lm s.self.map c.va = .answer (.hit x) ∧
      checkChunk ok c s = (.granted (xlatAddr x c.va).toNat, s) := by
    intro c hc
    obtain ⟨x, hx, hok⟩ := forall_rangeChunks (P := fun v => ∃ x, Usable s v x ∧ ok x = true) hu c hc
    exact ⟨x, hx.2.1, checkChunk_granted (forall_rangeChunks ha c hc) hx hok⟩
  obtain ⟨spans, bad, hscan, hspans, hbad⟩ := scanRange_of_verdicts (ok := ok) (s := s) (l := rangeChunks a n)
    fun c hc => (hgranted c hc).elim fun _ h => .inr ⟨_, h.2⟩
  obtain rfl : bad = [] := by
    refine List.eq_nil_iff_forall_not_mem.2 fun b hb => ?_
    obtain ⟨c, hc, hoff, -⟩ := (hbad b).1 hb
    obtain ⟨x, -, hgr⟩ := hgranted c hc
    rw [hgr] at hoff
    cases hoff
  refine ⟨spans, hscan, fun k x hk hwalk => ?_⟩
  obtain ⟨c, hc, j, hj, heq, hin⟩ := exists_rangeChunk (a := a) hk
  obtain ⟨y, hy, hgr⟩ := hgranted c hc
  rw [heq, walk_of_samePage _ _ _ (byteAt_samePage hin), hy] at hwalk
  obtain rfl : y = x := by simpa using hwalk
  refine inSpans_iff.2 ⟨_, hspans c hc _ hgr, ?_⟩
  rw [heq, xlatAddr_byteAt (walk_page hy) hin]
  exact ⟨Nat.le_add_right _ _, Nat.add_lt_add_left hj _⟩

/-! ### The range check -/

theorem drawBelow_lt (hn : 0 < n) (s : State) : (drawBelow n s).1 < n := by
  unfold drawBelow
  split_ifs
  · exact hn
  · exact Nat.mod_lt _ hn

theorem drawBelow_state (n : Nat) (s : State) : ∃ m, (drawBelow n s).2 = { s with free := m } := by
  unfold drawBelow
  split_ifs
  · exact ⟨s.free, rfl⟩
  · exact ⟨s.free + 1, rfl⟩

/-- Each number below that of the offending addresses names one of them. -/
theorem offenderAt_of_lt {bad : List (Chunk × Bool)} (h : k < offenders bad) :
    ∃ c b j, (c, b) ∈ bad ∧ j < c.len ∧ offenderAt bad k = some (byteAt c.va j, b) := by
  induction bad generalizing k with
  | nil => exact absurd h (Nat.not_lt_zero k)
  | cons d rest ih =>
    obtain ⟨c, b⟩ := d
    rw [offenderAt]
    split_ifs with hk
    · exact ⟨c, b, k, List.mem_cons_self .., hk, rfl⟩
    · have hrest : k - c.len < offenders rest := by
        simp only [offenders, List.map_cons, List.sum_cons] at h ⊢
        omega
      obtain ⟨d, b', j, hmem, hj, heq⟩ := ih hrest
      exact ⟨d, b', j, .tail _ hmem, hj, heq⟩

theorem offenders_pos {bad : List (Chunk × Bool)} {b : Bool} (h : (c, b) ∈ bad) (hc : 0 < c.len) :
    0 < offenders bad :=
  lt_of_lt_of_le hc (List.single_le_sum (fun _ _ => Nat.zero_le _) _
    (List.mem_map_of_mem (f := fun d : Chunk × Bool => d.1.len) h))

/-- 43_cache_control.md R228: a range every address of which may be written passes. -/
theorem rangeCheck_writable (ha : ∀ k, k < n → CacheAgrees s (byteAt a k))
    (hw : ∀ k, k < n → WriteOK s (byteAt a k)) :
    ∃ spans, rangeCheck a n s = .ok spans s ∧ SpansReach s a n spans := by
  obtain ⟨spans, hscan, hreach⟩ := scanRange_usable (ok := Xlat.w) ha hw
  exact ⟨spans, by simp [rangeCheck, hscan, offenderAt], hreach⟩

/-- A scan of a range in which each address may or may not be written, and some may not: it finds an offending piece,
and no byte of one may be written. -/
theorem scanRange_notWritable (ha : ∀ k, k < n → CacheAgrees s (byteAt a k))
    (hall : ∀ k, k < n → WriteOK s (byteAt a k) ∨ NotWritable s (byteAt a k))
    (hsome : ∃ k, k < n ∧ NotWritable s (byteAt a k)) :
    ∃ spans bad, scanRange Xlat.w (rangeChunks a n) s = .scanned spans bad s ∧ 0 < offenders bad ∧
      ∀ c b, (c, b) ∈ bad → b = false ∧ c ∈ rangeChunks a n ∧ NotWritable s c.va := by
  have hagree := forall_rangeChunks ha
  have hverdict : ∀ c ∈ rangeChunks a n,
      (NotWritable s c.va ∧ checkChunk Xlat.w c s = (.offends, s)) ∨
        ∃ la, checkChunk Xlat.w c s = (.granted la, s) := by
    intro c hc
    obtain ⟨x, hx, hok⟩ | hnot := forall_rangeChunks (P := fun v => WriteOK s v ∨ NotWritable s v) hall c hc
    · exact .inr ⟨_, checkChunk_granted (hagree c hc) hx hok⟩
    · exact .inl ⟨hnot, checkChunk_offends (hagree c hc) hnot⟩
  obtain ⟨spans, bad, hscan, -, hbad⟩ := scanRange_of_verdicts fun c hc => (hverdict c hc).imp_left And.right
  refine ⟨spans, bad, hscan, ?_, fun c b hmem => ?_⟩
  · obtain ⟨k, hk, hnot⟩ := hsome
    obtain ⟨c, hc, j, -, heq, hin⟩ := exists_rangeChunk (a := a) hk
    have hnotc : NotWritable s c.va := hnot.of_samePage (heq ▸ byteAt_samePage hin)
    exact offenders_pos ((hbad (c, false)).2 ⟨c, hc, checkChunk_offends (hagree c hc) hnotc, rfl⟩)
      (rangeChunks_len_pos c hc)
  · obtain ⟨d, hd, hoff, heq⟩ := (hbad _).1 hmem
    obtain ⟨rfl, rfl⟩ := Prod.mk.inj heq
    obtain ⟨hnot, -⟩ | ⟨la, hgr⟩ := hverdict c hd
    · exact ⟨rfl, hd, hnot⟩
    · rw [hgr] at hoff
      cases hoff

/-- 43_cache_control.md R228: a range with an address that may not be written raises 0x23 for such an address. -/
theorem rangeCheck_notWritable (ha : ∀ k, k < n → CacheAgrees s (byteAt a k))
    (hall : ∀ k, k < n → WriteOK s (byteAt a k) ∨ NotWritable s (byteAt a k))
    (hsome : ∃ k, k < n ∧ NotWritable s (byteAt a k)) :
    ∃ k m, k < n ∧ NotWritable s (byteAt a k) ∧
      rangeCheck a n s = .raise (.general (.storeProtection (byteAt a k))) { s with free := m } := by
  obtain ⟨spans, bad, hscan, hpos, hbad⟩ := scanRange_notWritable ha hall hsome
  obtain ⟨c, b, j, hmem, hj, hoff⟩ := offenderAt_of_lt (drawBelow_lt hpos s)
  obtain ⟨m, hm⟩ := drawBelow_state (offenders bad) s
  obtain ⟨rfl, hc, hnot⟩ := hbad c b hmem
  obtain ⟨⟨k, hk, hbyte⟩, hin⟩ := rangeChunks_byte hc hj
  refine ⟨k, m, hk, hbyte ▸ hnot.of_samePage (byteAt_samePage hin).symm, ?_⟩
  simp only [rangeCheck, hscan, hoff, hm, hbyte]

end Sys2Proof.Machine
end

section
/-! PROOFS. `vmcache` and the user-level cache instructions (43_cache_control.md R220 to R228,
42_trap0_and_base_isa.md R202): how each operation completes, and which fetches are current after it. -/

namespace Sys2Proof.Machine

variable {s t : State} {va a : Word} {x : Xlat} {n : Nat}

/-! ### Cache work leaves the translations -/

/-- `t` has the maps, the cached translations and the memory of `s`, so it translates as `s` does. -/
structure SameMmu (s t : State) : Prop where
  params : t.params = s.params
  lm : t.lm = s.lm
  map : t.self.map = s.self.map
  tc : t.self.tc = s.self.tc
  run : t.self.run = s.self.run
  others : t.others = s.others

namespace SameMmu

theorem walk_eq (h : SameMmu s t) (va : Word) :
    walk t.params t.lm t.self.map va = walk s.params s.lm s.self.map va := by
  rw [h.params, h.lm, h.map]

theorem cacheAgrees (h : SameMmu s t) (ha : CacheAgrees s va) : CacheAgrees t va := by
  intro c hc hcov
  rw [h.walk_eq]
  exact ha c (h.tc ▸ hc) hcov

/-- A live processor of `t` is one of `s` as far as its translations are concerned. -/
theorem exists_live (h : SameMmu s t) {v : VP} (hv : v ∈ live t) :
    ∃ w ∈ live s, w.map = v.map ∧ w.tc = v.tc := by
  unfold live at hv ⊢
  rw [h.run, h.others] at hv
  split_ifs at hv ⊢ with hrun
  · exact ⟨v, hv, rfl, rfl⟩
  · obtain rfl | hv := List.mem_cons.1 hv
    · exact ⟨s.self, List.mem_cons_self .., h.map.symm, h.tc.symm⟩
    · exact ⟨v, List.mem_cons_of_mem _ hv, rfl, rfl⟩

theorem noAlias (h : SameMmu s t) (ha : NoAlias s va x) : NoAlias t va x := by
  intro v hv va' t' huse
  obtain ⟨w, hw, hmap, htc⟩ := h.exists_live hv
  have huse' : InUse s w va' t' := by
    unfold InUse at huse ⊢
    rwa [hmap, htc, ← h.params, ← h.lm]
  rw [← hmap, h.map]
  exact ha w hw va' t' huse'

theorem usable (h : SameMmu s t) (hu : Usable s va x) : Usable t va x := by
  obtain ⟨hlt, hw, ht, hc, ha⟩ := hu
  exact ⟨hlt, (h.walk_eq va).trans hw, ht, hc, h.noAlias ha⟩

theorem writeOK (h : SameMmu s t) (hw : WriteOK s va) : WriteOK t va :=
  hw.imp fun _ hx => hx.imp_left h.usable

end SameMmu

/-! ### The operations of `vmcache` -/

/-- 43_cache_control.md R227. -/
theorem cacheOpOf_of_gt {r0 : Word} (h : 5 < r0.toNat) : cacheOpOf r0 = .reserved := by
  unfold cacheOpOf
  split
  case h_7 => rfl
  all_goals omega

/-- A `vmcache` of the operation that R0 names. -/
theorem execVmcache_guest (h : s.self.um = false) :
    execVmcache s =
      match cacheOpOf (getReg 0 s) with
      | .ickill => done (setReg 0 0 (dropIcache s))
      | .dckill => done (setReg 0 0 (cleanAll s))
      | .l2kill => done (setReg 0 0 s)
      | .dccleaninva => rangeOperation cleanSpans s
      | .icinva => rangeOperation dropIcacheSpans s
      | .idsync => rangeOperation (fun spans s => dropIcacheSpans spans (cleanSpans spans s)) s
      | .reserved => done (setReg 0 (drawFrom 0 [0, minusOne] s).1 (drawFrom 0 [0, minusOne] s).2) := by
  unfold execVmcache
  exact requireGuest_guest h _

theorem execVmcache_ickill (h : s.self.um = false) (hop : getReg 0 s = 0#32) :
    execVmcache s = done (setReg 0 0 (dropIcache s)) := by
  rw [execVmcache_guest h, hop]
  rfl

theorem execVmcache_dckill (h : s.self.um = false) (hop : getReg 0 s = 1#32) :
    execVmcache s = done (setReg 0 0 (cleanAll s)) := by
  rw [execVmcache_guest h, hop]
  rfl

theorem execVmcache_l2kill (h : s.self.um = false) (hop : getReg 0 s = 2#32) :
    execVmcache s = done (setReg 0 0 s) := by
  rw [execVmcache_guest h, hop]
  rfl

theorem execVmcache_dccleaninva (h : s.self.um = false) (hop : getReg 0 s = 3#32) :
    execVmcache s = rangeOperation cleanSpans s := by
  rw [execVmcache_guest h, hop]
  rfl

theorem execVmcache_icinva (h : s.self.um = false) (hop : getReg 0 s = 4#32) :
    execVmcache s = rangeOperation dropIcacheSpans s := by
  rw [execVmcache_guest h, hop]
  rfl

theorem execVmcache_idsync (h : s.self.um = false) (hop : getReg 0 s = 5#32) :
    execVmcache s = rangeOperation (fun spans s => dropIcacheSpans spans (cleanSpans spans s)) s := by
  rw [execVmcache_guest h, hop]
  rfl

theorem execVmcache_reserved (h : s.self.um = false) (hop : 5 < (getReg 0 s).toNat) :
    ∃ v m, (v = 0 ∨ v = minusOne) ∧ execVmcache s = done (setReg 0 v { s with free := m }) := by
  obtain ⟨v, hv, m, hd⟩ := drawFrom_eq 0 (l := [0, minusOne]) (List.cons_ne_nil _ _) s
  refine ⟨v, m, by simpa using hv, ?_⟩
  rw [execVmcache_guest h, cacheOpOf_of_gt hop]
  simp only [hd]

/-- Operations 3 to 5 check their range, and their work changes only what fetches may still see. -/
theorem execVmcache_range (h : s.self.um = false) (h3 : 3 ≤ (getReg 0 s).toNat) (h5 : (getReg 0 s).toNat ≤ 5) :
    ∃ work, (∀ spans t, ∃ st, work spans t = { t with stale := st }) ∧ execVmcache s = rangeOperation work s := by
  have hop : getReg 0 s = 3#32 ∨ getReg 0 s = 4#32 ∨ getReg 0 s = 5#32 := by bv_omega
  obtain hop | hop | hop := hop
  · exact ⟨_, fun _ _ => ⟨_, rfl⟩, execVmcache_dccleaninva h hop⟩
  · exact ⟨_, fun _ _ => ⟨_, rfl⟩, execVmcache_icinva h hop⟩
  · exact ⟨_, fun _ _ => ⟨_, rfl⟩, execVmcache_idsync h hop⟩

/-! ### Whole-cache operations -/

/-- Settles O26: ICKILL drops the overwrites that are clean, DCKILL cleans them all, and L2KILL leaves them. -/
theorem vmcacheWholeCacheAndReservedOperations : Obligations.VmcacheWholeCacheAndReservedOperations := by
  refine fun s hum => ⟨fun hle => ?_, fun hgt => ?_⟩
  · have hop : getReg 0 s = 0#32 ∨ getReg 0 s = 1#32 ∨ getReg 0 s = 2#32 := by bv_omega
    obtain hop | hop | hop := hop
    · exact ⟨_, execVmcache_ickill hum hop, by simp, rfl, (OnlyChanges.withStale s _).withResult 0,
        fun e he => ⟨e, (List.mem_filter.1 he).1, rfl, rfl, rfl⟩, fun _ a hclean => fetchOptions_dropIcache hclean,
        by simp [hop]⟩
    · have hframe : OnlyChanges [.stale, .reg 0, .pc] s (advance (setReg 0 0 (cleanAll s))) :=
        (OnlyChanges.withStale s _).withResult 0
      refine ⟨_, execVmcache_dckill hum hop, by simp, rfl, hframe,
        List.forall_mem_map.2 fun d hd => ⟨d, hd, rfl, rfl, rfl⟩, by simp [hop], fun _ => ?_⟩
      exact ⟨_, execVmcache_ickill hum (by simp), by simp,
        hframe.trans ((OnlyChanges.withStale _ _).withResult 0),
        fun a => fetchOptions_dropIcache fun e he _ => cleanAll_cleaned e he⟩
    · exact ⟨_, execVmcache_l2kill hum hop, by simp, rfl, (OnlyChanges.refl [.stale] s).withResult 0,
        fun e he => ⟨e, he, rfl, rfl, rfl⟩, by simp [hop], by simp [hop]⟩
  · obtain ⟨v, m, hv, hexec⟩ := execVmcache_reserved hum hgt
    exact ⟨_, hexec, by simpa [minusOne] using hv, rfl, ((OnlyChanges.refl [] s).free m).withResult v⟩

/-! ### Range operations -/

/-- A range operation over a range every address of which may be written, whatever its work. -/
theorem rangeOperation_writable (h1 : getReg 1 s = a) (h2 : (getReg 2 s).toNat = n)
    (ha : ∀ k, k < n → CacheAgrees s (byteAt a k)) (hw : ∀ k, k < n → WriteOK s (byteAt a k)) :
    ∃ spans, SpansReach s a n spans ∧ ∀ work, rangeOperation work s = done (setReg 0 0 (work spans s)) := by
  obtain ⟨spans, hcheck, hreach⟩ := rangeCheck_writable ha hw
  exact ⟨spans, hreach, fun work => by simp only [rangeOperation, h1, h2, hcheck]⟩

/-- Settles O28: the range check passes, and the work changes only what fetches may still see. -/
theorem vmcacheRangeOperationsComplete : Obligations.VmcacheRangeOperationsComplete := by
  intro s hum h3 h5 hagree hwrite
  obtain ⟨work, hwork, hexec⟩ := execVmcache_range hum h3 h5
  obtain ⟨spans, -, hdone⟩ := rangeOperation_writable rfl rfl hagree hwrite
  obtain ⟨st, hst⟩ := hwork spans s
  exact ⟨advance (setReg 0 0 { s with stale := st }), by rw [exec_vmcache, hexec, hdone, hst]; rfl, by simp, rfl,
    (OnlyChanges.withStale s st).withResult 0⟩

/-- Settles O29: the range check raises 0x23 for an offending address, and has drawn at most one free value. -/
theorem vmcacheRangeOperationsFault : Obligations.VmcacheRangeOperationsFault := by
  intro s g hum hg h3 h5 hagree hall hsome
  obtain ⟨work, -, hexec⟩ := execVmcache_range hum h3 h5
  obtain ⟨k, m, hk, hnot, hcheck⟩ := rangeCheck_notWritable hagree hall hsome
  obtain ⟨hentered, hbadva, hframe⟩ :=
    takeEvent_entered (.general (.storeProtection (byteAt (getReg 1 s) k))) s.self.pc (s := { s with free := m }) hg
  refine ⟨_, k, ?_, hk, hnot, hbadva _ rfl, hentered, ((OnlyChanges.refl _ s).free m).trans hframe⟩
  rw [exec_vmcache, hexec, rangeOperation, hcheck]
  rfl

/-! ### Clean, then invalidate -/

/-- From every byte of the range that has a translation in `s`, the processor of `t` fetches what memory holds in
`s`, and nothing older. -/
def FetchesCurrent (s : State) (a : Word) (n : Nat) (t : State) : Prop :=
  ∀ k x, k < n → walk s.params s.lm s.self.map (byteAt a k) = .answer (.hit x) →
    fetchOptions (xlatAddr x (byteAt a k)).toNat t = [memGet s.lm (xlatAddr x (byteAt a k)).toNat]

theorem FetchesCurrent.withResult (h : FetchesCurrent s a n t) :
    FetchesCurrent s a n (advance (setReg 0 0 t)) := by
  simpa [FetchesCurrent] using h

theorem SpansReach.of_sameMmu {spans : List (Nat × Nat)} (h : SpansReach t a n spans) (hst : SameMmu s t) :
    SpansReach s a n spans := fun k x hk hx => h k x hk ((hst.walk_eq _).trans hx)

/-- 43_cache_control.md R226: what was cleaned is dropped. -/
theorem fetchesCurrent_of_cleaned {spans spans' : List (Nat × Nat)} (hclean : SpansReach s a n spans)
    (hdrop : SpansReach s a n spans') (hlm : t.lm = s.lm) (hstale : t.stale = (cleanSpans spans s).stale) :
    FetchesCurrent s a n (dropIcacheSpans spans' t) := by
  intro k x hk hx
  have hcleaned := cleanSpans_cleaned (s := s) (hclean k x hk hx)
  rw [fetchOptions_dropIcacheSpans (hdrop k x hk hx) (hstale ▸ hcleaned), hlm]

@[simp] theorem getReg_cleanSpans (i : Fin 32) (spans : List (Nat × Nat)) (s : State) :
    getReg i (cleanSpans spans s) = getReg i s := rfl

section

variable (ha : ∀ k, k < n → CacheAgrees s (byteAt a k)) (hw : ∀ k, k < n → WriteOK s (byteAt a k))

include ha hw

/-- IDSYNC. -/
theorem idsync_fetchesCurrent (hum : s.self.um = false) (hop : getReg 0 s = 5#32) (h1 : getReg 1 s = a)
    (h2 : (getReg 2 s).toNat = n) : ∃ t, execVmcache s = .next t ∧ FetchesCurrent s a n t := by
  obtain ⟨spans, hreach, hdone⟩ := rangeOperation_writable h1 h2 ha hw
  exact ⟨_, (execVmcache_idsync hum hop).trans (hdone _),
    (fetchesCurrent_of_cleaned (t := cleanSpans spans s) hreach hreach rfl rfl).withResult⟩

/-- ICINVA in a state `t` that differs from `s` by a clean over the range, as far as fetches can see. -/
theorem icinva_fetchesCurrent {spans : List (Nat × Nat)} (hclean : SpansReach s a n spans) (hst : SameMmu s t)
    (hstale : t.stale = (cleanSpans spans s).stale) (hum : t.self.um = false) (hop : getReg 0 t = 4#32)
    (h1 : getReg 1 t = a) (h2 : (getReg 2 t).toNat = n) : ∃ u, execVmcache t = .next u ∧ FetchesCurrent s a n u := by
  obtain ⟨spans', hdrop, hdone⟩ := rangeOperation_writable h1 h2 (fun k hk => hst.cacheAgrees (ha k hk))
    fun k hk => hst.writeOK (hw k hk)
  exact ⟨_, (execVmcache_icinva hum hop).trans (hdone _),
    (fetchesCurrent_of_cleaned hclean (hdrop.of_sameMmu hst) hst.lm hstale).withResult⟩

/-- DCCLEANINVA, then ICINVA over the same range. -/
theorem dccleaninva_icinva_fetchesCurrent (hum : s.self.um = false) (hop : getReg 0 s = 3#32)
    (h1 : getReg 1 s = a) (h2 : (getReg 2 s).toNat = n) :
    ∃ t, execVmcache s = .next t ∧ ∃ u, execVmcache (setReg 0 4#32 t) = .next u ∧ FetchesCurrent s a n u := by
  obtain ⟨spans, hreach, hdone⟩ := rangeOperation_writable h1 h2 ha hw
  exact ⟨_, (execVmcache_dccleaninva hum hop).trans (hdone _),
    icinva_fetchesCurrent ha hw hreach ⟨rfl, rfl, rfl, rfl, rfl, rfl⟩ rfl hum (by simp) (by simpa using h1)
      (by simpa using h2)⟩

end

/-! ### The user-level cache instructions -/

theorem cacheGrants_of_usable {op : BaseCacheOp} {um : Bool} (hop : op ≠ .dcinva)
    (hv : x.r = true ∨ x.w = true ∨ x.x = true) (hu : um = true → x.u = true) : cacheGrants op um x = true := by
  cases um with
  | false => simp [cacheGrants, xlatValid_iff.2 hv, hop]
  | true => simp [cacheGrants, xlatValid_iff.2 hv, hop, hu rfl]

section

variable {op : BaseCacheOp} (ha : ∀ k, k < n → CacheAgrees s (byteAt va k))
  (hu : ∀ k, k < n → ∃ x, Usable s (byteAt va k) x ∧ (x.r = true ∨ x.w = true ∨ x.x = true) ∧
    (s.self.um = true → x.u = true))

include ha hu

/-- A user-level cache instruction over pages that grant it. -/
theorem cachePages_usable (hop : op ≠ .dcinva) :
    ∃ spans, SpansReach s va n spans ∧ cachePages op va n s = .ok () (cacheEffect op spans s) := by
  obtain ⟨spans, hscan, hreach⟩ := scanRange_usable (ok := cacheGrants op s.self.um) ha fun k hk =>
    (hu k hk).imp fun _ ⟨hx, hv, hU⟩ => ⟨hx, cacheGrants_of_usable hop hv hU⟩
  exact ⟨spans, hreach, by simp only [cachePages, hscan]⟩

theorem baseCache_clean (hop : op = .dccleana ∨ op = .dccleaninva) :
    ∃ spans, SpansReach s va n spans ∧ baseCache op va n s = .ok () (cleanSpans spans s) := by
  obtain rfl | rfl := hop
  · exact cachePages_usable ha hu nofun
  · exact cachePages_usable ha hu nofun

theorem baseCache_icinva :
    ∃ spans, SpansReach s va n spans ∧ baseCache .icinva va n s = .ok () (dropIcacheSpans spans s) :=
  cachePages_usable ha hu nofun

/-- 42_trap0_and_base_isa.md R202: a clean of either kind, then `icinva` over the same range. -/
theorem baseClean_icinva_fetchesCurrent (target : Word) (hop : op = .dccleana ∨ op = .dccleaninva) :
    ∃ t, runProg (.cache op va n (.cache .icinva va n (.finish target))) s = .ok target t ∧
      OnlyChanges [.stale] s t ∧ FetchesCurrent s va n t := by
  obtain ⟨spans, hreach, hclean⟩ := baseCache_clean ha hu hop
  have hst : SameMmu s (cleanSpans spans s) := ⟨rfl, rfl, rfl, rfl, rfl, rfl⟩
  obtain ⟨spans', hdrop, hicinva⟩ := baseCache_icinva (s := cleanSpans spans s)
    (fun k hk => hst.cacheAgrees (ha k hk)) fun k hk => (hu k hk).imp fun _ hx => hx.imp_left hst.usable
  exact ⟨dropIcacheSpans spans' (cleanSpans spans s), by simp only [runProg, hclean, hicinva],
    (OnlyChanges.withStale s _).trans (OnlyChanges.withStale _ _),
    fetchesCurrent_of_cleaned hreach (hdrop.of_sameMmu hst) rfl rfl⟩

end

/-- Settles O30: an overwritten content may be fetched until it is cleaned and then dropped, and each of the three
ways to do so reaches every byte of its range. -/
theorem idsyncMakesFetchesCurrent : Obligations.IdsyncMakesFetchesCurrent := by
  refine ⟨fun a old new s hold hne => ⟨new_mem_fetchOptions_writeByte new, ?_⟩, fun s hum hop ha hw => ?_,
    fun s op va target n _ hop ha hu => baseClean_icinva_fetchesCurrent ha hu target hop⟩
  · exact hold ▸ old_mem_fetchOptions_writeByte (by simpa [hold] using hne)
  · obtain hop | hop := hop
    · obtain ⟨t, ht, hcurrent⟩ := idsync_fetchesCurrent ha hw hum hop rfl rfl
      exact ⟨t, ht, t, fun _ => rfl, by simp [hop], hcurrent⟩
    · obtain ⟨t, ht, u, hu, hcurrent⟩ := dccleaninva_icinva_fetchesCurrent ha hw hum hop rfl rfl
      exact ⟨t, ht, u, by simp [hop], fun _ => hu, hcurrent⟩

end Sys2Proof.Machine
end

section
/-! PROOFS. Map validation (44_memory_management.md R230, `ValidMap`): the spans of accessible memory, the ends of a
list, and what the scans of a map say of every address. -/

namespace Sys2Proof.Machine

/-! ### Spans of accessible logical memory -/

/-- The ranges that end above `lo`: those that a search from `lo` on can still use. -/
def rangesAbove (ranges : List (Nat × Nat)) (lo : Nat) : List (Nat × Nat) :=
  ranges.filter fun r => lo < r.1 + r.2

/-- From the end of a range on, there is a range less to use. -/
theorem length_rangesAbove_lt {ranges : List (Nat × Nat)} {r : Nat × Nat} (hr : r ∈ ranges) {lo : Nat}
    (hlo : lo < r.1 + r.2) : (rangesAbove ranges (r.1 + r.2)).length < (rangesAbove ranges lo).length := by
  have hfilter : rangesAbove ranges (r.1 + r.2) =
      (rangesAbove ranges lo).filter fun q => r.1 + r.2 < q.1 + q.2 := by
    rw [rangesAbove, rangesAbove, List.filter_filter]
    refine List.filter_congr fun q _ => ?_
    rw [Bool.eq_iff_iff, Bool.and_eq_true, decide_eq_true_eq, decide_eq_true_eq]
    omega
  rw [hfilter, List.length_filter_lt_length_iff_exists]
  exact ⟨r, List.mem_filter.2 ⟨hr, decide_eq_true hlo⟩, by simp⟩

/-- Each unit of fuel is good for one range, and no range is used twice. -/
theorem lmCovers_iff {ranges : List (Nat × Nat)} {fuel lo hi : Nat}
    (hfuel : (rangesAbove ranges lo).length ≤ fuel) : lmCovers ranges fuel lo hi = true ↔
      ∀ a, lo ≤ a → a < hi → ∃ r ∈ ranges, r.1 ≤ a ∧ a < r.1 + r.2 := by
  induction fuel generalizing lo with
  | zero =>
    have hnone : rangesAbove ranges lo = [] := List.length_eq_zero_iff.1 (Nat.le_zero.1 hfuel)
    rw [lmCovers, decide_eq_true_eq]
    refine ⟨fun hle a _ _ => by omega, fun hall => ?_⟩
    by_contra hlt
    obtain ⟨r, hr, -, hend⟩ := hall lo le_rfl (by omega)
    exact List.filter_eq_nil_iff.1 hnone r hr (decide_eq_true hend)
  | succ fuel ih =>
    rw [lmCovers]
    split_ifs with hle
    · exact ⟨fun _ a _ _ => by omega, fun _ => rfl⟩
    cases hfind : ranges.find? fun r => r.1 ≤ lo && lo < r.1 + r.2 with
    | none =>
      refine ⟨nofun, fun hall => ?_⟩
      obtain ⟨r, hr, hin⟩ := hall lo le_rfl (by omega)
      exact absurd hin (by simpa using List.find?_eq_none.1 hfind r hr)
    | some r =>
      have hr := List.mem_of_find?_eq_some hfind
      have hin : r.1 ≤ lo ∧ lo < r.1 + r.2 := by simpa using List.find?_some hfind
      have hless := length_rangesAbove_lt hr hin.2
      change lmCovers ranges fuel (r.1 + r.2) hi = true ↔ _
      rw [ih (by omega)]
      refine ⟨fun hall a hlo hhi => ?_, fun hall a hlo hhi => hall a (by omega) hhi⟩
      rcases Nat.lt_or_ge a (r.1 + r.2) with hend | hend
      · exact ⟨r, hr, by omega, hend⟩
      · exact hall a hend hhi

theorem lmOkSpan_iff {p : Params} {lo hi : Nat} :
    lmOkSpan p lo hi = true ↔ ∀ a, lo ≤ a → a < hi → lmOk p a = true := by
  rw [lmOkSpan, lmCovers_iff (List.length_filter_le _ _)]
  simp [lmOk]

theorem mapsInaccessible_eq_false {p : Params} {va : Word} {x : Xlat} :
    mapsInaccessible p va x = false ↔ ((x.r = true ∨ x.w = true ∨ x.x = true) →
      ∀ k, k < pageBytes x.size → lmOk p (x.page.toNat + k) = true) := by
  have hspan : lmOkSpan p x.page.toNat (x.page.toNat + pageBytes x.size) = true ↔
      ∀ k, k < pageBytes x.size → lmOk p (x.page.toNat + k) = true := by
    rw [lmOkSpan_iff]
    refine ⟨fun hall k hk => hall _ (by omega) (by omega), fun hall a hlo hhi => ?_⟩
    obtain ⟨k, rfl⟩ := Nat.exists_eq_add_of_le hlo
    exact hall k (by omega)
  rw [← xlatValid_iff, ← hspan, mapsInaccessible]
  cases xlatValid x <;> simp

/-! ### What `ValidMap` asks of the addresses -/

/-- No walk for an address below the reserved range meets an entry at an inaccessible address. -/
def EntriesAccessible (p : Params) (m : Memory) (map : MapSel) : Prop :=
  ∀ va : Word, va.toNat < 0xFF000000 → walk p m map va ≠ .badLogical

/-- Every valid translation of an address below the reserved range sends its whole page to accessible addresses. -/
def PagesAccessible (p : Params) (m : Memory) (map : MapSel) : Prop :=
  ∀ va : Word, va.toNat < 0xFF000000 → ∀ x, walk p m map va = .answer (.hit x) →
    (x.r = true ∨ x.w = true ∨ x.x = true) → ∀ k, k < pageBytes x.size → lmOk p (x.page.toNat + k) = true

variable {p : Params} {m : Memory}

theorem mapYields_inaccessible (map : MapSel) :
    mapYields p m map (mapsInaccessible p) = false ↔ PagesAccessible p m map := by
  rw [← Bool.not_eq_true, mapYields_iff]
  simp only [not_exists, not_and, Bool.not_eq_true, mapsInaccessible_eq_false]
  rfl

theorem initial_entriesAccessible : EntriesAccessible p m .initial := by
  intro va _ h
  simp only [walk, initialWalk] at h
  split_ifs at h

/-- The scan of a page table for inaccessible entries. -/
theorem tableSamples_badLogical (base : Word) :
    ((tableSamples p m base).any fun va => tableWalk p m base va == .badLogical) = false ↔
      EntriesAccessible p m (.tables base) := by
  simp only [List.any_eq_false, beq_iff_eq]
  refine ⟨fun hnone va hva hbad => ?_, fun hall va hva => hall va (tableSamples_lt hva)⟩
  obtain ⟨a, ha, hsame, -⟩ := tableSamples_complete p m base hva
  exact hnone a ha (hsame.trans hbad)

/-- The scan of a list for inaccessible entries. -/
theorem chainReaches_badLogical (base : Word) :
    chainReaches (mapList p m base) .badLogical = false ↔ EntriesAccessible p m (.linear base) := by
  simp only [chainReaches, List.any_eq_false, List.mem_range, beq_iff_eq]
  refine ⟨fun hnone va hva hbad => hnone (va.toNat / 4096) (by omega) ?_, fun hall k hk => hall _ ?_⟩
  · exact (chainWalk_of_samePage (pageStart_samePage va) _).trans hbad
  · rw [BitVec.toNat_ofNat]
    omega

/-- Only a list that ends at an inaccessible address has a walk that meets one. -/
theorem chainWalk_badLogical {va : Word} {c : Chain} (h : chainWalk va c = .badLogical) :
    chainEnd c = .badLogical := by
  induction c with
  | ends how => cases how <;> first | rfl | exact nomatch h
  | entry z e rest ih =>
    rw [chainWalk] at h
    split_ifs at h
    exact ih h

theorem entriesAccessible_of_chainEnd {base : Word} (h : chainEnd (mapList p m base) ≠ .badLogical) :
    EntriesAccessible p m (.linear base) := fun _ _ hbad => h (chainWalk_badLogical hbad)

/-! ### Finite lists -/

theorem listPlace_add (base : Word) (i j : Nat) :
    listPlace p m base (i + j) = (listPlace p m base i).bind fun a => listPlace p m a j := by
  induction j with
  | zero => simp [listPlace]
  | succ j ih => rw [← add_assoc, listPlace, ih, Option.bind_assoc]; rfl

/-- A finite list has no entry from which it comes back to that entry. -/
theorem not_listFinite_of_cycle {a : Word} {k : Nat} (hk : 0 < k) (hcycle : listPlace p m a k = some a) :
    ¬ ListFinite p m a := by
  rintro ⟨n, hn⟩
  have hrounds : ∀ i, listPlace p m a (i * k) = some a := by
    intro i
    induction i with
    | zero => rw [Nat.zero_mul]; rfl
    | succ i ih => rw [Nat.succ_mul, listPlace_add, ih, Option.bind_some, hcycle]
  have hmore := hrounds n
  rw [← Nat.add_sub_cancel' (Nat.le_mul_of_pos_right n hk), listPlace_add, hn] at hmore
  exact nomatch hmore

theorem listPlace_succ_of_next {a b : Word} (h : listNext p m a = some b) (n : Nat) :
    listPlace p m a (n + 1) = listPlace p m b n := by
  have hone : listPlace p m a 1 = some b := h
  rw [add_comm, listPlace_add, hone, Option.bind_some]

theorem listFinite_of_last {a : Word} (h : listNext p m a = none) : ListFinite p m a := ⟨1, h⟩

theorem listFinite_iff_next {a b : Word} (h : listNext p m a = some b) :
    ListFinite p m a ↔ ListFinite p m b := by
  constructor
  · rintro ⟨n, hn⟩
    cases n with
    | zero => exact nomatch hn
    | succ n => exact ⟨n, listPlace_succ_of_next h n ▸ hn⟩
  · rintro ⟨n, hn⟩
    exact ⟨n + 1, (listPlace_succ_of_next h n).trans hn⟩

theorem listSize_eq_none {e : DWord} : listSize e = none ↔ (e.extractLsb' 52 3).toNat = 7 := by
  have := (e.extractLsb' 52 3).isLt
  simp only [listSize, sizeCode, dite_eq_right_iff, reduceCtorEq, imp_false]
  omega

/-- The chain goes on exactly where the list does, whatever the entry matches. -/
theorem listChain_succ_cases {fuel : Nat} {seen : List Word} {ptr : Word} (hmem : ptr ∉ seen) :
    (listNext p m ptr = none ∧ chainEnd (listChain p m (fuel + 1) seen ptr) ≠ .endless) ∨
      ∃ next, listNext p m ptr = some next ∧ chainEnd (listChain p m (fuel + 1) seen ptr) =
        chainEnd (listChain p m fuel (ptr :: seen) next) := by
  rw [listChain, if_neg hmem, listNext]
  cases readEntry p m ptr with
  | none => exact .inl ⟨rfl, nofun⟩
  | some e =>
    simp only [listEntry, ← listSize_eq_none]
    split_ifs with h0 hl hz
    · exact .inl ⟨rfl, nofun⟩
    · exact .inr ⟨_, rfl, rfl⟩
    · rw [hz]
      exact .inl ⟨rfl, nofun⟩
    · obtain ⟨z, hz⟩ := Option.ne_none_iff_exists'.1 hz
      rw [hz]
      exact .inr ⟨_, rfl, rfl⟩

/-- The chain that `listChain` unrolls is endless exactly where the list is: where it stops at an entry seen before,
the list comes back to that entry; and its fuel outlasts the addresses that are not seen yet. -/
theorem chainEnd_listChain {fuel : Nat} {seen : List Word} {ptr : Word}
    (hfuel : 2 ^ 32 < fuel + seen.length) (hnodup : seen.Nodup)
    (hseen : ∀ a ∈ seen, ∃ k, 0 < k ∧ listPlace p m a k = some ptr) :
    chainEnd (listChain p m fuel seen ptr) ≠ .endless ↔ ListFinite p m ptr := by
  induction fuel generalizing seen ptr with
  | zero =>
    have := length_le_of_nodup hnodup
    omega
  | succ fuel ih =>
    by_cases hmem : ptr ∈ seen
    · obtain ⟨k, hk, hcycle⟩ := hseen ptr hmem
      rw [listChain, if_pos hmem]
      exact iff_of_false (fun h => h rfl) (not_listFinite_of_cycle hk hcycle)
    · obtain ⟨hlast, hend⟩ | ⟨next, hnext, hend⟩ := listChain_succ_cases (p := p) (m := m) (fuel := fuel) hmem
      · exact iff_of_true hend (listFinite_of_last hlast)
      · rw [hend, listFinite_iff_next hnext]
        refine ih (by rw [List.length_cons]; omega) (hnodup.cons hmem) (List.forall_mem_cons.2 ⟨?_, fun a ha => ?_⟩)
        · exact ⟨1, Nat.one_pos, hnext⟩
        · obtain ⟨k, _, hk⟩ := hseen a ha
          exact ⟨k + 1, Nat.succ_pos k, by rw [listPlace, hk, Option.bind_some, hnext]⟩

theorem chainEnd_mapList (base : Word) : chainEnd (mapList p m base) ≠ .endless ↔ ListFinite p m base :=
  chainEnd_listChain (by simp) List.nodup_nil (by simp)

/-! ### The maps -/

theorem validMap_initial : validMap p m .initial = true ↔ PagesAccessible p m .initial := by
  rw [← mapYields_inaccessible, validMap, Bool.not_eq_true']

theorem validMap_tables (base : Word) : validMap p m (.tables base) = true ↔
    EntriesAccessible p m (.tables base) ∧ PagesAccessible p m (.tables base) := by
  rw [← mapYields_inaccessible, ← tableSamples_badLogical, validMap, Bool.and_eq_true, Bool.not_eq_true',
    Bool.not_eq_true']

theorem validMap_linear (base : Word) : validMap p m (.linear base) = true ↔
    EntriesAccessible p m (.linear base) ∧ PagesAccessible p m (.linear base) ∧ ListFinite p m base := by
  have hentries := entriesAccessible_of_chainEnd (p := p) (m := m) (base := base)
  rw [← mapYields_inaccessible, ← chainEnd_mapList, validMap]
  cases hend : chainEnd (mapList p m base) with
  | terminator | reservedSize => simp [hentries (by simp [hend])]
  | badLogical => simp [chainReaches_badLogical]
  | endless => simp

/-- Settles O32: each scan of validation asks about every address, by the laws of the scans of a map, and the end of
the unrolled list is `endless` exactly where the list is not finite. -/
theorem validMapChecksEveryAddress : Obligations.ValidMapChecksEveryAddress := by
  intro p m map
  simp only [imp_and, forall_and]
  change _ ↔ (EntriesAccessible p m map ∧ PagesAccessible p m map) ∧ _
  cases map with
  | initial => simp [validMap_initial, initial_entriesAccessible]
  | tables base => simp [validMap_tables]
  | linear base => simp [validMap_linear, and_assoc]

end Sys2Proof.Machine
end

section
/-! PROOFS. The instructions of memory management: vmnewmap and vmclrmap (44_memory_management.md R230, R231). -/

namespace Sys2Proof.Machine

variable {s : State} {map : MapSel}

/-! ### vmnewmap -/

theorem selectMap_eq_some :
    selectMap s.params (getReg 0 s) (getReg 1 s) = some map ↔ NewmapSelects s map := by
  rw [selectMap, NewmapSelects]
  generalize getReg 1 s = ty
  generalize getReg 0 s = base
  rw [eq_comm (a := map), eq_comm (a := map)]
  by_cases h0 : ty = 0#32
  · subst h0
    simp [and_assoc]
  · by_cases h1 : ty = 1#32
    · subst h1
      simp [and_assoc]
    · simp [h0, h1]

theorem selectMap_eq_none :
    selectMap s.params (getReg 0 s) (getReg 1 s) = none ↔ ∀ map, ¬NewmapSelects s map := by
  simp only [← selectMap_eq_some, Option.eq_none_iff_forall_ne_some, ne_eq]

theorem execVmnewmap_guest (hguest : s.self.um = false) :
    execVmnewmap s =
      match selectMap s.params (getReg 0 s) (getReg 1 s) with
      | none => newmapFail s
      | some map =>
        if s.params.validate && !validMap s.params s.lm map then newmapFail s else newmapSwitch map s := by
  unfold execVmnewmap
  exact requireGuest_guest hguest _

theorem execVmnewmap_unselected (hguest : s.self.um = false) (hselect : ∀ map, ¬NewmapSelects s map) :
    execVmnewmap s = newmapFail s := by
  rw [execVmnewmap_guest hguest, selectMap_eq_none.2 hselect]

theorem execVmnewmap_invalid (hguest : s.self.um = false) (hselect : NewmapSelects s map)
    (hvalidate : s.params.validate = true) (hinvalid : validMap s.params s.lm map = false) :
    execVmnewmap s = newmapFail s := by
  rw [execVmnewmap_guest hguest, selectMap_eq_some.2 hselect]
  simp [hvalidate, hinvalid]

theorem execVmnewmap_valid (hguest : s.self.um = false) (hselect : NewmapSelects s map)
    (hvalid : s.params.validate = true → validMap s.params s.lm map = true) :
    execVmnewmap s = newmapSwitch map s := by
  rw [execVmnewmap_guest hguest, selectMap_eq_some.2 hselect]
  cases hvalidate : s.params.validate with
  | true => simp [hvalid hvalidate]
  | false => rfl

/-- `NEWMAP_ERR` is negative. -/
theorem newmapErr_negative (p : Params) : (newmapErr p).getLsbD 31 = true := by
  rw [newmapErr, BitVec.getLsbD_append]
  rfl

/-- The failure of `vmnewmap`: a negative code in R0, and nothing else. -/
theorem newmapFail_completes (s : State) :
    ∃ t, newmapFail s = .next t ∧ (getReg 0 t).getLsbD 31 = true ∧ t.self.pc = s.self.pc + 4 ∧
      OnlyChanges [.reg 0, .pc] s t :=
  ⟨_, rfl, by simpa using newmapErr_negative s.params, rfl, (OnlyChanges.refl [] s).withResult _⟩

/-- `MAP`, `TC` and the unfinished walks of the executing processor. -/
theorem OnlyChanges.withMap (s : State) (map : MapSel) (tc walks : List Cached) :
    OnlyChanges [.map, .tc, .walks] s { s with self := { s.self with map := map, tc := tc, walks := walks } } := by
  intro p hp
  cases p with
  | map | tc | walks => exact absurd (by decide) hp
  | memory => exact fun _ => rfl
  | _ => rfl

/-- Settles O31: the operands and the validation decide between `newmapSwitch` and `newmapFail`. -/
theorem vmnewmapSwitchesTheMapOrFails : Obligations.VmnewmapSwitchesTheMapOrFails := by
  refine fun s hguest => ⟨fun map hselect hvalid => ?_, fun hfails => ?_⟩
  · rw [exec_vmnewmap, execVmnewmap_valid hguest hselect hvalid]
    exact ⟨_, rfl, rfl, rfl, rfl, by simp, rfl, (OnlyChanges.withMap s map [] []).withResult 0⟩
  · have hrun : exec .vmnewmap s = newmapFail s := by
      rw [exec_vmnewmap]
      rcases hfails with hselect | ⟨hvalidate, map, hselect, hinvalid⟩
      · exact execVmnewmap_unselected hguest hselect
      · exact execVmnewmap_invalid hguest hselect hvalidate hinvalid
    rw [hrun]
    exact newmapFail_completes s

/-! ### The pages of a range -/

/-- The addresses of a page are those less than its size above its first one, without a carry out of 32 bits. -/
theorem pageBase_eq_iff_offset {z : SizeCode} {page : Word} (hpage : pageBase z page = page) (va : Word) :
    pageBase z va = page ↔ (va - page).toNat < pageBytes z := by
  have hz := z.isLt
  have hva := va.isLt
  have hpos : 0 < pageBytes z := Nat.two_pow_pos _
  have hfirst : page.toNat / pageBytes z * pageBytes z = page.toNat := by
    have h := pageBase_toNat z page
    rw [hpage] at h
    exact h.symm
  have hnocarry : page.toNat + pageBytes z ≤ 2 ^ 32 := by
    have hrest : pageBytes z ∣ 2 ^ 32 - page.toNat :=
      Nat.dvd_sub (Nat.pow_dvd_pow 2 (by omega)) (Dvd.intro_left _ hfirst)
    have := Nat.le_of_dvd (Nat.sub_pos_of_lt page.isLt) hrest
    omega
  have hsame : pageBase z va = page ↔ page.toNat ≤ va.toNat ∧ va.toNat < page.toNat + pageBytes z := by
    rw [← BitVec.toNat_inj, pageBase_toNat, ← pageBytes]
    constructor
    · intro h
      rw [← h]
      exact ⟨Nat.div_mul_le_self .., Nat.lt_div_mul_add hpos⟩
    · rintro ⟨hlo, hhi⟩
      rw [← hfirst] at hlo hhi
      rw [Nat.div_eq_of_lt_le hlo (by rwa [Nat.succ_mul]), hfirst]
  rw [hsame, BitVec.toNat_sub]
  omega

/-- A page contains a byte of a range where the range begins in it, or goes round to its first byte. -/
theorem rangeMeetsPage_iff {a page : Word} {n : Nat} {z : SizeCode} (hpage : pageBase z page = page) :
    rangeMeetsPage a n page z = true ↔ ∃ k, k < n ∧ pageBase z (byteAt a k) = page := by
  have hpos : 0 < pageBytes z := Nat.two_pow_pos _
  have hd := (a - page).isLt
  have hoffset : ∀ k, (byteAt a k - page).toNat = ((a - page).toNat + k) % 2 ^ 32 := by
    intro k
    have hcomm : byteAt a k - page = a - page + BitVec.ofNat 32 k := by
      rw [byteAt]
      bv_omega
    rw [hcomm, BitVec.toNat_add, BitVec.toNat_ofNat, Nat.add_mod_mod]
  simp only [rangeMeetsPage, Bool.and_eq_true, Bool.or_eq_true, bne_iff_ne, decide_eq_true_eq,
    pageBase_eq_iff_offset hpage, hoffset]
  constructor
  · rintro ⟨hn, hbegins | hwraps⟩
    · exact ⟨0, by omega, by rwa [add_zero, Nat.mod_eq_of_lt hd]⟩
    · exact ⟨2 ^ 32 - (a - page).toNat, hwraps, by rwa [Nat.add_sub_cancel' hd.le, Nat.mod_self]⟩
  · rintro ⟨k, hk, hin⟩
    refine ⟨by omega, ?_⟩
    by_contra hout
    rw [Nat.mod_eq_of_lt (by omega)] at hin
    omega

theorem mem_outsideRange {a : Word} {n : Nat} {l : List Cached} (hl : ∀ c ∈ l, pageBase c.size c.vpage = c.vpage)
    (c : Cached) : c ∈ outsideRange a n l ↔ c ∈ l ∧ ¬∃ k, k < n ∧ covers (byteAt a k) c = true := by
  simp only [outsideRange, List.mem_filter, covers, beq_iff_eq]
  refine and_congr_right fun hc => ?_
  rw [← rangeMeetsPage_iff (hl c hc), Bool.not_eq_true', Bool.not_eq_true]

/-! ### vmclrmap -/

/-- The state in which `vmclrmap` completes. -/
def clearedMap (s : State) : State :=
  let a := getReg 0 s
  let n := (getReg 1 s).toNat
  { mapLive (purge a n) s with self := purgeWalks a n (purge a n s.self) }

theorem exec_vmclrmap_guest (hguest : s.self.um = false) :
    exec .vmclrmap s = .next (advance (setReg 0 0 (clearedMap s))) := execVmclrmap_guest hguest

theorem OnlyChanges.clearedMap (s : State) : OnlyChanges [.tc, .walks, .others] s (clearedMap s) := by
  intro p hp
  cases p with
  | tc | walks | others => exact absurd (by decide) hp
  | memory => exact fun _ => rfl
  | _ => rfl

/-- The only other processor finishes a walk. -/
theorem act_finishWalk_other {v : VP} (hothers : s.others = [v]) (hvpid : v.vpid ≠ s.self.vpid) (k : Nat) :
    act (.finishWalk v.vpid k) s = .next { s with others := [endWalkOf k v] } := by
  have hself : selfIs v.vpid s = false := by simp [selfIs, hvpid.symm]
  simp [act, onVP, hself, hothers]

theorem mem_tc_keepCached (c : Cached) (v : VP) : c ∈ (keepCached c v).tc := by
  unfold keepCached
  split_ifs with hmem
  · exact hmem
  · exact List.mem_cons_self ..

theorem endWalkOf_of_walk {v : VP} {k : Nat} {c : Cached} (h : v.walks[k]? = some c) :
    endWalkOf k v = keepCached c { v with walks := v.walks.eraseIdx k } := by
  rw [endWalkOf, h]

/-- Settles O33: the purge keeps the members that no byte of the range lies in the page of, and leaves the unfinished
walks of the other processors. -/
theorem vmclrmapPurgesExactlyTheRange : Obligations.VmclrmapPurgesExactlyTheRange := by
  refine ⟨fun s hguest hpages => ?_, fun s v k c hothers _ hvpid hwalk hguest => ?_⟩
  · have htc : ∀ v ∈ s.self :: s.others, ∀ c ∈ v.tc, pageBase c.size c.vpage = c.vpage :=
      fun v hv c hc => hpages v hv c (List.mem_append_left _ hc)
    have hwalks : ∀ c ∈ s.self.walks, pageBase c.size c.vpage = c.vpage :=
      fun c hc => hpages s.self (List.mem_cons_self ..) c (List.mem_append_right _ hc)
    refine ⟨_, exec_vmclrmap_guest hguest, by simp, rfl, mem_outsideRange (htc _ (List.mem_cons_self ..)),
      mem_outsideRange hwalks, ?_, (OnlyChanges.clearedMap s).withResult 0⟩
    refine List.forall₂_map_right_iff.2 (List.forall₂_same.2 fun v hv => ⟨rfl, mem_outsideRange ?_⟩)
    exact htc v (List.mem_cons_of_mem _ hv)
  · have hcleared : (advance (setReg 0 0 (clearedMap s))).others =
        [purge (getReg 0 s) (getReg 1 s).toNat v] := congrArg (List.map _) hothers
    refine ⟨_, _, _, exec_vmclrmap_guest hguest, act_finishWalk_other hcleared hvpid k, rfl, ?_⟩
    rw [endWalkOf_of_walk (v := purge _ _ v) hwalk]
    exact ⟨mem_tc_keepCached .., rfl⟩

end Sys2Proof.Machine
end

section
/-! PROOFS. The timer instructions: vmgettime, vmsettime (45_processor_management.md R240, R241). -/

namespace Sys2Proof.Machine

/-! ### The timer in use -/

@[simp] theorem setTimer_params (v : DWord) (s : State) : (setTimer v s).params = s.params := by
  unfold setTimer; split_ifs <;> rfl
@[simp] theorem setTimer_self_vpid (v : DWord) (s : State) : (setTimer v s).self.vpid = s.self.vpid := by
  unfold setTimer; split_ifs <;> rfl
@[simp] theorem setTimer_self_run (v : DWord) (s : State) : (setTimer v s).self.run = s.self.run := by
  unfold setTimer; split_ifs <;> rfl
@[simp] theorem setTimer_self_um (v : DWord) (s : State) : (setTimer v s).self.um = s.self.um := by
  unfold setTimer; split_ifs <;> rfl

theorem setTimer_shared {s : State} (h : s.params.timerPerVp = false) (v : DWord) :
    setTimer v s = { s with timer := v } := if_neg (by simp [h])

theorem setTimer_own {s : State} (h : s.params.timerPerVp = true) (v : DWord) :
    setTimer v s = { s with self := { s.self with timer := v } } := if_pos h

@[simp] theorem getTimer_setTimer (v : DWord) (s : State) : getTimer (setTimer v s) = v := by
  unfold getTimer setTimer
  cases h : s.params.timerPerVp <;> simp [h]

@[simp] theorem getTimer_advance (s : State) : getTimer (advance s) = getTimer s := rfl

/-- The machine's timer, and the executing processor's own, advance by the tick. -/
theorem tick_self {s : State} (hlive : s.self.run ≠ .stopped) (d : DWord) :
    tick s.self.vpid d s = setTimer (getTimer s + d) s := by
  unfold tick setTimer getTimer
  cases h : s.params.timerPerVp <;> simp [onVP, selfIs, hlive]

/-- `TIMER <- v`, the machine's. -/
theorem OnlyChanges.withTimer (s : State) (v : DWord) : OnlyChanges [.timer] s { s with timer := v } := by
  intro p hp
  cases p with
  | timer => exact absurd (by decide) hp
  | memory => exact fun _ => rfl
  | _ => rfl

/-- `TIMER <- v`, the executing processor's own. -/
theorem OnlyChanges.withOwnTimer (s : State) (v : DWord) :
    OnlyChanges [.ownTimer] s { s with self := { s.self with timer := v } } := by
  intro p hp
  cases p with
  | ownTimer => exact absurd (by decide) hp
  | memory => exact fun _ => rfl
  | _ => rfl

/-! ### vmgettime and vmsettime -/

theorem exec_vmsettime_guest {s : State} (hguest : s.self.um = false) :
    exec .vmsettime s = .next (advance (setTimer (getReg 1 s ++ getReg 0 s) s)) := by
  rw [exec_vmsettime, execVmsettime_guest hguest, done]

theorem append_halves (v : DWord) : v.extractLsb' 32 32 ++ v.extractLsb' 0 32 = v := by
  rw [BitVec.extractLsb'_append_extractLsb'_eq_extractLsb' (by rfl)]
  exact BitVec.extractLsb'_eq_self

/-- The two halves of one sample put together are the sample. -/
theorem exec_vmgettime_reports {s : State} (hguest : s.self.um = false) :
    ∃ t, exec .vmgettime s = .next t ∧ getReg 1 t ++ getReg 0 t = getTimer s ∧
      t.self.pc = s.self.pc + 4 ∧ OnlyChanges [.reg 0, .reg 1, .pc] s t := by
  rw [exec_vmgettime, execVmgettime_guest hguest]
  refine ⟨_, rfl, ?_, rfl, ?_⟩
  · simpa using append_halves (getTimer s)
  · exact (((OnlyChanges.refl _ s).setReg 0 _ (by simp)).setReg 1 _ (by simp)).advance (by simp)

/-- Settles O42: each instruction in Guest mode reads or writes the timer that TIMER_SCOPE names. -/
theorem vmgettimeAndVmsettimeMoveTheTimer : Obligations.VmgettimeAndVmsettimeMoveTheTimer := by
  intro s hguest
  refine ⟨exec_vmgettime_reports hguest, fun hshared => ?_, fun hown => ?_⟩
  · rw [exec_vmsettime_guest hguest, setTimer_shared hshared]
    exact ⟨_, rfl, rfl, rfl, ((OnlyChanges.withTimer s _).mono (by simp)).advance (by simp)⟩
  · rw [exec_vmsettime_guest hguest, setTimer_own hown]
    exact ⟨_, rfl, rfl, rfl, ((OnlyChanges.withOwnTimer s _).mono (by simp)).advance (by simp)⟩

/-- The tick after a set that completed finds the value set. -/
theorem tick_after_set {s : State} (hlive : s.self.run ≠ .stopped) (v d : DWord) :
    tick s.self.vpid d (advance (setTimer v s)) = setTimer (v + d) (advance (setTimer v s)) := by
  simpa using tick_self (s := advance (setTimer v s)) (by simpa using hlive) d

/-- Settles O43: the tick after the set writes the timer that `vmgettime` then samples. -/
theorem timerReadsTheSetValuePlusTheAdvance : Obligations.TimerReadsTheSetValuePlusTheAdvance := by
  intro s d hguest hrun
  have htick := tick_after_set (s := s) (by simp [hrun]) (getReg 1 s ++ getReg 0 s) d
  have hguest' : (tick s.self.vpid d (advance (setTimer (getReg 1 s ++ getReg 0 s) s))).self.um = false := by
    simp [htick, hguest]
  obtain ⟨v, hv, hread, -⟩ := exec_vmgettime_reports hguest'
  exact ⟨_, _, v, exec_vmsettime_guest hguest, rfl, hv, by rw [hread, htick, getTimer_setTimer]⟩

end Sys2Proof.Machine
end

section
/-! PROOFS. vmwait, vmyield, vmstop and vmvpid (45_processor_management.md R242, R243, R245, R246). -/

namespace Sys2Proof.Machine

/-- `RUN <- r` of the executing processor. -/
theorem OnlyChanges.withRun (s : State) (r : RunState) :
    OnlyChanges [.run] s { s with self := { s.self with run := r } } := by
  intro p hp
  cases p with
  | run => exact absurd (by decide) hp
  | memory => exact fun _ => rfl
  | _ => rfl

/-- Settles O44: `vmwait` writes `RUN` alone. -/
theorem vmwaitSuspendsTheProcessor : Obligations.VmwaitSuspendsTheProcessor := by
  intro s hguest
  rw [exec_vmwait, execVmwait_guest hguest]
  exact ⟨_, rfl, rfl, .withRun s .waiting⟩

/-- Settles O47: the word is a row of the `trap1` table, and behind the privilege check there is nothing but the
advance of `pc`. -/
theorem vmyieldOnlyAdvances : Obligations.VmyieldOnlyAdvances := by
  obtain ⟨hencode, hdecode⟩ := trap1TableRowsMatchUnderTheMask.1 .vmyield 0x54800204#32 (by decide)
  refine ⟨hencode, hdecode, fun s => ⟨fun hguest => ?_, fun huser => requireGuest_user huser _⟩⟩
  rw [exec_vmyield, execVmyield_guest hguest]
  exact ⟨_, rfl, rfl, (OnlyChanges.refl _ s).advance (by simp)⟩

/-- 45_processor_management.md R245: "no further step of any kind". -/
theorem step_of_no_live {s : State} (h : live s = []) : step s = .fault .terminated := by
  simp [step, machineStep, h]

/-- Settles O49: the seat is empty after `stopVP`, so `live` is the others. -/
theorem vmstopEndsTheProcessor : Obligations.VmstopEndsTheProcessor := by
  intro s hguest
  rw [exec_vmstop, execVmstop_guest hguest]
  exact ⟨_, rfl, live_stopVP s, .stopVP s, fun hnone => step_of_no_live ((live_stopVP s).trans hnone)⟩

/-! ### vmvpid -/

theorem maxVp_le_of_paramsOk {p : Params} (h : paramsOk p = true) : p.maxVp ≤ 2 ^ 32 - 1 := by
  simp only [paramsOk, Bool.and_eq_true, decide_eq_true_eq] at h
  omega

theorem VpOk.vpid_lt {p : Params} {v : VP} (h : VpOk p v) : v.vpid.toNat < p.maxVp := by
  obtain ⟨hid, -, -, -, -, -⟩ := h
  exact hid

/-- MAX_VP leaves -1 to mean failure (00_scope.md R7). -/
theorem ne_minusOne_of_toNat_lt {p : Params} (hp : paramsOk p = true) {w : Word} (h : w.toNat < p.maxVp) :
    w ≠ minusOne := by
  rintro rfl
  exact absurd (h.trans_le (maxVp_le_of_paramsOk hp)) (by decide)

/-- Settles O50: the word is a row of the `trap1` table, the result is `VPID`, and the invariant bounds it by
`MAX_VP`. -/
theorem vmvpidReturnsTheIdentifier : Obligations.VmvpidReturnsTheIdentifier := by
  obtain ⟨hencode, hdecode⟩ := trap1TableRowsMatchUnderTheMask.1 .vmvpid 0x54800210#32 (by decide)
  refine ⟨hencode, hdecode, fun s => ⟨fun hguest => ?_, fun huser => ?_, fun hinv => ?_⟩, fun _ _ => rfl⟩
  · rw [exec_vmvpid, execVmvpid_guest hguest]
    exact ⟨_, rfl, by simp, rfl, (OnlyChanges.refl [] s).withResult _⟩
  · rw [exec_vmvpid, execVmvpid, requireGuest_user huser]
  · have hid := hinv.vpOk_self.vpid_lt
    exact ⟨hid, ne_minusOne_of_toNat_lt hinv.params_ok hid⟩

end Sys2Proof.Machine
end

section
/-! PROOFS. vmstart (45_processor_management.md R244). -/

namespace Sys2Proof.Machine

/-- `VPS <- l` but for the executing processor. -/
theorem OnlyChanges.withOthers (s : State) (l : List VP) : OnlyChanges [.others] s { s with others := l } := by
  intro p hp
  cases p with
  | others => exact absurd (by decide) hp
  | memory => exact fun _ => rfl
  | _ => rfl

theorem freeVpids_ne_nil_iff {s : State} :
    freeVpids s ≠ [] ↔ ∃ k, k < s.params.maxVp ∧ ∀ v ∈ live s, v.vpid.toNat ≠ k := by
  simp only [← mem_freeVpids]
  exact ⟨List.exists_mem_of_ne_nil _, fun ⟨_, hk⟩ => List.ne_nil_of_mem hk⟩

/-- With every identifier in use nothing is created. -/
theorem execVmstart_full {s : State} (hguest : s.self.um = false) (hfull : freeVpids s = []) :
    execVmstart s = done (setReg 0 minusOne s) := by
  rw [execVmstart, requireGuest_guest hguest, hfull]

/-- Everything `vmstart` can do where an identifier is free: it draws one of them, and some free values. -/
theorem execVmstart_creates {s : State} (hguest : s.self.um = false) (hfree : freeVpids s ≠ []) :
    ∃ k ∈ freeVpids s, ∃ n m, execVmstart s =
      done (setReg 0 (BitVec.ofNat 32 k)
        { s with others := s.others ++ [newVp (BitVec.ofNat 32 k) { s with free := n }], free := m }) := by
  obtain ⟨a, rest, hcons⟩ := List.ne_nil_iff_exists_cons.1 hfree
  obtain ⟨k, hk, n, hdraw⟩ := drawFrom_eq a (List.cons_ne_nil a rest) s
  refine ⟨k, hcons ▸ hk, n, n + newVpFree, ?_⟩
  rw [execVmstart, requireGuest_guest hguest, hcons]
  dsimp only
  rw [hdraw]

/-- Settles O48: the drawn identifier is a free one, and the processor that joins the others is `newVp` of it. -/
theorem vmstartCreatesAProcessorOrFails : Obligations.VmstartCreatesAProcessorOrFails := by
  intro s hguest hmax
  rw [exec_vmstart]
  refine ⟨fun hfree => ?_, fun hfull => ?_⟩
  · obtain ⟨k, hk, n, m, hrun⟩ := execVmstart_creates hguest (freeVpids_ne_nil_iff.2 hfree)
    obtain ⟨hlt, hunused⟩ := mem_freeVpids.1 hk
    have hword : (BitVec.ofNat 32 k).toNat = k := Nat.mod_eq_of_lt (by omega)
    have hframe := (OnlyChanges.withOthers s (s.others ++ [newVp (BitVec.ofNat 32 k) { s with free := n }])).free m
    refine ⟨_, _, hrun, rfl, hword.trans_lt hlt, fun v hv he => ?_, by simp [newVp], rfl, rfl,
      by simp [newVp, getReg], rfl, rfl, rfl, rfl, rfl, rfl, rfl, rfl, rfl, hframe.withResult _⟩
    exact hunused v hv ((congrArg BitVec.toNat he).trans hword)
  · have hnone : freeVpids s = [] := by
      refine List.eq_nil_iff_forall_not_mem.2 fun k hk => ?_
      obtain ⟨hlt, hunused⟩ := mem_freeVpids.1 hk
      obtain ⟨v, hv, hvk⟩ := hfull k hlt
      exact hunused v hv hvk
    rw [execVmstart_full hguest hnone]
    exact ⟨_, rfl, by simp [minusOne], rfl, (OnlyChanges.refl [] s).withResult _⟩

end Sys2Proof.Machine
end

section
/-! PROOFS. The end of a wait (45_processor_management.md R242), which may take an interrupt in the same step
(60_exceptions.md R281). -/

namespace Sys2Proof.Machine

/-! ### Taking an interrupt in Guest mode -/

/-- 60_exceptions.md R281: what was "cleared from the pending register and automatically disabled globally". -/
theorem bits_of_takeInterrupt {n : Nat} {s t : State} (hpending : t.pending = (takeInterrupt n s).pending)
    (hgen : t.gen = (takeInterrupt n s).gen) :
    hasBit t.pending n = false ∧ hasBit t.gen n = false ∧
      ∀ j, j ≠ n → hasBit t.pending j = hasBit s.pending j ∧ hasBit t.gen j = hasBit s.gen j := by
  rw [hpending, hgen]
  exact ⟨by simp, by simp, fun j hj => by simp [hj]⟩

theorem gsrImage_interrupt {n : Nat} (hn : n < 2 ^ 16) :
    gsrImage false true (eventCause (.interrupt n)) = 0x40000000#32 + BitVec.ofNat 32 n := by
  have hsplit : gsrImage false true (eventCause (.interrupt n)) = 0x4000#16 ++ BitVec.ofNat 16 n := rfl
  have hcause : (BitVec.ofNat 16 n).toNat = n := Nat.mod_eq_of_lt hn
  refine BitVec.eq_of_toNat_eq ?_
  rw [hsplit, BitVec.toNat_append, hcause, ← Nat.shiftLeft_add_eq_or_of_lt hn, BitVec.toNat_add,
    BitVec.toNat_ofNat, BitVec.toNat_ofNat, BitVec.toNat_ofNat, Nat.shiftLeft_eq]
  omega

/-- 60_exceptions.md R281, R284: GSR of an interrupt taken in Guest mode is the old `IE` and the number. -/
theorem takeEvent_interrupt_gsr {s : State} {g : Word} (hg : s.self.gevb = some g) (hguest : s.self.um = false)
    (hie : s.self.ie = true) {n : Nat} (hn : n < 2 ^ 16) (elr : Word) :
    (takeEvent (.interrupt n) elr s).self.gsr = 0x40000000#32 + BitVec.ofNat 32 n := by
  rcases takeEvent_cases (.interrupt n) elr s with ⟨g', bad, m, -, -, he⟩ | ⟨hnone, -⟩ | ⟨hnone, -⟩
  · rw [he, enterEvent_gsr, hguest, hie, gsrImage_interrupt hn]
  · exact absurd (hnone.symm.trans hg) nofun
  · exact absurd (hnone.symm.trans hg) nofun

/-- An event in Guest mode leaves the stack pointers, and the mode stays. -/
theorem OnlyChanges.takeEvent_guest {s : State} {g : Word} (hg : s.self.gevb = some g)
    (hguest : s.self.um = false) {e : Event} (he : isMachineCheck e = false) (elr : Word) :
    OnlyChanges [.pc, .gelr, .gsr, .gbadva, .ie, .recorded] s (takeEvent e elr s) := by
  obtain ⟨⟨-, -, -, hkeep, hregs, -, hum, hmch, -⟩, -, hframe⟩ := takeEvent_entered e elr hg
  obtain ⟨hsp, hgosp⟩ := hkeep hguest
  intro p hp
  cases p with
  | pc | gelr | gsr | gbadva | ie | recorded => exact absurd (by decide) hp
  | reg i =>
    by_cases hi : i = 29
    · exact hi ▸ hsp
    · exact hregs i hi
  | gosp => exact hgosp
  | um => exact hum.trans hguest.symm
  | mch => exact hmch.trans (by rw [he, Bool.or_false])
  | _ => exact hframe _ (by decide)

/-! ### Wake -/

/-- The processor runs again, with the number `k` in R0. -/
def awakened (k n : Nat) (s : State) : State :=
  setReg 0 (BitVec.ofNat 32 k) { s with self := { s.self with run := .running }, free := n }

theorem OnlyChanges.awakened (k n : Nat) (s : State) : OnlyChanges [.run, .reg 0] s (awakened k n s) :=
  (((OnlyChanges.withRun s .running).free n).mono (by simp)).setReg 0 _ (by simp)

theorem head?_eligibles (s : State) (len : Nat) : (eligibles s len).head? = nextInt s len := List.head?_filter

/-- Everything a wake-up can do where an interrupt is eligible. -/
theorem wake_cases {s : State} {n : Nat} (hn : nextInt s s.self.len = some n) :
    ∃ k m, eligible s s.self.len k = true ∧
      wake s =
        if s.self.ie then takeEvent (.interrupt n) (s.self.pc + 4) (takeInterrupt n (awakened k m s))
        else advance (awakened k m s) := by
  obtain ⟨rest, hrest⟩ := List.head?_eq_some_iff.1 ((head?_eligibles s s.self.len).trans hn)
  obtain ⟨k, hk, m, hdraw⟩ := drawFrom_eq n (List.cons_ne_nil n rest) s
  refine ⟨k, m, List.of_mem_filter (hrest ▸ hk : k ∈ eligibles s s.self.len), ?_⟩
  rw [wake, hrest]
  dsimp only
  rw [hdraw]
  rfl

theorem act_wake_self {s : State} {n : Nat} (hwait : s.self.run = .waiting) (hn : nextInt s s.self.len = some n) :
    act (.wake s.self.vpid) s = .next (wake s) := by
  have hseat : focus s.self.vpid s = some s := focus_self (by simp [hwait])
  simp [act, hseat, wakeable, hwait, hn]

/-- The number in R0 is the drawn one: interrupt numbers fit in a register. -/
theorem toNat_ofNat_of_eligible {s : State} {len k : Nat} (hnum : s.params.numInt ≤ 2 ^ 16)
    (hk : eligible s len k = true) : (BitVec.ofNat 32 k).toNat = k :=
  Nat.mod_eq_of_lt (by have := lt_of_eligible hk; omega)

/-- Settles O45: the three clauses are `IE` clear, an event with a vector table, and one without. -/
theorem wakeResumesOrTakesTheInterrupt : Obligations.WakeResumesOrTakesTheInterrupt := by
  intro s n hwait hnum hn
  obtain ⟨k, m, hk, hwake⟩ := wake_cases hn
  have hr0 : getReg 0 (awakened k m s) = BitVec.ofNat 32 k := by simp [awakened]
  have hnumber : (BitVec.ofNat 32 k).toNat = k := toNat_ofNat_of_eligible hnum hk
  have hframe := OnlyChanges.awakened k m s
  have htaken : OnlyChanges [.run, .reg 0, .pending, .gen] s (takeInterrupt n (awakened k m s)) :=
    (hframe.mono (by simp)).takeInterrupt n (by simp) (by simp)
  rw [act_wake_self hwait hn, hwake]
  refine ⟨fun hie => ?_, fun g hie hguest hg => ?_, fun hie hg => ?_⟩
  · rw [hie]
    refine ⟨_, rfl, rfl, rfl, ?_, (hframe.mono (by simp)).advance (by simp)⟩
    rwa [if_neg (by decide), getReg_advance, hr0, hnumber]
  · rw [if_pos hie]
    have hg' : (takeInterrupt n (awakened k m s)).self.gevb = some g := hg
    obtain ⟨⟨hgelr, -, -, -, -, hie', -, -, hrecorded, hpc⟩, -⟩ :=
      takeEvent_entered (.interrupt n) (s.self.pc + 4) hg'
    have hgsr := takeEvent_interrupt_gsr hg' hguest hie ((lt_of_nextInt hn).trans_le hnum) (s.self.pc + 4)
    have hentry := OnlyChanges.takeEvent_guest hg' hguest (e := .interrupt n) rfl (s.self.pc + 4)
    have hreg := hentry (.reg 0) (by decide)
    obtain ⟨hpending, hgen, hother⟩ :=
      bits_of_takeInterrupt (s := s) (hentry .pending (by decide)) (hentry .gen (by decide))
    refine ⟨_, rfl, hentry .run (by decide), ?_, hgelr, hgsr, hie', hrecorded, hpc, hpending, hgen, hother,
      (htaken.mono (by simp)).trans (hentry.mono (by simp))⟩
    rwa [Eq.trans hreg hr0, hnumber]
  · rw [if_pos hie, takeEvent_unconfigured (s := takeInterrupt n (awakened k m s)) hg]
    obtain ⟨hpending, hgen, hother⟩ :=
      bits_of_takeInterrupt (n := n) (s := s) (t := stopVP (takeInterrupt n (awakened k m s))) rfl rfl
    exact ⟨_, rfl, rfl, hpending, hgen, hother,
      (htaken.mono (by simp)).trans ((OnlyChanges.stopVP _).mono (by simp))⟩

end Sys2Proof.Machine
end

section
/-! PROOFS. vmversion, and a machine that conforms to another version (46_environment.md R260). -/

namespace Sys2Proof.Machine

/-- `VER <- v`. -/
theorem OnlyChanges.withVer (s : State) (v : Word) : OnlyChanges [.ver] s { s with ver := v } := by
  intro p hp
  cases p with
  | ver => exact absurd (by decide) hp
  | memory => exact fun _ => rfl
  | _ => rfl

theorem thisVersion_mem_versions (p : Params) : 0x700#32 ∈ versions p := List.mem_cons_self

/-- Everything `vmversion` can do in Guest mode: it answers the requested version where the VMM can conform to
it, and otherwise draws one of those it can conform to. -/
theorem execVmversion_guest {s : State} (hguest : s.self.um = false) :
    ∃ v ∈ versions s.params, (getReg 0 s ∈ versions s.params → v = getReg 0 s) ∧
      ∃ n, execVmversion s = done (setReg 0 v { s with ver := v, free := n }) := by
  rw [execVmversion, requireGuest_guest hguest]
  by_cases hreq : getReg 0 s ∈ versions s.params
  · exact ⟨_, hreq, fun _ => rfl, s.free, if_pos hreq⟩
  · obtain ⟨v, hv, n, hdraw⟩ := drawFrom_eq 0x700 (List.ne_nil_of_mem (thisVersion_mem_versions s.params)) s
    refine ⟨v, hv, fun h => absurd h hreq, n, ?_⟩
    dsimp only
    rw [if_neg hreq, hdraw]

/-- 46_environment.md R260, decision D28: this model gives another version no meaning. -/
theorem step_of_otherVersion {s : State} (hlive : live s ≠ []) (hver : s.ver ≠ 0x700#32) :
    step s = .refused (.otherVersion s.ver) := by
  simp [step, machineStep, hlive, hver]

/-- Settles O51: R0 and `VER` take the same version, and this spec's version is one the VMM always conforms to. -/
theorem vmversionConformsToTheRequest : Obligations.VmversionConformsToTheRequest := by
  refine ⟨fun s hguest => ?_, fun s => step_of_otherVersion⟩
  obtain ⟨v, hmem, hrequested, n, hexec⟩ := execVmversion_guest hguest
  have hthis (h : getReg 0 s = 0x700#32) : v = 0x700#32 :=
    (hrequested (h ▸ thisVersion_mem_versions s.params)).trans h
  have hframe := ((OnlyChanges.withVer s v).free n).withResult v
  exact ⟨_, hexec, by simp, hmem, hrequested, hthis, rfl, hframe⟩

end Sys2Proof.Machine
end

section
/-! PROOFS. Events: numbers and codes, the privilege violation, entry, return, delivery (60_exceptions.md R270 to R289,
R300). -/

namespace Sys2Proof.Machine

/-! ### Codes and data addresses -/

/-- The general exception of a code of Table 7-1 (60_exceptions.md R276), with the data address that it reports. -/
def generalOfCode (code : BitVec 16) (va : Word) : GeneralCause :=
  match code.toNat with
  | 0x01 => .preciseBus
  | 0x11 => .executeProtection
  | 0x14 => .userFetch
  | 0x15 => .invalidPacket
  | 0x1B => .privilege
  | 0x1C => .misalignedPc
  | 0x20 => .misalignedLoad va
  | 0x21 => .misalignedStore va
  | 0x22 => .loadProtection va
  | 0x23 => .storeProtection va
  | 0x24 => .loadUser va
  | 0x25 => .storeUser va
  | 0x28 => .cacheConflict
  | _ => .registerCollision

/-- A general exception is given by its code and what GBADVA reports. -/
theorem generalOfCode_generalCode (c : GeneralCause) :
    generalOfCode (generalCode c) ((eventBadva (.general c)).getD 0) = c := by
  cases c <;> rfl

theorem general_eq_of_code_eq {c d : GeneralCause} (hcode : generalCode c = generalCode d)
    (hbadva : eventBadva (.general c) = eventBadva (.general d)) : c = d := by
  rw [← generalOfCode_generalCode c, hcode, hbadva, generalOfCode_generalCode]

/-- 10_state.md R27: the code decides whether GBADVA reports an address. -/
theorem exists_eventBadva_general_iff (c : GeneralCause) :
    (∃ va, eventBadva (.general c) = some va) ↔
      0x20 ≤ (generalCode c).toNat ∧ (generalCode c).toNat ≤ 0x25 := by
  cases c <;> simp [eventBadva, generalCode]

theorem exists_eventBadva_iff (e : Event) :
    (∃ va, eventBadva e = some va) ↔
      ∃ c, e = .general c ∧ 0x20 ≤ (generalCode c).toNat ∧ (generalCode c).toNat ≤ 0x25 := by
  cases e with
  | general c => simp [exists_eventBadva_general_iff]
  | machineCheck c | trap0 imm | interrupt n => simp [eventBadva]

/-- Settles O9: the tables are the model's definitions; the code decides whether there is a data address, and with
that address it gives the exception back. -/
theorem causesWithADataAddressAreExactly20To25 : Obligations.CausesWithADataAddressAreExactly20To25 := by
  refine ⟨fun _ _ _ => ⟨rfl, fun _ => rfl, rfl, rfl⟩, fun _ _ _ _ => ⟨rfl, rfl, rfl, rfl⟩, exists_eventBadva_iff,
    fun _ => ⟨rfl, rfl, rfl, rfl, rfl, rfl, rfl, rfl, rfl, rfl, rfl, rfl, rfl, rfl⟩,
    fun _ => ⟨rfl, rfl, rfl, rfl, rfl, rfl⟩, fun _ _ => general_eq_of_code_eq, fun c d hcode => ?_,
    rfl, rfl, rfl, rfl, rfl⟩
  rw [exists_eventBadva_general_iff, hcode, exists_eventBadva_general_iff]

/-! ### Entry -/

/-- Settles O8: the entry sequence with its frame. -/
theorem eventEntryWritesTheRecordAndVectors : Obligations.EventEntryWritesTheRecordAndVectors :=
  fun e elr _ _ hg => takeEvent_entered e elr hg

/-- Settles O10: without a vector table an event is the stop of the processor or of the machine. -/
theorem eventsWithoutAVectorTableStop : Obligations.EventsWithoutAVectorTableStop := by
  intro e elr s hg
  rw [takeEvent_unconfigured hg]
  refine ⟨fun hother => ?_, fun hmc => ?_⟩
  · rw [if_neg (by simp [hother])]
    exact ⟨live_stopVP s, .stopVP s⟩
  · rw [if_pos hmc]
    exact ⟨live_stopVM s, .stopVM s⟩

/-! ### The privilege violation -/

/-- Every virtual instruction checks the mode before anything else (60_exceptions.md R300). -/
theorem exec_user {i : Instr} {s : State} (hi : ∀ imm, i ≠ .trap0 imm) (huser : s.self.um = true) :
    exec i s = .next (raiseHere (.general .privilege) s) := by
  cases i with
  | trap0 imm => exact absurd rfl (hi imm)
  | _ => exact if_pos huser

/-- Settles O6: the privilege check, and the entry sequence with a vector table. -/
theorem userModeVirtualInstructionsRaisePrivilege : Obligations.UserModeVirtualInstructionsRaisePrivilege := by
  intro i s hi huser
  have hraise := exec_user hi huser
  refine ⟨hraise, rfl, rfl, fun g hg => ?_⟩
  obtain ⟨hentered, -, hframe⟩ := takeEvent_entered (.general .privilege) s.self.pc hg
  have hcause := hentered.gsrCause
  obtain ⟨hgelr, -⟩ := hentered
  exact ⟨_, hraise, hgelr, hcause, hframe⟩

/-! ### Entry, then return -/

/-- The two exchanges of R29 and GOSP cancel, and the record stays behind (60_exceptions.md R289). -/
theorem leaveEvent_enterEvent (e : Event) (g bad : Word) (v : VP) :
    leaveEvent (enterEvent e v.pc g bad v) =
      { v with
        gelr := v.pc, gsr := gsrImage v.um v.ie (eventCause e), gbadva := bad,
        mch := v.mch || isMachineCheck e, recorded := true } := by
  cases hum : v.um with
  | true => simp [leaveEvent, enterEvent, hum, swapSp]
  | false => simp [leaveEvent, enterEvent, hum]

/-- With a vector table, raising an event is the entry sequence with the packet's address as link. -/
theorem raiseHere_eq {s : State} {g : Word} (hg : s.self.gevb = some g) (e : Event) :
    ∃ bad n, raiseHere e s = { s with self := enterEvent e s.self.pc g bad s.self, free := n } := by
  rcases takeEvent_cases e s.self.pc s with ⟨g', bad, n, hg', -, he⟩ | ⟨hnone, -⟩ | ⟨hnone, -⟩
  · obtain rfl : g' = g := Option.some.inj (hg'.symm.trans hg)
    exact ⟨bad, n, he⟩
  · exact absurd (hnone.symm.trans hg) nofun
  · exact absurd (hnone.symm.trans hg) nofun

/-- The record of an event, as a frame. -/
theorem OnlyChanges.withRecord (s : State) (g0 g1 g3 : Word) (mch recorded : Bool) :
    OnlyChanges [.gelr, .gsr, .gbadva, .mch, .recorded] s
      { s with self := { s.self with gelr := g0, gsr := g1, gbadva := g3, mch := mch, recorded := recorded } } := by
  intro p hp
  cases p with
  | gelr | gsr | gbadva | mch | recorded => exact absurd (by decide) hp
  | memory => exact fun _ => rfl
  | _ => rfl

/-- Settles O11: `vmrte` is honoured after the entry, and the two exchanges cancel. -/
theorem entryThenVmrteRestoresTheProcessor : Obligations.EntryThenVmrteRestoresTheProcessor := by
  intro e g s hg hresume
  obtain ⟨bad, n, hraise⟩ := raiseHere_eq hg e
  have hhonoured : (s.self.mch || isMachineCheck e) = false ∨ s.params.mcResume = true :=
    hresume.symm.imp_left fun ⟨hno, he⟩ => by rw [hno, he]; rfl
  have hreturn : execVmrte (raiseHere e s) = .next (returnFromEvent (raiseHere e s)) := by
    rw [hraise]
    exact execVmrte_honoured (enterEvent_um ..) hhonoured
  rw [exec_vmrte, hreturn, hraise, returnFromEvent, leaveEvent_enterEvent]
  exact ⟨_, rfl, rfl, rfl, rfl, rfl, rfl, rfl, rfl, rfl, rfl, (OnlyChanges.withRecord s _ _ _ _ _).free n⟩

/-! ### Delivery -/

/-- 60_exceptions.md R281: the action takes the next interrupt. -/
theorem act_deliver_self {s : State} {n : Nat} (hrun : s.self.run = .running) (hie : s.self.ie = true)
    (hn : nextInt s s.self.len = some n) : act (.deliver s.self.vpid) s = .next (deliver n s) := by
  have hseat : focus s.self.vpid s = some s := focus_self (by simp [hrun])
  simp only [act, hseat, deliverable, hrun, hie, hn, decide_true, Bool.and_self, if_true]

theorem act_machineCheck_self {s : State} {c : McCause} (hrun : s.self.run = .running ∨ s.self.run = .waiting)
    (hc : c ≠ .badMapping) : act (.machineCheck s.self.vpid c) s = .next (machineCheck c s) := by
  have hseat : focus s.self.vpid s = some s := focus_self (by rcases hrun with h | h <;> simp [h])
  have henv : environmentCheck c = true := by
    cases c with
    | badMapping => exact absurd rfl hc
    | _ => rfl
  simp only [act, hseat, henv, if_true]

/-- An interrupt that is not pending is eligible for no processor. -/
theorem eligible_of_not_pending {s : State} {n : Nat} (h : hasBit s.pending n = false) (len : Nat) :
    eligible s len n = false := by
  simp [eligible, h]

theorem takeEvent_pending (e : Event) (elr : Word) (s : State) : (takeEvent e elr s).pending = s.pending := by
  rcases takeEvent_cases e elr s with ⟨_, _, _, -, -, he⟩ | ⟨-, -, he⟩ | ⟨-, -, he⟩ <;> rw [he] <;> rfl

theorem takeEvent_gen (e : Event) (elr : Word) (s : State) : (takeEvent e elr s).gen = s.gen := by
  rcases takeEvent_cases e elr s with ⟨_, _, _, -, -, he⟩ | ⟨-, -, he⟩ | ⟨-, -, he⟩ <;> rw [he] <;> rfl

/-- Settles O46: the interrupt is taken before the event, and the machine check runs the processor before it. -/
theorem interruptsAndMachineChecksAreDelivered : Obligations.InterruptsAndMachineChecksAreDelivered := by
  constructor
  · intro s n hrun hie hn
    obtain ⟨hpending, hgen, hother⟩ :=
      bits_of_takeInterrupt (t := deliver n s) (takeEvent_pending _ _ _) (takeEvent_gen _ _ _)
    have htaken : OnlyChanges [.pending, .gen] s (takeInterrupt n s) :=
      (OnlyChanges.refl _ s).takeInterrupt n (by simp) (by simp)
    refine ⟨_, act_deliver_self hrun hie hn, eligible_of_not_pending hpending, hpending, hgen, hother,
      fun g hg => ?_, fun hnone => ?_⟩
    · obtain ⟨hentered, -, hframe⟩ := takeEvent_entered (.interrupt n) s.self.pc (s := takeInterrupt n s) hg
      exact ⟨hentered, (htaken.mono (by simp)).trans (hframe.mono fun p hp => by simp [hp])⟩
    · have hstop : deliver n s = stopVP (takeInterrupt n s) :=
        takeEvent_unconfigured (s := takeInterrupt n s) hnone _ _
      rw [hstop]
      exact ⟨live_stopVP _, (htaken.mono (by simp)).trans ((OnlyChanges.stopVP _).mono (by simp))⟩
  · intro s c hrun hc
    have hresumed := OnlyChanges.withRun s .running
    refine ⟨_, act_machineCheck_self hrun hc, fun g hg => ?_, fun hnone => ?_⟩
    · obtain ⟨hentered, -, hframe⟩ := takeEvent_entered (.machineCheck c) s.self.pc
        (s := { s with self := { s.self with run := .running } }) hg
      have hmch : (machineCheck c s).self.mch = true := by
        obtain ⟨-, -, -, -, -, -, -, hmch, -⟩ := hentered
        exact hmch.trans (Bool.or_true _)
      exact ⟨hframe .run (by decide), hmch, hentered,
        (hresumed.mono (by simp)).trans (hframe.mono fun p hp => by simp [hp])⟩
    · have hstop : machineCheck c s = stopVM { s with self := { s.self with run := .running } } :=
        takeEvent_unconfigured (s := { s with self := { s.self with run := .running } }) hnone _ _
      rw [hstop]
      exact ⟨live_stopVM _, (hresumed.mono (by simp)).trans ((OnlyChanges.stopVM _).mono (by simp))⟩

end Sys2Proof.Machine
end

section
/-! PROOFS. The global enables (10_state.md R36, 60_exceptions.md R282): which instruction sets one. -/

namespace Sys2Proof.Machine

/-- The global enables are as in `s`. -/
def SameGen (s t : State) : Prop := t.gen = s.gen

theorem SameGen.refl (s : State) : SameGen s s := rfl

/-- The privilege violation leaves the global enables. -/
theorem Leads.guestSameGen {s : State} {body : State → Result} (hbody : Leads (SameGen s) (body s)) :
    Leads (SameGen s) (Machine.requireGuest s body) := Leads.requireGuest (takeEvent_gen _ _ s) hbody

theorem setTimer_sameGen (d : DWord) (s : State) : SameGen s (setTimer d s) := by
  unfold setTimer
  split_ifs <;> rfl

theorem execVmversion_sameGen (s : State) : Leads (SameGen s) (execVmversion s) := by
  refine .guestSameGen ?_
  dsimp only
  split_ifs
  · exact .done (.refl s)
  · obtain ⟨v, -, n, hd⟩ := drawFrom_eq 0x700 (l := versions s.params) (List.cons_ne_nil _ _) s
    rw [hd]
    exact .done (.refl s)

theorem execVmrte_sameGen (s : State) : Leads (SameGen s) (execVmrte s) := by
  refine .guestSameGen ?_
  split_ifs
  · exact .next (.refl s)
  · exact .next (.refl s)
  · exact .refused _

theorem execVmnewmap_sameGen (s : State) : Leads (SameGen s) (execVmnewmap s) := by
  refine .guestSameGen ?_
  split
  · exact .done (.refl s)
  · split_ifs <;> exact .done (.refl s)

theorem rangeOperation_sameGen {s : State} {work : List (Nat × Nat) → State → State}
    (hwork : ∀ spans n, SameGen s (work spans { s with free := n })) :
    Leads (SameGen s) (rangeOperation work s) := by
  unfold rangeOperation
  rcases rangeCheck_cases (getReg 1 s) (getReg 2 s).toNat s with
    ⟨spans, n, hr⟩ | ⟨va, n, hr⟩ | ⟨n, hr⟩ | ⟨st, hr⟩ <;> rw [hr]
  · exact .done (hwork spans n)
  · exact .next (takeEvent_gen _ _ { s with free := n })
  · exact .next (takeEvent_gen _ _ { s with free := n })
  · exact .stop st

theorem execVmcache_sameGen (s : State) : Leads (SameGen s) (execVmcache s) := by
  refine .guestSameGen ?_
  dsimp only
  cases cacheOpOf (getReg 0 s) with
  | ickill | dckill | l2kill => exact .done (.refl s)
  | dccleaninva | icinva | idsync => exact rangeOperation_sameGen fun _ _ => .refl s
  | reserved =>
    obtain ⟨v, -, n, hd⟩ := drawFrom_eq 0 (l := [0, minusOne]) (List.cons_ne_nil _ _) s
    rw [hd]
    exact .done (.refl s)

theorem execVmstart_sameGen (s : State) : Leads (SameGen s) (execVmstart s) := by
  refine .guestSameGen ?_
  cases freeVpids s with
  | nil => exact .done (.refl s)
  | cons k rest =>
    obtain ⟨id, -, n, hd⟩ := drawFrom_eq k (List.cons_ne_nil k rest) s
    dsimp only
    rw [hd]
    exact .next (.refl s)

/-- No instruction but `vmintop` reaches the global enables. -/
theorem exec_sameGen {i : Instr} (hi : i ≠ .vmintop) (s : State) : Leads (SameGen s) (exec i s) := by
  cases i with
  | vmintop => exact absurd rfl hi
  | vmversion => exact execVmversion_sameGen s
  | vmrte => exact execVmrte_sameGen s
  | vmcache => exact execVmcache_sameGen s
  | vmstart => exact execVmstart_sameGen s
  | vmnewmap => exact execVmnewmap_sameGen s
  | vmsetvec =>
    apply Leads.guestSameGen
    dsimp only
    split_ifs <;> exact .done (.refl s)
  | vmsettime =>
    apply Leads.guestSameGen
    exact .done (setTimer_sameGen _ s)
  | vmclrmap | vmsetie | vmgetie | vmgettime | vmyield | vmvpid | vmsetregs | vmgetregs =>
    apply Leads.guestSameGen
    exact .done (.refl s)
  | vmwait | vmstop =>
    apply Leads.guestSameGen
    exact .next (.refl s)
  | trap1Reserved imm => exact Leads.guestSameGen (body := fun _ => .refused _) (.refused _)
  | trap0 imm => exact .next (takeEvent_gen _ _ s)

/-- `t` has no interrupt globally enabled that `s` has not, but for those that meet `P`. -/
def NewlyEnabled (P : Nat → Prop) (s t : State) : Prop :=
  ∀ n, hasBit t.gen n = true → hasBit s.gen n = true ∨ P n

theorem NewlyEnabled.of_sameGen {P : Nat → Prop} {s t : State} (h : SameGen s t) : NewlyEnabled P s t :=
  fun _ hn => .inl (h ▸ hn)

/-- Writing one global enable: only a set bit can be new. -/
theorem NewlyEnabled.of_putBit {P : Nat → Prop} {s t : State} {i : Nat} {b : Bool} (hb : b = true → P i)
    (ht : t.gen = putBit s.gen i b) : NewlyEnabled P s t := by
  intro n hn
  rw [ht, hasBit_putBit] at hn
  split_ifs at hn with hni
  · exact .inr (hni ▸ hb hn)
  · exact .inl hn

theorem intopGet_newlyEnabled {P : Nat → Prop} (i : Nat) (s : State) :
    Leads (NewlyEnabled P s) (intopGet i s) := by
  cases hn : nextInt s s.self.len with
  | none =>
    rw [intopGet, hn]
    exact .doneWith (.of_sameGen rfl)
  | some n =>
    obtain ⟨m, ⟨k, -, htake⟩ | ⟨-, -, hminus⟩⟩ := intopGet_cases hn i
    · rw [htake]
      exact .doneWith (.of_putBit (b := false) nofun rfl)
    · rw [hminus]
      exact .doneWith (.of_sameGen rfl)

theorem intOpOf_eq_globen_iff {r0 : Word} : intOpOf r0 = .globen ↔ r0 = 1#32 := by
  refine ⟨fun h => BitVec.eq_of_toNat_eq ?_, fun h => h ▸ rfl⟩
  unfold intOpOf at h
  split at h
  case h_2 h1 => exact h1
  all_goals cases h

/-- 41_interrupt_management.md R171: GLOBEN sets the enable of the interrupt that R1 names, and no other operation
sets one. -/
theorem execVmintop_newlyEnabled (s : State) :
    Leads (NewlyEnabled (fun n => getReg 0 s = 1#32 ∧ (getReg 1 s).toNat = n) s) (execVmintop s) := by
  refine .requireGuest (.of_sameGen (takeEvent_gen _ _ s)) ?_
  dsimp only
  cases hop : intOpOf (getReg 0 s) with
  | globen =>
    dsimp only [intopGlobal]
    split_ifs
    · exact .doneWith (.of_putBit (fun _ => ⟨intOpOf_eq_globen_iff.1 hop, rfl⟩) rfl)
    · exact .doneWith (.of_sameGen rfl)
  | globdis =>
    dsimp only [intopGlobal]
    split_ifs
    · exact .doneWith (.of_putBit (b := false) nofun rfl)
    · exact .doneWith (.of_sameGen rfl)
  | get => exact intopGet_newlyEnabled _ s
  | nop | other => exact .doneWith (.of_sameGen rfl)
  | locen | locdis | affinity | status | post | clear =>
    dsimp only [intopLocal, intopAffinity, intopStatus, intopPending]
    split_ifs <;> exact .doneWith (.of_sameGen rfl)
  | peek =>
    dsimp only [intopPeek]
    split <;> exact .doneWith (.of_sameGen rfl)

/-- Settles O60: an enable that is new was set by `vmintop`, and there by GLOBEN. -/
theorem onlyGlobenReenablesAnInterrupt : Obligations.OnlyGlobenReenablesAnInterrupt := by
  intro i s t n hexec hclear hset
  have hnot : ¬ hasBit s.gen n = true := by simp [hclear]
  by_cases hi : i = .vmintop
  · subst hi
    exact ⟨rfl, (execVmintop_newlyEnabled s t hexec n hset).resolve_left hnot⟩
  · have hgen : t.gen = s.gen := exec_sameGen hi s t hexec
    exact absurd (hgen ▸ hset) hnot

end Sys2Proof.Machine
end

section
/-! PROOFS. What a packet in User mode reaches (60_exceptions.md R301): memory only in the pages that User mode may
write, and of the processor what a base packet or an event writes. -/

namespace Sys2Proof.Machine

variable {A : Nat → Prop} {s t : State} {va : Word} {x : Xlat} {n k : Nat} {l : Lookup}

/-! ### The pages that User mode may write -/

/-- `A` holds the logical page of `x`, which is aligned. -/
def HoldsPage (A : Nat → Prop) (x : Xlat) : Prop :=
  pageBase x.size x.page = x.page ∧ ∀ k, k < pageBytes x.size → A (x.page.toNat + k)

/-- A byte that `x` gives an address of a 4 KB page. -/
theorem HoldsPage.byte (h : HoldsPage A x) (hk : va.toNat % 4096 + k < 4096) : A ((xlatAddr x va).toNat + k) := by
  obtain ⟨halign, hpage⟩ := h
  rw [← xlatAddr_byteAt halign hk, xlatAddr_toNat halign]
  exact hpage _ (Nat.mod_lt _ (Nat.two_pow_pos _))

/-- The bytes of a granted access follow each other, since they end before 2^32. -/
theorem byteAt_xlatAddr (halign : pageBase x.size x.page = x.page) (hk : va.toNat % 4096 + k < 4096) :
    (byteAt (xlatAddr x va) k).toNat = (xlatAddr x va).toNat + k := by
  have hlt : (xlatAddr x va).toNat + k < 2 ^ 32 := by
    rw [← xlatAddr_byteAt halign hk]
    exact (xlatAddr x (byteAt va k)).isLt
  simp only [byteAt, BitVec.toNat_add, BitVec.toNat_ofNat]
  omega

/-- An answer of Lookup that User mode may write through is of a page in `A`. -/
def WritesInto (A : Nat → Prop) (l : Lookup) : Prop :=
  ∀ x, l = .hit x → x.u = true → x.w = true → HoldsPage A x

/-- The processor is in User mode, and `A` holds every page that it may write. -/
structure UserOwns (A : Nat → Prop) (s : State) : Prop where
  user : s.self.um = true
  pages : HoldsUserPages s A
  cached : ∀ c ∈ s.self.tc, CachedOk c

/-- 20_memory.md R70: Lookup answers by a walk or by a cached member. -/
theorem UserOwns.answer (h : UserOwns A s) (hva : va.toNat < 0xFF000000)
    (hl : walk s.params s.lm s.self.map va = .answer l ∨ ∃ c ∈ s.self.tc, covers va c = true ∧ c.answer = l) :
    WritesInto A l := by
  obtain ⟨hwalks, hcached⟩ := h.pages
  rintro x rfl hu hw
  obtain hwalk | ⟨c, hc, -, hans⟩ := hl
  · exact ⟨walk_page hwalk, hwalks s.lm (fun _ _ => rfl) va x hva hwalk hu hw⟩
  · obtain ⟨-, halign⟩ := (h.cached c hc).2 x hans
    exact ⟨halign, hcached c hc x hans hu hw⟩

/-! ### Steps of a packet -/

/-- From a state in which `A` holds what User mode may write, `t` is such a state again, and memory changed only in
`A`. -/
def WritesWithin (A : Nat → Prop) (s t : State) : Prop :=
  UserOwns A s → UserOwns A t ∧ ∀ a, ¬A a → memGet t.lm a = memGet s.lm a

theorem WritesWithin.refl (s : State) : WritesWithin A s s := fun h => ⟨h, fun _ _ => rfl⟩

theorem WritesWithin.trans {u : State} (h1 : WritesWithin A s t) (h2 : WritesWithin A t u) : WritesWithin A s u := by
  intro h
  obtain ⟨ht, hst⟩ := h1 h
  obtain ⟨hu, htu⟩ := h2 ht
  exact ⟨hu, fun a ha => (htu a ha).trans (hst a ha)⟩

/-- A walk over memory that changed in `A` is one of those that `A` was chosen for. -/
theorem HoldsUserPages.of_memory (h : HoldsUserPages s A) {m : Memory}
    (hm : ∀ a, ¬A a → memGet m a = memGet s.lm a) : HoldsUserPages { s with lm := m } A := by
  obtain ⟨hwalks, hcached⟩ := h
  exact ⟨fun m' hm' => hwalks m' fun a ha => (hm' a ha).trans (hm a ha), hcached⟩

/-- Memory changes in `A`; registers, what fetches may still see and the counter of free values change at will. -/
theorem WritesWithin.of_memory (s : State) {m : Memory} (hm : UserOwns A s → ∀ a, ¬A a → memGet m a = memGet s.lm a)
    (regs : Vector Word 32) (other : List Word) (st : List StaleByte) (n : Nat) :
    WritesWithin A s
      { s with self := { s.self with regs := regs, other := other }, lm := m, stale := st, free := n } :=
  fun h => ⟨⟨h.user, h.pages.of_memory (hm h), h.cached⟩, hm h⟩

/-- Memory does not change. -/
theorem WritesWithin.of_rest (s : State) (regs : Vector Word 32) (other : List Word) (st : List StaleByte) (n : Nat) :
    WritesWithin A s { s with self := { s.self with regs := regs, other := other }, stale := st, free := n } :=
  .of_memory s (fun _ _ _ => rfl) regs other st n

theorem WritesWithin.of_free (s : State) (n : Nat) : WritesWithin A s { s with free := n } :=
  .of_rest s s.self.regs s.self.other s.stale n

theorem WritesWithin.of_stale (s : State) (st : List StaleByte) : WritesWithin A s { s with stale := st } :=
  .of_rest s s.self.regs s.self.other st s.free

/-- What an access that completes leaves is within `A`. -/
def AccessWithin {α : Type} (A : Nat → Prop) (s : State) : Access α → Prop
  | .ok _ t => WritesWithin A s t
  | .raise _ _ => True
  | .stop _ => True

theorem AccessWithin.trans {α : Type} {a : Access α} (h2 : AccessWithin A t a) (h1 : WritesWithin A s t) :
    AccessWithin A s a := by
  cases a with
  | ok x u => exact WritesWithin.trans h1 h2
  | raise e u => trivial
  | stop st => trivial

/-! ### Translated accesses -/

theorem Touched.cachedOk (h : Touched s t) (hs : ∀ c ∈ s.self.tc, CachedOk c) : ∀ c ∈ t.self.tc, CachedOk c := by
  obtain ⟨tc, n, rfl, htc⟩ := h
  exact htc hs

theorem cachedOf_answer (va : Word) (l : Lookup) : (cachedOf va l).answer = l := by
  cases l <;> rfl

theorem mem_keepCached {c d : Cached} {v : VP} (h : d ∈ (keepCached c v).tc) : d = c ∨ d ∈ v.tc := by
  unfold keepCached at h
  dsimp only at h
  split_ifs at h
  · exact .inr h
  · exact List.mem_cons.1 h

/-- A cached translation that User mode may write through stays one into `A`. -/
theorem HoldsUserPages.keepCached (h : HoldsUserPages s A) (hl : WritesInto A l) (va : Word) :
    HoldsUserPages { s with self := keepCached (cachedOf va l) s.self } A := by
  obtain ⟨hwalks, hcached⟩ := h
  refine ⟨hwalks, fun c hc x hans hu hw => ?_⟩
  obtain rfl | hold := mem_keepCached hc
  · exact (hl x ((cachedOf_answer va l).symm.trans hans) hu hw).2
  · exact hcached c hold x hans hu hw

/-- A granted access keeps a translation, and a granted store in User mode is through a page in `A`. -/
theorem UserOwns.translate (h : UserOwns A s) {acc : AccessKind} {a : Located}
    (ht : translate acc va n s = .ok a t) :
    UserOwns A t ∧ t.lm = s.lm ∧ (acc = .store → ∃ x, a.la = xlatAddr x va ∧ HoldsPage A x) := by
  have htouched := translate_touched acc va n s
  rw [ht] at htouched
  obtain ⟨hva, l, k, hsource, hcheck⟩ := translate_ok_checked ht
  obtain ⟨x, rfl, rfl, rfl, ⟨-, hstore, -⟩, -, huser, -⟩ := checkAccess_ok hcheck
  have hinto := h.answer hva hsource
  exact ⟨⟨h.user, h.pages.keepCached hinto va, htouched.cachedOk h.cached⟩, rfl,
    fun hacc => ⟨x, rfl, hinto x rfl (huser h.user) (hstore hacc)⟩⟩

theorem translate_within (acc : AccessKind) (va : Word) (n : Nat) (s : State) :
    AccessWithin A s (translate acc va n s) := by
  cases ht : translate acc va n s with
  | ok a t =>
    intro h
    obtain ⟨howns, hlm, -⟩ := h.translate ht
    exact ⟨howns, fun a _ => by rw [hlm]⟩
  | raise e t => trivial
  | stop st => trivial

theorem memRead_within (va : Word) (z : AccessSize) (s : State) : AccessWithin A s (memRead va z s) := by
  have h := translate_within (A := A) .load va (accessBytes z) s
  unfold memRead
  split_ifs
  · trivial
  · revert h
    cases translate .load va (accessBytes z) s with
    | ok a t =>
      intro h
      dsimp only
      cases lmRead t.params t.lm a.la (accessBytes z) with
      | bytes bs => exact h
      | inaccessible => trivial
    | raise e t => exact id
    | stop st => exact id

/-- The bytes of an aligned access are in one 4 KB page. -/
theorem aligned_inPage {z : AccessSize} (h : va.toNat % accessBytes z = 0) (hk : k < accessBytes z) :
    va.toNat % 4096 + k < 4096 := by
  cases z <;> simp only [accessBytes] at h hk <;> omega

/-- A store in User mode is through a translation of a page in `A`. -/
theorem memWrite_within (va : Word) (z : AccessSize) (v : DWord) (s : State) :
    AccessWithin A s (memWrite va z v s) := by
  unfold memWrite
  split_ifs with hmis
  · trivial
  · have halign : va.toNat % accessBytes z = 0 := by simpa using hmis
    cases ht : translate .store va (accessBytes z) s with
    | ok a t =>
      intro h
      obtain ⟨howns, hlm, hstore⟩ := h.translate ht
      obtain ⟨x, hla, hpage⟩ := hstore rfl
      have hpageAlign : pageBase x.size x.page = x.page := hpage.1
      obtain ⟨m, st, hwrite, hframe⟩ := lmWrite_eq a.la (accessBytes z) v.toNat t
      have hm : ∀ b, ¬A b → memGet m b = memGet t.lm b := fun b hb => hframe b fun k hk hbk => by
        have hin := aligned_inPage halign hk
        rw [hbk, hla, byteAt_xlatAddr hpageAlign hin] at hb
        exact hb (hpage.byte hin)
      show UserOwns A (lmWrite a.la (accessBytes z) v.toNat t) ∧ _
      rw [hwrite]
      refine ⟨⟨howns.user, howns.pages.of_memory hm, howns.cached⟩, fun b hb => ?_⟩
      rw [← hlm]
      exact hm b hb
    | raise e t => trivial
    | stop st => trivial

/-! ### Fetches -/

/-- Fetching bytes only draws. -/
theorem fetchBytes_state (l : List Nat) (s : State) : ∃ n, (fetchBytes l s).2 = { s with free := n } := by
  induction l generalizing s with
  | nil => exact ⟨s.free, rfl⟩
  | cons a rest ih =>
    obtain ⟨n, hn⟩ := drawFrom_state none (fetchOptions a s) s
    obtain ⟨m, hm⟩ := ih (drawFrom none (fetchOptions a s) s).2
    exact ⟨m, hm.trans (by rw [hn])⟩

theorem fetch_within (va : Word) (s : State) : AccessWithin A s (fetch va s) := by
  have h := translate_within (A := A) .fetch va 4 s
  unfold fetch
  split_ifs
  · trivial
  · revert h
    cases translate .fetch va 4 s with
    | ok a t =>
      intro h
      dsimp only
      generalize lmAddrs a.la 4 = l
      have hbytes : WritesWithin A t (fetchBytes l t).2 := by
        obtain ⟨n, hn⟩ := fetchBytes_state l t
        rw [hn]
        exact .of_free t n
      exact WritesWithin.trans h hbytes
    | raise e t => exact id
    | stop st => exact id

theorem fetchWord_within (va : Word) (s : State) : AccessWithin A s (fetchWord va s) := by
  have h := fetch_within (A := A) va s
  unfold fetchWord
  revert h
  cases fetch va s with
  | ok bs t =>
    intro h
    rcases bs with _ | ⟨b0, _ | ⟨b1, _ | ⟨b2, _ | ⟨b3, rest⟩⟩⟩⟩
    case cons.cons.cons.cons => exact h
    all_goals trivial
  | raise e t => exact id
  | stop st => exact id

theorem fetchLater_within (va : Word) (s : State) : AccessWithin A s (fetchLater va s) := by
  have h := fetchWord_within (A := A) va s
  unfold fetchLater
  revert h
  cases fetchWord va s with
  | ok w t =>
    intro h
    dsimp only [laterWord]
    split_ifs
    · trivial
    · exact h
  | raise e t => exact id
  | stop st => exact id

theorem laterWords_within (fuel : Nat) (w va : Word) (s : State) : AccessWithin A s (laterWords fuel w va s) := by
  induction fuel generalizing w va s with
  | zero => exact WritesWithin.refl s
  | succ n ih =>
    have h := fetchLater_within (A := A) va s
    unfold laterWords
    split_ifs
    · revert h
      cases fetchLater va s with
      | ok x t =>
        intro h
        have hrest := (ih x (va + 4) t).trans h
        dsimp only
        revert hrest
        cases laterWords n x (va + 4) t with
        | ok xs u => exact id
        | raise e u => exact id
        | stop st => exact id
      | raise e t => exact id
      | stop st => exact id
    · exact WritesWithin.refl s

theorem packetWords_within (w : Word) (s : State) : AccessWithin A s (packetWords w s) := by
  have h := laterWords_within (A := A) 3 w (s.self.pc + 4) s
  unfold packetWords
  revert h
  cases laterWords 3 w (s.self.pc + 4) s with
  | ok ws t => exact id
  | raise e t => exact id
  | stop st => exact id

/-! ### The user-level cache instructions -/

/-- A granted piece was checked on the answer of the walk or of a cached member that covers it. -/
theorem checkChunk_granted_checked {ok : Xlat → Bool} {c : Chunk} {la : Nat}
    (h : checkChunk ok c s = (.granted la, t)) :
    c.va.toNat < 0xFF000000 ∧ ∃ x, ok x = true ∧ la = (xlatAddr x c.va).toNat ∧
      (walk s.params s.lm s.self.map c.va = .answer (.hit x) ∨
        ∃ d ∈ s.self.tc, covers c.va d = true ∧ d.answer = .hit x) := by
  unfold checkChunk at h
  split_ifs at h with hres
  · cases h
  refine ⟨reservedVa_eq_false.1 (by simpa using hres), ?_⟩
  obtain ⟨hanswer, -⟩ := lookup_spec c.va s
  split at h
  case h_5 x s1 hlookup =>
    split_ifs at h with htrusted hok
    · cases h
    · cases h
    split at h
    · cases h
    · cases h
      rw [hlookup] at hanswer
      refine ⟨x, by simpa using hok, rfl, ?_⟩
      obtain hw | ⟨d, hd, hcov, hl⟩ := hanswer
      · exact .inl hw.symm
      · exact .inr ⟨d, hd, hcov, (Walk.answer.inj hl).symm⟩
  all_goals cases h

/-- The pages that `ok` accepts are among those that User mode may write. -/
def AsksUserWrite (ok : Xlat → Bool) : Prop := ∀ x, ok x = true → x.u = true ∧ x.w = true

theorem asksUserWrite_dcinva : AsksUserWrite (cacheGrants .dcinva true) := by
  intro x h
  simp only [cacheGrants, Bool.and_eq_true] at h
  obtain ⟨⟨-, hu⟩, hw⟩ := h
  exact ⟨by simpa using hu, by simpa using hw⟩

/-- A scan is the check of its first piece, which may add a span, and the scan of the others. -/
theorem scanRange_cons {ok : Xlat → Bool} {c : Chunk} {rest : List Chunk} {spans : List (Nat × Nat)}
    {bad : List (Chunk × Bool)} (h : scanRange ok (c :: rest) s = .scanned spans bad t) :
    ∃ v n spans' bad', checkChunk ok c s = (v, { s with free := n }) ∧
      scanRange ok rest { s with free := n } = .scanned spans' bad' t ∧
      (spans = spans' ∨ ∃ la, v = .granted la ∧ spans = (la, c.len) :: spans') := by
  obtain ⟨n, hn⟩ := checkChunk_state ok c s
  rcases hc : checkChunk ok c s with ⟨v, s1⟩
  rw [hc] at hn
  obtain rfl : s1 = { s with free := n } := hn
  simp only [scanRange, hc] at h
  cases v with
  | stop st => cases h
  | granted la =>
    cases hrest : scanRange ok rest { s with free := n } with
    | stop st => simp [hrest] at h
    | scanned spans' bad' u =>
      simp only [hrest] at h
      cases h
      exact ⟨_, n, _, _, rfl, hrest, .inr ⟨la, rfl, rfl⟩⟩
  | offends | badLogical =>
    cases hrest : scanRange ok rest { s with free := n } with
    | stop st => simp [hrest] at h
    | scanned spans' bad' u =>
      simp only [hrest] at h
      cases h
      exact ⟨_, n, _, _, rfl, hrest, .inl rfl⟩

/-- Each span that a scan grants to User mode is in a page in `A`. -/
theorem UserOwns.scanRange (h : UserOwns A s) {ok : Xlat → Bool} (hok : AsksUserWrite ok) {l : List Chunk}
    (hl : ∀ c ∈ l, c.va.toNat % 4096 + c.len ≤ 4096) {spans : List (Nat × Nat)} {bad : List (Chunk × Bool)}
    (hscan : scanRange ok l s = .scanned spans bad t) : ∀ g ∈ spans, ∀ k, k < g.2 → A (g.1 + k) := by
  induction l generalizing s spans bad with
  | nil =>
    cases hscan
    exact List.forall_mem_nil _
  | cons c rest ih =>
    obtain ⟨hpage, hrest⟩ := List.forall_mem_cons.1 hl
    obtain ⟨v, n, spans', bad', hcheck, hscan', hspans⟩ := scanRange_cons hscan
    have htail := ih (s := { s with free := n }) ⟨h.user, h.pages, h.cached⟩ hrest hscan'
    obtain rfl | ⟨la, rfl, rfl⟩ := hspans
    · exact htail
    · obtain ⟨hva, x, hx, rfl, hsource⟩ := checkChunk_granted_checked hcheck
      obtain ⟨hu, hw⟩ := hok x hx
      have hholds : HoldsPage A x := h.answer hva hsource x rfl hu hw
      exact List.forall_mem_cons.2 ⟨fun k hk => hholds.byte (by dsimp only at hk; omega), htail⟩

/-- Everything that invalidating a byte does: memory changes at that byte only. -/
theorem invalidateByte_eq (a : Nat) (s : State) :
    ∃ m st n, invalidateByte a s = { s with lm := m, stale := st, free := n } ∧
      ∀ b, b ≠ a → memGet m b = memGet s.lm b := by
  obtain ⟨n, hn⟩ := drawFrom_state (memGet s.lm a) (invalidateOptions a s) s
  unfold invalidateByte
  rcases hd : drawFrom (memGet s.lm a) (invalidateOptions a s) s with ⟨o, s1⟩
  rw [hd] at hn
  obtain rfl : s1 = { s with free := n } := hn
  dsimp only
  split_ifs
  · exact ⟨s.lm, s.stale, n, rfl, fun _ _ => rfl⟩
  · exact ⟨_, _, n, rfl, fun b hb => by rw [memGet_memPut, if_neg hb]⟩

theorem invalidateByte_within {a : Nat} (ha : A a) (s : State) : WritesWithin A s (invalidateByte a s) := by
  obtain ⟨m, st, n, heq, hm⟩ := invalidateByte_eq a s
  rw [heq]
  exact .of_memory s (fun _ b hb => hm b fun hba => hb (hba ▸ ha)) s.self.regs s.self.other st n

theorem invalidateBytes_within {l : List Nat} (hl : ∀ a ∈ l, A a) (s : State) :
    WritesWithin A s (l.foldl (fun s a => invalidateByte a s) s) := by
  induction l generalizing s with
  | nil => exact .refl s
  | cons a rest ih =>
    obtain ⟨ha, hrest⟩ := List.forall_mem_cons.1 hl
    exact (invalidateByte_within ha s).trans (ih hrest _)

theorem invalidateSpans_within {spans : List (Nat × Nat)} (h : ∀ g ∈ spans, ∀ k, k < g.2 → A (g.1 + k))
    (s : State) : WritesWithin A s (invalidateSpans spans s) := by
  refine (invalidateBytes_within (fun a ha => ?_) s).trans (.of_stale _ _)
  obtain ⟨e, he, rfl⟩ := List.mem_map.1 (List.mem_dedup.1 ha)
  obtain ⟨-, hdirty⟩ := List.mem_filter.1 he
  simp only [Bool.and_eq_true] at hdirty
  obtain ⟨⟨-, hspan⟩, -⟩ := hdirty
  obtain ⟨g, hg, hlo, hhi⟩ := inSpans_iff.1 hspan
  obtain ⟨k, hk⟩ := Nat.exists_eq_add_of_le hlo
  exact hk ▸ h g hg k (by omega)

/-- Only `dcinva` reaches memory, and it asks for a page that User mode may write. -/
theorem cachePages_within (op : BaseCacheOp) (va : Word) (n : Nat) (s : State) :
    AccessWithin A s (cachePages op va n s) := by
  have hstate := scanRange_state (cacheGrants op s.self.um) (rangeChunks va n) s
  unfold cachePages
  cases hscan : scanRange (cacheGrants op s.self.um) (rangeChunks va n) s with
  | stop st => trivial
  | scanned spans bad t =>
    rw [hscan] at hstate
    obtain ⟨k, rfl⟩ := hstate
    refine WritesWithin.trans (.of_free s k) ?_
    cases op with
    | dcfetch => exact .refl _
    | dccleana | dccleaninva | icinva => exact .of_stale _ _
    | dcinva =>
      intro h
      have hs : UserOwns A s := ⟨h.user, h.pages, h.cached⟩
      rw [hs.user] at hscan
      have hspans := hs.scanRange asksUserWrite_dcinva (rangeChunks_cutsInto va n).in_page hscan
      exact invalidateSpans_within hspans _ h

theorem baseCache_within (op : BaseCacheOp) (va : Word) (n : Nat) (s : State) :
    AccessWithin A s (baseCache op va n s) := by
  cases op with
  | dcfetch => exact WritesWithin.refl s
  | dccleana | dccleaninva | dcinva | icinva => exact cachePages_within _ va n s

/-! ### Base packets -/

theorem runProg_within (prog : BaseProg) (s : State) : AccessWithin A s (runProg prog s) := by
  induction prog generalizing s with
  | finish target => exact WritesWithin.refl s
  | raises c => trivial
  | setReg rd v k ih => exact (ih _).trans (.of_rest s (s.self.regs.set rd v) s.self.other s.stale s.free)
  | setOther v k ih => exact (ih _).trans (.of_rest s s.self.regs v s.stale s.free)
  | load va size k ih =>
    have h := memRead_within (A := A) va size s
    unfold runProg
    revert h
    cases memRead va size s with
    | ok v t => exact fun h => (ih _ _).trans h
    | raise e t => exact id
    | stop st => exact id
  | store va size v k ih =>
    have h := memWrite_within (A := A) va size v s
    unfold runProg
    revert h
    cases memWrite va size v s with
    | ok v t => exact fun h => (ih _).trans h
    | raise e t => exact id
    | stop st => exact id
  | cache op va n k ih =>
    have h := baseCache_within (A := A) op va n s
    unfold runProg
    revert h
    cases baseCache op va n s with
    | ok u t => exact fun h => (ih _).trans h
    | raise e t => exact id
    | stop st => exact id
  | draw k ih => exact (ih _ _).trans (.of_free s _)

theorem runPacket_within (b : BasePacket) (s : State) : AccessWithin A s (runPacket b s) := by
  induction b generalizing s with
  | fetch va k ih =>
    have h := fetchLater_within (A := A) va s
    unfold runPacket
    revert h
    cases fetchLater va s with
    | ok w t => exact fun h => (ih _ _).trans h
    | raise e t => exact id
    | stop st => exact id
  | rejects c => trivial
  | runs prog => exact runProg_within prog s

/-! ### The outcome of a packet in User mode -/

/-- The parts that a base packet may change (42_trap0_and_base_isa.md R201). -/
abbrev packetParts : List Part :=
  [Part.pc, .tc, .other, .memory, .stale] ++ (List.finRange 32).map Part.reg

/-- The packet completes, having changed memory in `A` only, or it raises an event. -/
def UserOutcome (A : Nat → Prop) (s t : State) : Prop :=
  (OnlyChanges packetParts s t ∧ ∀ a, ¬A a → memGet t.lm a = memGet s.lm a) ∨
    (t.self.um = false ∧ OnlyChanges (.tc :: entryParts) s t)

theorem Touched.gevb (h : Touched s t) : t.self.gevb = s.self.gevb := by
  obtain ⟨tc, n, rfl, -⟩ := h
  rfl

/-- What was fetched before changes nothing but the cached translations. -/
theorem UserOutcome.of_touched {s1 : State} (h : UserOutcome A s1 t) (htouched : Touched s s1) :
    UserOutcome A s t := by
  have hfetch := OnlyChanges.touched htouched
  obtain ⟨hframe, hmem⟩ | ⟨hguest, hframe⟩ := h
  · refine .inl ⟨(hfetch.mono (by simp)).trans hframe, fun a ha => (hmem a ha).trans ?_⟩
    exact hfetch .memory (by decide) a
  · exact .inr ⟨hguest, (hfetch.mono (by simp)).trans hframe⟩

section

variable {g : Word} (hg : s.self.gevb = some g)

include hg

theorem takeEvent_userOutcome (e : Event) (elr : Word) : UserOutcome A s (takeEvent e elr s) := by
  obtain ⟨⟨-, -, -, -, -, -, hum, -⟩, -, hframe⟩ := takeEvent_entered e elr hg
  exact .inr ⟨hum, hframe.mono fun _ => List.mem_cons_of_mem _⟩

/-- 60_exceptions.md R300: an instruction of this model is an event in User mode. -/
theorem exec_userOutcome (huser : s.self.um = true) (i : Instr) : Leads (UserOutcome A s) (exec i s) := by
  by_cases hi : ∀ imm, i ≠ .trap0 imm
  · rw [exec_user hi huser]
    exact .next (takeEvent_userOutcome hg _ _)
  · obtain ⟨imm, rfl⟩ : ∃ imm, i = .trap0 imm := by simpa using hi
    exact .next (takeEvent_userOutcome hg _ _)

theorem baseProgram_userOutcome (h : UserOwns A s) (b : BasePacket) :
    Leads (UserOutcome A s) (baseProgram b s) := by
  have hworked := runPacket_worked b s
  have hwithin := runPacket_within (A := A) b s
  unfold baseProgram
  revert hworked hwithin
  cases runPacket b s with
  | ok target t =>
    intro hworked hwithin
    exact .next (.inl ⟨(OnlyChanges.worked hworked).setPc target (by simp), (hwithin h).2⟩)
  | raise e t =>
    intro _ _
    exact .next ((takeEvent_userOutcome (s := abandon s t) hg e _).of_touched (.of_free s t.free))
  | stop st => exact fun _ _ => .stop st

theorem basePacket_userOutcome (h : UserOwns A s) (w : Word) : Leads (UserOutcome A s) (basePacket w s) := by
  have htouched := packetWords_touched w s
  have hwithin := packetWords_within (A := A) w s
  unfold basePacket
  revert htouched hwithin
  cases packetWords w s with
  | ok ws t =>
    intro (htouched : Touched s t) hwithin u hu
    have hgt : t.self.gevb = some g := htouched.gevb.trans hg
    exact (baseProgram_userOutcome hgt (hwithin h).1 _ u hu).of_touched htouched
  | raise e t =>
    intro _ _
    exact .next ((takeEvent_userOutcome (s := abandon s t) hg e _).of_touched (.of_free s t.free))
  | stop st => exact fun _ _ => .stop st

theorem runWord_userOutcome (h : UserOwns A s) (bytes : List Byte) : Leads (UserOutcome A s) (runWord bytes s) := by
  have hinvalid : Leads (UserOutcome A s) (.next (raiseHere (.general .invalidPacket) s)) :=
    .next (takeEvent_userOutcome hg _ _)
  unfold runWord
  split
  · split
    · dsimp only
      split_ifs
      · exact exec_userOutcome hg h.user _
      · exact basePacket_userOutcome hg h _
      · exact hinvalid
    · exact hinvalid
  · exact basePacket_userOutcome hg h _
  · exact hinvalid

theorem packet_userOutcome (h : UserOwns A s) : Leads (UserOutcome A s) (packet s) := by
  have htouched := fetch_touched s.self.pc s
  have hwithin := fetch_within (A := A) s.self.pc s
  unfold packet
  revert htouched hwithin
  cases fetch s.self.pc s with
  | ok bytes t =>
    intro (htouched : Touched s t) hwithin u hu
    have hgt : t.self.gevb = some g := htouched.gevb.trans hg
    exact (runWord_userOutcome hgt (hwithin h).1 bytes u hu).of_touched htouched
  | raise e t =>
    intro (htouched : Touched s t) _
    have hgt : t.self.gevb = some g := htouched.gevb.trans hg
    exact .next ((takeEvent_userOutcome hgt e _).of_touched htouched)
  | stop st => exact fun _ _ => .stop st

end

/-- What Guest mode owns of the processor and of the machine (60_exceptions.md R301). -/
def guestParts : List Part :=
  [.gevb, .map, .len, .vpid, .ownTimer, .others, .pending, .gen, .timer, .ver, .params, .agenda, .run]

/-- The event record and the interrupt enable (60_exceptions.md R301). -/
def recordParts : List Part := [.gelr, .gsr, .gosp, .gbadva, .ie, .mch, .recorded]

theorem OnlyChanges.kept {ps qs : List Part} (h : OnlyChanges ps s t) (hps : ∀ p ∈ qs, p ∉ ps) :
    ∀ p ∈ qs, sameAt s t p := fun p hp => h p (hps p hp)

theorem UserOutcome.keepsGuest (h : UserOutcome A s t) : ∀ p ∈ guestParts, sameAt s t p := by
  obtain ⟨hframe, -⟩ | ⟨-, hframe⟩ := h
  · exact hframe.kept (by decide)
  · exact hframe.kept (by decide)

theorem UserOutcome.memory (h : UserOutcome A s t) : ∀ a, ¬A a → memGet t.lm a = memGet s.lm a := by
  obtain ⟨-, hmem⟩ | ⟨-, hframe⟩ := h
  · exact hmem
  · exact fun a _ => hframe .memory (by decide) a

/-- A packet that stays in User mode is one that completes. -/
theorem UserOutcome.keepsRecord (h : UserOutcome A s t) (hum : t.self.um = true) :
    ∀ p ∈ recordParts, sameAt s t p := by
  obtain ⟨hframe, -⟩ | ⟨hguest, -⟩ := h
  · exact hframe.kept (by decide)
  · exact absurd (hguest.symm.trans hum) nofun

/-- Settles O57: every access of a packet in User mode stays within `A`, and an event writes no memory. -/
theorem userModePacketsCannotReachGuestState : Obligations.UserModePacketsCannotReachGuestState := by
  intro s t g A hinv huser hg hpages hpacket
  have howns : UserOwns A s := ⟨huser, hpages, hinv.vpOk_self.cached_ok⟩
  have houtcome : UserOutcome A s t := packet_userOutcome hg howns t hpacket
  have hkept := houtcome.keepsGuest
  simp only [guestParts, List.forall_mem_cons] at hkept
  obtain ⟨hgevb, hmap, hlen, hvpid, htimer, hothers, hpending, hgen, hmachineTimer, hver, hparams, hagenda, hrun, -⟩ :=
    hkept
  refine ⟨hgevb, hmap, hlen, hvpid, htimer, hothers, hpending, hgen, hmachineTimer, hver, hparams, hagenda, hrun,
    houtcome.memory, fun hum => ?_⟩
  have hrecord := houtcome.keepsRecord hum
  simp only [recordParts, List.forall_mem_cons] at hrecord
  obtain ⟨hgelr, hgsr, hgosp, hgbadva, hie, hmch, hrecorded, -⟩ := hrecord
  exact ⟨hgelr, hgsr, hgosp, hgbadva, hie, hmch, hrecorded⟩

end Sys2Proof.Machine
end
